-- ==== Sys2Proof/Word.lean ====
section
/-! DEFINITION. The words, bytes and byte strings the CTR engine moves (00_scope.md R10, R14; 20_memory.md R60). -/

namespace Sys2Proof

/-- A command, argument, response or read-back word (R11, R60: WORD_W is 32 bits). -/
abbrev Word := BitVec 32

/-- A data-in or data-out byte (R10: DATA_LANE is 8 bits). -/
abbrev Byte := BitVec 8

/-- A 16-byte block, byte 0 first: counter block, keystream block, cipher block (R10: BLOCK_BYTES). -/
abbrev Block := Vector Byte 16

/-- A raw 256-bit key as its 32 bytes, byte 0 first (R10: KEY_BYTES). -/
abbrev Key := Vector Byte 32

/-- `0^16`: the block of sixteen zero bytes. -/
def zeroBlock : Block := Vector.replicate 16 0#8

/-- `0^32`: the key buffer of thirty-two zero bytes. -/
def zeroKey : Key := Vector.replicate 32 0#8

end Sys2Proof
end

