-- ==== Sys2Proof/Syntax.lean ====
section
/-! DEFINITION. The syntax of the command interface (30_encoding.md): the raw command word CMD32, the five commands of
spec/opcode_table.json, the commands with their argument words, and the assembler's lines. -/

namespace Sys2Proof

/-- The fields of a 32-bit command word, format CMD32 (30_encoding.md R73), legal or not. -/
structure Cmd32 where
  /-- [3:0] OP, the operation. -/
  op : BitVec 4
  /-- [4] EP, engine argument present. -/
  ep : Bool
  /-- [5] DP, data argument present. -/
  dp : Bool
  /-- [6] KP, key present. -/
  kp : Bool
  /-- [31:7] reserved, must be 0. -/
  rsvd : BitVec 25
deriving DecidableEq, Repr

/-- The commands: one constructor for each row of spec/opcode_table.json, its arguments the row's variable bits
(30_encoding.md R75). A presence bit at `false` is the source's "absent" argument (R74). -/
inductive Instr where
  /-- INIT (44_lifecycle.md R190): key present, block present. -/
  | init (kp dp : Bool)
  /-- SETBLK (44_lifecycle.md R205): engine present, block present. -/
  | setblk (ep dp : Bool)
  /-- XCRYPT, also spelt ENCRYPT and DECRYPT (43_stream_xor.md R150): engine present, buffer present. -/
  | xcrypt (ep dp : Bool)
  /-- TEARDOWN (44_lifecycle.md R212): engine present. -/
  | teardown (ep : Bool)
  /-- GETBLK (44_lifecycle.md R225): engine present. -/
  | getblk (ep : Bool)
deriving DecidableEq, Repr

/-- A command together with the arguments its argument words carry (30_encoding.md R78, R88): `none` is an absent
argument, written `-` in the assembler. The data bytes of an XCRYPT are no part of it. -/
inductive Command where
  | init (key : Option Key) (block : Option Block)
  | setblk (ep : Bool) (block : Option Block)
  | xcrypt (ep : Bool) (len : Option Word)
  | teardown (ep : Bool)
  | getblk (ep : Bool)
deriving DecidableEq, Repr

/-- One assembler line (30_encoding.md R88, R89): a command, one of the aliases, or a raw word. -/
inductive AsmLine where
  | command (c : Command)
  /-- `ENCRYPT <len>`. -/
  | encrypt (len : Word)
  /-- `DECRYPT <len>`. -/
  | decrypt (len : Word)
  /-- `ENCRYPT <e|->, <len|->` with explicit operands. -/
  | encryptOperands (ep : Bool) (len : Option Word)
  /-- `DECRYPT <e|->, <len|->` with explicit operands. -/
  | decryptOperands (ep : Bool) (len : Option Word)
  /-- `SETBLK <block>`. -/
  | setblkShort (block : Block)
  /-- `TEARDOWN` with no operand. -/
  | teardownShort
  /-- `GETBLK` with no operand. -/
  | getblkShort
  /-- `.word <hex>`. -/
  | word (w : Word)
deriving DecidableEq, Repr

end Sys2Proof
end

