-- ==== Sys2Proof/WellFormed.lean ====
section
/-! DEFINITION. When a command word is legal (30_encoding.md R76, R86): the well-formedness of the command interface. -/

namespace Sys2Proof

/-- The opcode map lists OP (R75: 0x1 to 0x5). -/
def Cmd32.opListed (c : Cmd32) : Bool :=
  1 ≤ c.op.toNat && c.op.toNat ≤ 5

/-- Bits [31:7] are zero (R76). -/
def Cmd32.reservedZero (c : Cmd32) : Bool :=
  c.rsvd == 0#25

/-- R75: EP "must be 0" for INIT alone. -/
def Cmd32.epAllowed (c : Cmd32) : Bool :=
  !(c.op == 1#4 && c.ep)

/-- R75: DP "must be 0" for TEARDOWN and GETBLK. -/
def Cmd32.dpAllowed (c : Cmd32) : Bool :=
  !((c.op == 4#4 || c.op == 5#4) && c.dp)

/-- R75: KP "must be 0" for every command but INIT. -/
def Cmd32.kpAllowed (c : Cmd32) : Bool :=
  !((c.op == 2#4 || c.op == 3#4 || c.op == 4#4 || c.op == 5#4) && c.kp)

/-- A command word is legal (R76): OP listed, bits [31:7] zero, every "must be 0" bit zero. It depends on the command
word alone. -/
def Cmd32.legal (c : Cmd32) : Bool :=
  c.opListed && c.reservedZero && c.epAllowed && c.dpAllowed && c.kpAllowed

/-- The command-word fields of an instruction (R75): its OP, its presence bits, zero elsewhere. -/
def Instr.fields : Instr → Cmd32
  | .init kp dp => { op := 1#4, ep := false, dp := dp, kp := kp, rsvd := 0#25 }
  | .setblk ep dp => { op := 2#4, ep := ep, dp := dp, kp := false, rsvd := 0#25 }
  | .xcrypt ep dp => { op := 3#4, ep := ep, dp := dp, kp := false, rsvd := 0#25 }
  | .teardown ep => { op := 4#4, ep := ep, dp := false, kp := false, rsvd := 0#25 }
  | .getblk ep => { op := 5#4, ep := ep, dp := false, kp := false, rsvd := 0#25 }

/-- An instruction is well-formed when its command word is legal. The presence bits a row does not have are no arguments
of its constructor, so this holds of every `Instr`; what can fail is a raw `Cmd32`. -/
def Instr.wellFormed (i : Instr) : Bool :=
  i.fields.legal

end Sys2Proof
end

