-- ==== Sys2Proof/Decode.lean ====
section
/-! DEFINITION. Byte packing (20_memory.md R56), the decoder of command words, the encoder, the framing of argument words
(30_encoding.md R73 to R79, R87) and the assembler (R88, R89). -/

namespace Sys2Proof

/-! ## Bytes and words -/

/-- `B[k]`: byte k of a byte string. DESIGN CHOICE (log 12): an index past the end, which no rule uses, reads as 0. -/
def byteAt {n : Nat} (b : Vector Byte n) (k : Nat) : Byte :=
  b[k]?.getD 0#8

/-- `B[k] <- v`: write byte k. An index past the end, which no rule uses, writes nothing. -/
def setByte {n : Nat} (b : Vector Byte n) (k : Nat) (v : Byte) : Vector Byte n :=
  b.setIfInBounds k v

/-- Four bytes in one word, the first in bits [31:24] (R56); on numbers this is `be32` (00_scope.md R14). -/
def packWord (b0 b1 b2 b3 : Byte) : Word :=
  b0.setWidth 32 <<< 24 ||| b1.setWidth 32 <<< 16 ||| b2.setWidth 32 <<< 8 ||| b3.setWidth 32

/-- Byte k (0 to 3) of a word, byte 0 being bits [31:24] (R56); on numbers `bytes_be32` (00_scope.md R14). -/
def wordByte (w : Word) (k : Nat) : Byte :=
  w.extractLsb' (24 - 8 * k) 8

/-- Word m of a byte string: bytes 4m to 4m+3 packed (R56, R79). -/
def getWord {n : Nat} (b : Vector Byte n) (m : Nat) : Word :=
  packWord (byteAt b (4 * m)) (byteAt b (4 * m + 1)) (byteAt b (4 * m + 2)) (byteAt b (4 * m + 3))

/-- Write word m of a byte string: bytes 4m to 4m+3 (R56, R79). -/
def putWord {n : Nat} (b : Vector Byte n) (m : Nat) (w : Word) : Vector Byte n :=
  setByte (setByte (setByte (setByte b (4 * m) (wordByte w 0)) (4 * m + 1) (wordByte w 1)) (4 * m + 2) (wordByte w 2))
    (4 * m + 3) (wordByte w 3)

/-- Write consecutive words from word m on. -/
def putWords {n : Nat} (b : Vector Byte n) (m : Nat) : List Word → Vector Byte n
  | [] => b
  | w :: ws => putWords (putWord b m w) (m + 1) ws

/-- Words 0 to count-1 of a byte string. -/
def getWords {n : Nat} (b : Vector Byte n) (count : Nat) : List Word :=
  (List.range count).map (getWord b)

/-- `CB.ctr`, the counter field as a 32-bit number: bytes 12 to 15, big-endian (10_state.md R21, 20_memory.md R54). -/
def ctrOf (b : Block) : Word :=
  getWord b 3

/-- The block with counter c in bytes 12 to 15 and bytes 0 to 11 kept. -/
def withCtr (b : Block) (c : Word) : Block :=
  putWord b 3 c

/-! ## Decoding a command word -/

/-- Why a command word is illegal (30_encoding.md R76, R86). -/
inductive Reject where
  /-- OP is 0x0 or 0x6 to 0xF. -/
  | reservedOp
  /-- A bit of [31:7] is 1. -/
  | reservedBits
  /-- EP is 1 where it must be 0. -/
  | epMustBeZero
  /-- DP is 1 where it must be 0. -/
  | dpMustBeZero
  /-- KP is 1 where it must be 0. -/
  | kpMustBeZero
deriving DecidableEq, Repr

/-- The fields of a command word (R73). -/
def wordFields (w : Word) : Cmd32 :=
  { op := w.extractLsb' 0 4, ep := w.getLsbD 4, dp := w.getLsbD 5, kp := w.getLsbD 6, rsvd := w.extractLsb' 7 25 }

/-- A bit in position n of a word. -/
def bitAt (b : Bool) (n : Nat) : Word :=
  (BitVec.ofBool b).setWidth 32 <<< n

/-- The command word with these fields (R73). -/
def fieldsWord (c : Cmd32) : Word :=
  c.rsvd.setWidth 32 <<< 7 ||| bitAt c.kp 6 ||| bitAt c.dp 5 ||| bitAt c.ep 4 ||| c.op.setWidth 32

/-- The command the opcode map gives legal fields (R75), its "must be 0" bits not looked at. -/
def opInstr (c : Cmd32) : Option Instr :=
  match c.op.toNat with
  | 1 => some (.init c.kp c.dp)
  | 2 => some (.setblk c.ep c.dp)
  | 3 => some (.xcrypt c.ep c.dp)
  | 4 => some (.teardown c.ep)
  | 5 => some (.getblk c.ep)
  | _ => none

/-- The command of a command word's fields, or why they are illegal (R75, R76). -/
def decodeFields (c : Cmd32) : Except Reject Instr :=
  match opInstr c with
  | none => .error .reservedOp
  | some i =>
    if !c.reservedZero then .error .reservedBits
    else if !c.epAllowed then .error .epMustBeZero
    else if !c.dpAllowed then .error .dpMustBeZero
    else if !c.kpAllowed then .error .kpMustBeZero
    else .ok i

/-- The decoder: total on every 32-bit word (R76, R77). -/
def decode (w : Word) : Except Reject Instr :=
  decodeFields (wordFields w)

/-- The encoder: the command word of an instruction (R73, R75). -/
def encode (i : Instr) : Word :=
  fieldsWord i.fields

/-! ## Argument words -/

/-- NARGS: how many argument words follow the command word (R78). EP plays no part. -/
def nargs : Instr → Nat
  | .init kp dp => 8 * kp.toNat + 4 * dp.toNat
  | .setblk _ dp => 4 * dp.toNat
  | .xcrypt _ dp => dp.toNat
  | .teardown _ => 0
  | .getblk _ => 0

/-- The words a command takes, told from its first word alone (R87): 1 for an illegal word, else 1 + NARGS. -/
def commandLength (w : Word) : Nat :=
  match decode w with
  | .ok i => 1 + nargs i
  | .error _ => 1

/-- The command word of a command with arguments. -/
def Command.instr : Command → Instr
  | .init key block => .init key.isSome block.isSome
  | .setblk ep block => .setblk ep block.isSome
  | .xcrypt ep len => .xcrypt ep len.isSome
  | .teardown ep => .teardown ep
  | .getblk ep => .getblk ep

/-- The argument words B0 to B3 of a block that may be absent (R78, R79). -/
def blockArgs : Option Block → List Word
  | some b => getWords b 4
  | none => []

/-- The argument words K0 to K7 of a key that may be absent (R78, R79). -/
def keyArgs : Option Key → List Word
  | some k => getWords k 8
  | none => []

/-- The argument words of a command, in order (R78). -/
def Command.args : Command → List Word
  | .init key block => keyArgs key ++ blockArgs block
  | .setblk _ block => blockArgs block
  | .xcrypt _ len => len.toList
  | .teardown _ => []
  | .getblk _ => []

/-- The words of a command on `cmd_data`: command word, then argument words (R78, R87). -/
def assemble (c : Command) : List Word :=
  encode c.instr :: c.args

/-- The command an instruction and its argument words stand for (R78, R79); `none` on the wrong number of words. -/
def commandOf (i : Instr) (args : List Word) : Option Command :=
  if args.length = nargs i then
    match i with
    | .init kp dp =>
      let block := if kp then args.drop 8 else args
      some (.init (if kp then some (putWords zeroKey 0 (args.take 8)) else none)
        (if dp then some (putWords zeroBlock 0 block) else none))
    | .setblk ep dp => some (.setblk ep (if dp then some (putWords zeroBlock 0 args) else none))
    | .xcrypt ep _ => some (.xcrypt ep args.head?)
    | .teardown ep => some (.teardown ep)
    | .getblk ep => some (.getblk ep)
  else none

/-- Read one whole command off a word stream, with what is left of the stream (R78, R87). `none` at an illegal command
word or where argument words are still missing. -/
def parseCommand : List Word → Option (Command × List Word)
  | [] => none
  | w :: rest =>
    match decode w with
    | .error _ => none
    | .ok i =>
      match commandOf i (rest.take (nargs i)) with
      | some c => some (c, rest.drop (nargs i))
      | none => none

/-- What an assembler line stands for (R89); `none` for a raw word. -/
def AsmLine.command? : AsmLine → Option Command
  | .command c => some c
  | .encrypt len => some (.xcrypt true (some len))
  | .decrypt len => some (.xcrypt true (some len))
  | .encryptOperands ep len => some (.xcrypt ep len)
  | .decryptOperands ep len => some (.xcrypt ep len)
  | .setblkShort block => some (.setblk true (some block))
  | .teardownShort => some (.teardown true)
  | .getblkShort => some (.getblk true)
  | .word _ => none

/-- The words an assembler line gives (R88, R89). -/
def AsmLine.words : AsmLine → List Word
  | .word w => [w]
  | .command c => assemble c
  | .encrypt len => assemble (.xcrypt true (some len))
  | .decrypt len => assemble (.xcrypt true (some len))
  | .encryptOperands ep len => assemble (.xcrypt ep len)
  | .decryptOperands ep len => assemble (.xcrypt ep len)
  | .setblkShort block => assemble (.setblk true (some block))
  | .teardownShort => assemble (.teardown true)
  | .getblkShort => assemble (.getblk true)

/-! ## The opcode table, and the host's numbering of its bits -/

/-- The match value of an instruction's row of spec/opcode_table.json. -/
def rowMatch : Instr → Word
  | .init _ _ => 0x00000001#32
  | .setblk _ _ => 0x00000002#32
  | .xcrypt _ _ => 0x00000003#32
  | .teardown _ => 0x00000004#32
  | .getblk _ => 0x00000005#32

/-- The mask of an instruction's row of spec/opcode_table.json. -/
def rowMask : Instr → Word
  | .init _ _ => 0xFFFFFF9F#32
  | .setblk _ _ => 0xFFFFFFCF#32
  | .xcrypt _ _ => 0xFFFFFFCF#32
  | .teardown _ => 0xFFFFFFEF#32
  | .getblk _ => 0xFFFFFFEF#32

/-- Word k of an instruction whose bits are w, bit 0 the least significant bit of the first word; bits from nbits on are 0. -/
def tableWord (nbits w k : Nat) : Word :=
  BitVec.ofNat 32 ((w % 2 ^ nbits) >>> (32 * k))

/-- The instruction the decoder reads from an instruction whose bits are w. The command word is one 32-bit word on
`cmd_data` (R73), so no byte order enters. -/
def decodeTableWord (nbits w : Nat) : Option Instr :=
  (decode (tableWord nbits w 0)).toOption

/-- The words of that instruction as the host offers them: the command word and the argument words it calls for. -/
def tableWords (nbits w : Nat) : List Word :=
  (List.range (commandLength (tableWord nbits w 0))).map (tableWord nbits w)

end Sys2Proof
end

