-- ==== Sys2Proof/Config.lean ====
section
/-! DEFINITION. What the cipher collaborator fixes (00_scope.md R11; 92_eei_decisions.md D4, D29). Nothing here has a
body, so no proof can see a value. -/

namespace Sys2Proof

/-- An element of the opaque type `Sched` of expanded key schedules (10_state.md R30). The spec gives no size or layout
(91_not_in_source.md G6); the bytes the collaborator stores are a byte string of any length.
DESIGN CHOICE (log 3): plain data of unbounded size, so that `State` stays comparable. -/
structure Sched where
  bytes : List Byte
deriving DecidableEq, Repr, Inhabited

/-- `ExpandKey : Bytes32 -> Sched` (42_keystream_clock.md R130), a parameter of the spec: no body. -/
opaque Config.expandKey : Key → Sched

/-- `E : Sched -> Bytes16 -> Bytes16`, single-block encryption (00_scope.md R11, 42_keystream_clock.md R126), a parameter
of the spec: no body. AES-256 is its intended value. -/
opaque Config.encryptBlock : Sched → Block → Block

end Sys2Proof
end

