-- ==== Sys2Proof/Machine/State.lean ====
section
/-! DEFINITION. The state of the CTR engine, of its cipher collaborator and of its ports (10_state.md, 30_encoding.md
section 1), the reasons a step can stop (60_exceptions.md R248), and the state after reset (R45). -/

namespace Sys2Proof.Machine

/-- A collaborator operation (42_keystream_clock.md R130). -/
inductive CipherOp where
  | expand
  | enc
  | wipe
deriving DecidableEq, Repr

/-- A collaborator request with its data (R130, 30_encoding.md R70). -/
inductive CphReq where
  /-- EXPAND with the 32 key bytes. -/
  | expand (key : Key)
  /-- ENC with the 16 block bytes. -/
  | enc (block : Block)
  /-- WIPE, no data. -/
  | wipe
deriving DecidableEq, Repr

/-- The operation of a request. -/
def CphReq.op : CphReq → CipherOp
  | .expand _ => .expand
  | .enc _ => .enc
  | .wipe => .wipe

/-- FSM, the control state: each value names the primitive the engine performs next (10_state.md R35). -/
inductive Fsm where
  /-- Wait for a command word. -/
  | idle
  /-- Wait for argument word ARGI. -/
  | args
  /-- Offer a collaborator request. -/
  | cphReq (op : CipherOp)
  /-- Wait for that request's response. -/
  | cphRsp (op : CipherOp)
  /-- Wait for data-in byte I. -/
  | xcByte
  /-- Offer data-out byte I. -/
  | xcOut
  /-- Offer the response word RSP. -/
  | resp
  /-- Offer read-back word 4 - RDBK. -/
  | rdbk
deriving DecidableEq, Repr

/-- CMD, the latched fields of the command word in progress (R36). -/
structure CmdReg where
  op : BitVec 4
  ep : Bool
  dp : Bool
  kp : Bool
deriving DecidableEq, Repr

/-- CODE of a response word (30_encoding.md R80, R81). -/
inductive Code where
  | ok
  | invalidArg
  | illegalCmd
  | wipeFailed
deriving DecidableEq, Repr

/-- A response the collaborator offers on `cph_rsp_*` (30_encoding.md R70). -/
structure CphRsp where
  /-- `cph_rsp_err`. -/
  err : Bool
  /-- `cph_rsp_data`: ENC: keystream bytes, byte 0 in [127:120]; otherwise ignored. -/
  data : BitVec 128
deriving DecidableEq, Repr

/-- The input ports at one rising edge of `clk` (30_encoding.md R70). An offer is `some` data where its `valid` is 1. -/
structure PortIn where
  /-- `rst_n`. -/
  rstN : Bool
  /-- `cmd_valid`, `cmd_data`. -/
  cmd : Option Word
  /-- `rsp_ready`. -/
  rspReady : Bool
  /-- `din_valid`, `din_data`. -/
  din : Option Byte
  /-- `dout_ready`. -/
  doutReady : Bool
  /-- `cph_req_ready`. -/
  cphReqReady : Bool
  /-- `cph_rsp_valid`, `cph_rsp_err`, `cph_rsp_data`. DESIGN CHOICE (log 4): to an ENC under a valid key the data lines carry
  what 42_keystream_clock.md R125 says, whatever `data` holds here. -/
  cphRsp : Option CphRsp
deriving DecidableEq, Repr

/-- No reset, nothing offered, nobody ready. -/
def PortIn.quiet : PortIn :=
  { rstN := true, cmd := none, rspReady := false, din := none, doutReady := false, cphReqReady := false, cphRsp := none }

/-- The output ports at one rising edge (R70), an offer as in `PortIn`. Data on a port with no offer is not represented
(log 17). -/
structure PortOut where
  cmdReady : Bool
  /-- `rsp_valid`, `rsp_data`. -/
  rsp : Option Word
  dinReady : Bool
  /-- `dout_valid`, `dout_data`. -/
  dout : Option Byte
  /-- `cph_req_valid`, `cph_req_op`, `cph_req_data`. -/
  cphReq : Option CphReq
  cphRspReady : Bool
deriving DecidableEq, Repr

/-- One transfer on a port (30_encoding.md R71), as the outside sees it. -/
inductive Transfer where
  | cmdIn (w : Word)
  | rspOut (w : Word)
  | dataIn (b : Byte)
  | dataOut (b : Byte)
  | cipherReq (r : CphReq)
  /-- The response to an EXPAND or WIPE, its error bit; the data lines are ignored (93_implementation_defined.md U12). -/
  | cipherErr (op : CipherOp) (err : Bool)
  /-- The response to an ENC, its data. -/
  | cipherBlock (block : Block)
deriving DecidableEq, Repr

/-- The whole machine at one rising edge. -/
structure State where
  /-- CB, the counter block (R21). -/
  cb : Block
  /-- KS, the keystream register (R26). -/
  ks : Block
  /-- J, the keystream cursor, held in 5 bits (R28). -/
  j : BitVec 5
  /-- SCHED, the schedule the collaborator holds; `none` is UNSPEC (R30). -/
  sched : Option Sched
  /-- KEY_VALID (R32). -/
  keyValid : Bool
  /-- KX_ERR (R33). -/
  kxErr : Bool
  /-- FSM (R35). -/
  fsm : Fsm
  /-- CMD (R36). -/
  cmd : CmdReg
  /-- NARGS, argument words still due (R36: 0 to 12). DESIGN CHOICE (log 18): a natural number, as ARGI and RDBK. -/
  nargs : Nat
  /-- ARGI, the index of the next argument word (R36). -/
  argi : Nat
  /-- KEYBUF (R36, R37). -/
  keybuf : Key
  /-- BLKBUF (R36). -/
  blkbuf : Block
  /-- LEN (R36). -/
  len : Word
  /-- I, the data bytes already processed (R36). -/
  i : Word
  /-- OUTB, the data-out holding register (R36). -/
  outb : Byte
  /-- RSP, the pending response word (R36). -/
  rsp : Word
  /-- RDBK, read-back words not yet given (R36: 0 to 4). -/
  rdbk : Nat
  /-- The collaborator request in flight (30_encoding.md R72, 10_state.md R45). -/
  inflight : Option CphReq
  /-- The model's own: the input ports at this edge and at the edges to come; past its end all inputs are quiet
  (log 2). -/
  inputs : List PortIn
  /-- The model's own: the word the host offered at the last edge and still owes, if it was not taken (R71). -/
  heldCmd : Option Word
  /-- The model's own: the data byte the host offered at the last edge and still owes, if it was not taken (R71). -/
  heldDin : Option Byte
  /-- The model's own: every transfer so far, oldest first (log 11). -/
  traffic : List Transfer
deriving DecidableEq, Repr

/-- Faults. -/
inductive Fault where
  /-- `CipherContract` (60_exceptions.md R248): the collaborator answers an ENC request with `cph_rsp_err = 1` (R127).
  Raised by XCRYPT's clock. Safe: the hardware goes on, outside the collaborator's contract. -/
  | cipherContract
deriving DecidableEq, Repr

/-- Refusals. -/
inductive Refusal where
  /-- No meaning for the instruction. No arm of `exec` raises it. -/
  | notModelled (mnemonic : String)
  /-- `PortProtocol` (60_exceptions.md R248, 30_encoding.md R71): the host withdraws an offer, or changes its data, before
  the transfer. Raised by `step`. Safe: such a run is outside the spec. -/
  | portProtocol
  /-- `UnsolicitedResponse` (R248, 42_keystream_clock.md R132): the collaborator offers a response with no request in
  flight. Raised by `step`. Safe: such a run is outside the spec. -/
  | unsolicitedResponse
deriving DecidableEq, Repr

/-- The state after reset (10_state.md R45), with no input waiting: the engine waits for its first command word
(70_reset_and_hazards.md R272). -/
def State.reset : State :=
  { cb := zeroBlock
    ks := zeroBlock
    j := 16#5
    sched := none
    keyValid := false
    kxErr := false
    fsm := .idle
    cmd := { op := 0#4, ep := false, dp := false, kp := false }
    nargs := 0
    argi := 0
    keybuf := zeroKey
    blkbuf := zeroBlock
    len := 0#32
    i := 0#32
    outb := 0#8
    rsp := 0#32
    rdbk := 0
    inflight := none
    inputs := []
    heldCmd := none
    heldDin := none
    traffic := [] }

/-- What the engine does at one edge: `step` reads it off the state before it calls `exec`. -/
inductive Work where
  /-- Perform the next edge of this command. -/
  | run (i : Instr)
  /-- Take this illegal command word. -/
  | illegal (w : Word)
  /-- Give the response of a command that is none of the five. -/
  | reply
  /-- Nothing is offered: hold all state. -/
  | wait
deriving DecidableEq, Repr

end Sys2Proof.Machine
end

