-- ==== Sys2Proof/Machine/Flags.lean ====
section
/-! DEFINITION. The status the engine reports: the response word with its flags KEY_VALID and KX_ERR (30_encoding.md R80,
R81), and the words of the collaborator port. -/

namespace Sys2Proof.Machine

/-- The CODE field [3:1] (R80, R81): 4 to 7 are never produced. -/
def codeBits : Code → BitVec 3
  | .ok => 0#3
  | .invalidArg => 1#3
  | .illegalCmd => 2#3
  | .wipeFailed => 3#3

/-- A response word (R80): ERR [0], CODE [3:1], OPECHO [7:4], KEY_VALID [8], KX_ERR [9], zero above. ERR is 1 exactly
when CODE is not 0. -/
def responseWord (c : Code) (op : BitVec 4) (keyValid kxErr : Bool) : Word :=
  bitAt kxErr 9 ||| bitAt keyValid 8 ||| op.setWidth 32 <<< 4 ||| (codeBits c).setWidth 32 <<< 1 |||
    bitAt (codeBits c != 0#3) 0

/-- The response word of the command in progress with this code: OPECHO is CMD.OP, the flags are those after the
command's effect (R80). -/
def response (c : Code) (s : State) : Word :=
  responseWord c s.cmd.op s.keyValid s.kxErr

/-- KEY_VALID, KX_ERR and SCHED after an EXPAND response (44_lifecycle.md R193, 42_keystream_clock.md R130).
DEDUCED (log 14): SCHED changes at the response. -/
def keyExpanded (err : Bool) (key : Key) (s : State) : State :=
  if err then { s with keyValid := false, kxErr := true, sched := none }
  else { s with keyValid := true, sched := some (Config.expandKey key) }

/-- KEY_VALID and SCHED when no key is held: INIT without a key (44_lifecycle.md R194), TEARDOWN (R214). -/
def keyDropped (s : State) : State :=
  { s with keyValid := false, sched := none }

/-- `cph_req_op` (30_encoding.md R70): 3 is never driven. -/
def opCode : CipherOp → BitVec 2
  | .expand => 0#2
  | .enc => 1#2
  | .wipe => 2#2

/-- The bytes of a byte string as one number, byte 0 in the highest bits. -/
def bytesNat {n : Nat} (b : Vector Byte n) : Nat :=
  b.toList.foldl (fun acc x => 256 * acc + x.toNat) 0

/-- The 16 bytes of a block on 128 data lines, byte 0 in [127:120] (30_encoding.md R70). -/
def blockBits (b : Block) : BitVec 128 :=
  BitVec.ofNat 128 (bytesNat b)

/-- The block on 128 data lines, byte 0 from [127:120] (30_encoding.md R70). -/
def bitsBlock (d : BitVec 128) : Block :=
  Vector.ofFn fun k => d.extractLsb' (120 - 8 * k.val) 8

/-- `cph_req_data` (30_encoding.md R70): the key bytes, byte 0 in [255:248]; the block bytes in [127:0], byte 0 in
[127:120]; or all zero. -/
def reqData : CphReq → BitVec 256
  | .expand key => BitVec.ofNat 256 (bytesNat key)
  | .enc block => (blockBits block).setWidth 256
  | .wipe => 0#256

end Sys2Proof.Machine
end

