-- ==== Sys2Proof/Machine/Ops.lean ====
section
/-! DEFINITION. The ports and their transfers (30_encoding.md R70, R71, R84), and the operations the commands share:
giving and taking a response, raising an error, sending a collaborator request, clearing the data path. -/

namespace Sys2Proof.Machine

/-! ## Ports -/

/-- The input ports at this edge. DESIGN CHOICE (log 2): past the end of `inputs` everything is quiet. -/
def State.pins (s : State) : PortIn :=
  s.inputs.headD PortIn.quiet

/-- The word offered on `rsp_data`: RSP in RESP, read-back word 4 - RDBK in RDBK (10_state.md R35, 30_encoding.md R82). -/
def rspOffer (s : State) : Option Word :=
  match s.fsm with
  | .resp => some s.rsp
  | .rdbk => some (getWord s.cb (4 - s.rdbk))
  | _ => none

/-- The request offered on `cph_req_*` (30_encoding.md R70, 42_keystream_clock.md R123): KEYBUF, all of CB, or nothing. -/
def reqOffer (s : State) : Option CphReq :=
  match s.fsm with
  | .cphReq .expand => some (.expand s.keybuf)
  | .cphReq .enc => some (.enc s.cb)
  | .cphReq .wipe => some .wipe
  | _ => none

/-- `cmd_ready` (R84): IDLE and ARGS alone. -/
def takesWord (f : Fsm) : Bool :=
  match f with
  | .idle => true
  | .args => true
  | _ => false

/-- `cph_rsp_ready` (42_keystream_clock.md R132): a request's response is awaited. -/
def takesCipherRsp (f : Fsm) : Bool :=
  match f with
  | .cphRsp _ => true
  | _ => false

/-- The output ports (R70, R84, R154, R132); while `rst_n = 0` nothing is offered and nothing ready
(70_reset_and_hazards.md R270). -/
def State.ports (s : State) : PortOut :=
  if s.pins.rstN then
    { cmdReady := takesWord s.fsm
      rsp := rspOffer s
      dinReady := s.fsm == .xcByte
      dout := if s.fsm = .xcOut then some s.outb else none
      cphReq := reqOffer s
      cphRspReady := takesCipherRsp s.fsm }
  else { cmdReady := false, rsp := none, dinReady := false, dout := none, cphReq := none, cphRspReady := false }

/-! ## Transfers (00_scope.md R14, 30_encoding.md R71): what is transferred at this edge, if anything -/

/-- `CmdIn()`. -/
def cmdIn (s : State) : Option Word :=
  if s.ports.cmdReady then s.pins.cmd else none

/-- `RspOut(w)`. -/
def rspOut (s : State) : Option Word :=
  if s.pins.rspReady then s.ports.rsp else none

/-- `DataIn()`. -/
def dataIn (s : State) : Option Byte :=
  if s.ports.dinReady then s.pins.din else none

/-- `DataOut(b)`. -/
def dataOut (s : State) : Option Byte :=
  if s.pins.doutReady then s.ports.dout else none

/-- `CipherReq(op, arg)`. -/
def cipherReq (s : State) : Option CphReq :=
  if s.pins.cphReqReady then s.ports.cphReq else none

/-- `CipherRsp()`. -/
def cipherRsp (s : State) : Option CphRsp :=
  if s.ports.cphRspReady then s.pins.cphRsp else none

/-- Record a transfer. -/
def note (t : Transfer) (s : State) : State :=
  { s with traffic := s.traffic ++ [t] }

/-! ## Responses and errors -/

/-- Set RSP to the response word and offer it (30_encoding.md R83). -/
def respond (c : Code) (s : State) : State :=
  { s with rsp := response c s, fsm := .resp }

/-- End the command with an error response: the one way an error is taken (60_exceptions.md R240 to R242). There is no
trap entry: nothing is saved, no mode changes, no handler is entered (R251). -/
def raise (c : Code) (s : State) : State :=
  respond c s

/-- Whether RSP answers a GETBLK with CODE = OK, so that read-back words follow (R82, R83). -/
def readsBack (s : State) : Bool :=
  s.cmd.op == 5#4 && s.rsp.extractLsb' 0 4 == 0#4

/-- The engine's return to IDLE after a command, erroneous or not: the `RspOut` transfers (R83, R240, R251). At the
response word RSP is emptied and read-back begins or the command ends; each read-back word decrements RDBK, and the last
ends the command. DEDUCED (log 8): RSP is emptied in both cases (20_memory.md R63). -/
def takeResponse (s : State) : State :=
  match rspOut s with
  | none => s
  | some w =>
    if s.fsm = .rdbk then
      if s.rdbk ≤ 1 then note (.rspOut w) { s with rdbk := 0, fsm := .idle }
      else note (.rspOut w) { s with rdbk := s.rdbk - 1 }
    else if readsBack s then note (.rspOut w) { s with rsp := 0#32, rdbk := 4, fsm := .rdbk }
    else note (.rspOut w) { s with rsp := 0#32, fsm := .idle }

/-- An illegal command word is taken and answered with ILLEGAL_CMD (30_encoding.md R77, 60_exceptions.md R241).
DEDUCED (log 9): CMD keeps OP and no other bit, since "Nothing else of the word is kept". -/
def illegalCommand (w : Word) (s : State) : State :=
  note (.cmdIn w)
    (raise .illegalCmd { s with cmd := { op := w.extractLsb' 0 4, ep := false, dp := false, kp := false } })

/-! ## The collaborator port and the data path -/

/-- The `CipherReq` transfer of the request on offer, with what the command does at that edge; one request in flight
(30_encoding.md R72, 42_keystream_clock.md R130). -/
def sendRequest (taken : State → State) (s : State) : State :=
  match cipherReq s with
  | none => s
  | some r => note (.cipherReq r) (taken { s with inflight := some r, fsm := .cphRsp r.op })

/-- Erase the keystream and put the cursor at the block end: KS <- 0^16, J <- 16, I <- 0 (43_stream_xor.md R160,
44_lifecycle.md R196). -/
def clearPath (s : State) : State :=
  { s with ks := zeroBlock, j := 16#5, i := 0#32 }

end Sys2Proof.Machine
end

