-- ==== Sys2Proof/Machine/Operands.lean ====
section
/-! DEFINITION. The operands of a command: the latched presence bits (10_state.md R36) and the argument words
(30_encoding.md R78, R79). -/

namespace Sys2Proof.Machine

/-- The fields of a legal command word that CMD latches. -/
def instrCmd (i : Instr) : CmdReg :=
  { op := i.fields.op, ep := i.fields.ep, dp := i.fields.dp, kp := i.fields.kp }

/-- The command in progress, read back from CMD. -/
def cmdInstr (c : CmdReg) : Option Instr :=
  (decodeFields { op := c.op, ep := c.ep, dp := c.dp, kp := c.kp, rsvd := 0#25 }).toOption

/-- The edge that takes a command word in IDLE: latch CMD, and either wait for argument words or, when there are none,
have the command's effect at this edge (30_encoding.md R78). `done` is what the command does once its arguments are in. -/
def takeCommand (i : Instr) (done : State → State) (s : State) : State :=
  match cmdIn s with
  | none => s
  | some w =>
    if nargs i = 0 then done (note (.cmdIn w) { s with cmd := instrCmd i })
    else note (.cmdIn w) { s with cmd := instrCmd i, nargs := nargs i, argi := 0, fsm := .args }

/-- The edge that takes argument word ARGI in ARGS: `store` puts it where it belongs, and the last one has the command's
effect at the same edge. DEDUCED (log 6): at the same edge, and ARGI back to 0 then. -/
def takeArgument (store : Word → State → State) (done : State → State) (s : State) : State :=
  match cmdIn s with
  | none => s
  | some w =>
    if s.nargs ≤ 1 then done (note (.cmdIn w) { store w s with nargs := 0, argi := 0 })
    else note (.cmdIn w) { store w s with nargs := s.nargs - 1, argi := s.argi + 1 }

/-- Block word m to BLKBUF (R79). -/
def storeBlock (m : Nat) (w : Word) (s : State) : State :=
  { s with blkbuf := putWord s.blkbuf m w }

/-- Key word m to KEYBUF (R79). -/
def storeKey (m : Nat) (w : Word) (s : State) : State :=
  { s with keybuf := putWord s.keybuf m w }

/-- Argument word of INIT: K0 to K7 first if a key is present, then B0 to B3 (R78). -/
def storeInitArg (kp : Bool) (w : Word) (s : State) : State :=
  if kp && decide (s.argi < 8) then storeKey s.argi w s
  else storeBlock (s.argi - 8 * kp.toNat) w s

/-- Argument word of SETBLK: B0 to B3 (R78). -/
def storeSetblkArg (w : Word) (s : State) : State :=
  storeBlock s.argi w s

/-- Argument word of XCRYPT: LEN, a plain 32-bit number (20_memory.md R57, 30_encoding.md R85), whatever EP is
(DEDUCED, log 13). -/
def storeLen (w : Word) (s : State) : State :=
  { s with len := w }

end Sys2Proof.Machine
end

