-- ==== Sys2Proof/Machine/Lifecycle.lean ====
section
/-! DEFINITION. INIT, SETBLK, TEARDOWN and GETBLK (44_lifecycle.md). -/

namespace Sys2Proof.Machine

/-! ## INIT -/

/-- The last lines of INIT, at one edge (R190, R195, R196, R197): CB, the cleared data path, the OK response. -/
def finishInit (dp : Bool) (s : State) : State :=
  respond .ok (clearPath { s with cb := if dp then s.blkbuf else zeroBlock })

/-- INIT once its argument words are in (R190, R191, R194): KX_ERR <- 0, then the EXPAND request, or, without a key, the
end of the command. -/
def startInit (kp dp : Bool) (s : State) : State :=
  if kp then { s with kxErr := false, fsm := .cphReq .expand }
  else finishInit dp (keyDropped { s with kxErr := false })

/-- INIT's EXPAND response edge (R193): the key state, and the rest of the command at the same edge. -/
def finishExpand (dp : Bool) (s : State) : State :=
  match cipherRsp s, s.inflight with
  | some r, some (.expand key) =>
    note (.cipherErr .expand r.err) (finishInit dp (keyExpanded r.err key { s with inflight := none }))
  | _, _ => s

/-- INIT (R190): its next edge. KEYBUF is zeroed at the edge of the EXPAND request (R192). DESIGN CHOICE (log 12), here and
in the other commands: in a control state that is none of its own it holds. -/
def execInit (kp dp : Bool) (s : State) : Host.Outcome State Fault Refusal :=
  match s.fsm with
  | .idle => .next (takeCommand (.init kp dp) (startInit kp dp) s)
  | .args => .next (takeArgument (storeInitArg kp) (startInit kp dp) s)
  | .cphReq .expand => .next (sendRequest (fun t => { t with keybuf := zeroKey }) s)
  | .cphRsp .expand => .next (finishExpand dp s)
  | .resp => .next (takeResponse s)
  | _ => .next s

/-! ## SETBLK -/

/-- SETBLK once its argument words are in (R205, R206, R207): all of CB is replaced, or INVALID_ARG. -/
def finishSetblk (ep dp : Bool) (s : State) : State :=
  if ep && dp then respond .ok { s with cb := s.blkbuf } else raise .invalidArg s

/-- SETBLK (R205): its next edge. -/
def execSetblk (ep dp : Bool) (s : State) : Host.Outcome State Fault Refusal :=
  match s.fsm with
  | .idle => .next (takeCommand (.setblk ep dp) (finishSetblk ep dp) s)
  | .args => .next (takeArgument storeSetblkArg (finishSetblk ep dp) s)
  | .resp => .next (takeResponse s)
  | _ => .next s

/-! ## TEARDOWN -/

/-- TEARDOWN once taken (R212, R213): the WIPE request whatever KEY_VALID is, or INVALID_ARG. -/
def startTeardown (ep : Bool) (s : State) : State :=
  if ep then { s with fsm := .cphReq .wipe } else raise .invalidArg s

/-- TEARDOWN's WIPE response edge (R214, R215): KEY_VALID <- 0 whatever the error bit, which the response reports. -/
def finishWipe (s : State) : State :=
  match cipherRsp s, s.inflight with
  | some r, some .wipe =>
    note (.cipherErr .wipe r.err)
      (if r.err then raise .wipeFailed (keyDropped { s with inflight := none })
       else respond .ok (keyDropped { s with inflight := none }))
  | _, _ => s

/-- TEARDOWN (R212): its next edge. -/
def execTeardown (ep : Bool) (s : State) : Host.Outcome State Fault Refusal :=
  match s.fsm with
  | .idle => .next (takeCommand (.teardown ep) (startTeardown ep) s)
  | .cphReq .wipe => .next (sendRequest id s)
  | .cphRsp .wipe => .next (finishWipe s)
  | .resp => .next (takeResponse s)
  | _ => .next s

/-! ## GETBLK -/

/-- GETBLK once taken (R225): the OK response, or INVALID_ARG with no read-back. -/
def finishGetblk (ep : Bool) (s : State) : State :=
  if ep then respond .ok s else raise .invalidArg s

/-- GETBLK (R225): its next edge. The four read-back words follow the response. -/
def execGetblk (ep : Bool) (s : State) : Host.Outcome State Fault Refusal :=
  match s.fsm with
  | .idle => .next (takeCommand (.getblk ep) (finishGetblk ep) s)
  | .resp => .next (takeResponse s)
  | .rdbk => .next (takeResponse s)
  | _ => .next s

end Sys2Proof.Machine
end

