-- ==== Sys2Proof/Machine/Counter.lean ====
section
/-! DEFINITION. INC, the increment of the counter field (41_counter_increment.md). -/

namespace Sys2Proof.Machine

/-- The loop of R100 from byte k = 12 + n down to byte 12: add 1 to byte k, and go on to the byte above it only when byte
k became 0x00. -/
def incFrom : Nat → Block → Block
  | 0, cb => setByte cb 12 (byteAt cb 12 + 1#8)
  | n + 1, cb =>
    if byteAt cb (13 + n) + 1#8 = 0#8 then incFrom n (setByte cb (13 + n) (byteAt cb (13 + n) + 1#8))
    else setByte cb (13 + n) (byteAt cb (13 + n) + 1#8)

/-- INC (R100): from the least significant byte, byte 15. -/
def inc (cb : Block) : Block :=
  incFrom 3 cb

end Sys2Proof.Machine
end

