-- ==== Sys2Proof/Machine/Keystream.lean ====
section
/-! DEFINITION. CLOCK, the keystream clock (42_keystream_clock.md). -/

namespace Sys2Proof.Machine

/-- The schedule the cipher uses, where the spec says which it is: KEY_VALID = 1 (R125). -/
def clockSched (s : State) : Option Sched :=
  if s.keyValid then s.sched else none

/-- `cph_rsp_data` at the answer to an ENC of x, where the collaborator would drive d (R125, R130): the bits of `E(SCHED, x)`
under a valid key, else d itself, any 128 bits: the free draw (log 10). DESIGN CHOICE (log 4): under a valid key the
collaborator keeps R126, so d is not looked at. -/
def answerBits (x : Block) (d : BitVec 128) (s : State) : BitVec 128 :=
  match clockSched s with
  | some k => blockBits (Config.encryptBlock k x)
  | none => d

/-- The keystream block r taken from those lines (R125, 30_encoding.md R70). -/
def keystreamBlock (x : Block) (d : BitVec 128) (s : State) : Block :=
  bitsBlock (answerBits x d s)

/-- CLOCK's request edge (R120, R122): all of CB goes out and INC happens at the same edge. -/
def clockRequest (s : State) : State :=
  sendRequest (fun t => { t with cb := inc t.cb }) s

/-- CLOCK's response edge with the error bit 0 (R120, R124): KS is loaded whole from the data lines and J <- 0. -/
def loadKeystream (x : Block) (d : BitVec 128) (s : State) : State :=
  note (.cipherBlock (keystreamBlock x d s))
    { s with ks := keystreamBlock x d s, j := 0#5, fsm := .xcByte, inflight := none }

/-- CLOCK's response edge. With the error bit 1 the collaborator is outside its contract and the run has no end state
(R127, 60_exceptions.md R248). -/
def clockResponse (s : State) : Host.Outcome State Fault Refusal :=
  match cipherRsp s, s.inflight with
  | some r, some (.enc x) => if r.err then .fault .cipherContract else .next (loadKeystream x r.data s)
  | _, _ => .next s

end Sys2Proof.Machine
end

