-- ==== Sys2Proof/Machine/Stream.lean ====
section
/-! DEFINITION. XCRYPT, the stream XOR (43_stream_xor.md). -/

namespace Sys2Proof.Machine

/-- The end-of-call step (R160). -/
def endCall (s : State) : State :=
  respond .ok (clearPath s)

/-- XCRYPT once its argument words are in (R150, R151, R152, R163): INVALID_ARG where an argument is absent; with LEN = 0
the call ends at once; else J <- 16, I <- 0 and the first CLOCK. DEDUCED (log 16): before the first data byte is taken. -/
def startCall (ep dp : Bool) (s : State) : State :=
  if ep && dp then
    if s.len = 0#32 then endCall s
    else { s with j := 16#5, i := 0#32, fsm := .cphReq .enc }
  else raise .invalidArg s

/-- The edge of the `DataIn` transfer (R155, R156): OUTB <- b ^ KS[J], KS[J] <- 0x00, J <- J + 1. -/
def xorByte (s : State) : State :=
  match dataIn s with
  | none => s
  | some b =>
    note (.dataIn b)
      { s with
        outb := b ^^^ byteAt s.ks s.j.toNat
        ks := setByte s.ks s.j.toNat 0#8
        j := s.j + 1#5
        fsm := .xcOut }

/-- The edge of the `DataOut` transfer (R157): I <- I + 1, then the next byte, a fresh CLOCK, or the end of the call. -/
def giveByte (s : State) : State :=
  match dataOut s with
  | none => s
  | some b =>
    if s.i + 1#32 = s.len then note (.dataOut b) (endCall s)
    else if s.j = 16#5 then note (.dataOut b) { s with i := s.i + 1#32, fsm := .cphReq .enc }
    else note (.dataOut b) { s with i := s.i + 1#32, fsm := .xcByte }

/-- XCRYPT (R150): its next edge. Nothing but a transfer changes state (60_exceptions.md R258). DESIGN CHOICE
(log 12): in a control state that is none of its own it holds. -/
def execXcrypt (ep dp : Bool) (s : State) : Host.Outcome State Fault Refusal :=
  match s.fsm with
  | .idle => .next (takeCommand (.xcrypt ep dp) (startCall ep dp) s)
  | .args => .next (takeArgument storeLen (startCall ep dp) s)
  | .cphReq .enc => .next (clockRequest s)
  | .cphRsp .enc => clockResponse s
  | .xcByte => .next (xorByte s)
  | .xcOut => .next (giveByte s)
  | .resp => .next (takeResponse s)
  | _ => .next s

end Sys2Proof.Machine
end

