-- ==== Sys2Proof/Machine/Dispatch.lean ====
section
/-! DEFINITION. The meaning of every command: the next edge of the command, taken or in progress. -/

namespace Sys2Proof.Machine

def exec (i : Instr) (s : State) : Host.Outcome State Fault Refusal :=
  match i with
  | .init kp dp => Sys2Proof.Machine.execInit kp dp s
  | .setblk ep dp => Sys2Proof.Machine.execSetblk ep dp s
  | .xcrypt ep dp => Sys2Proof.Machine.execXcrypt ep dp s
  | .teardown ep => Sys2Proof.Machine.execTeardown ep s
  | .getblk ep => Sys2Proof.Machine.execGetblk ep s

end Sys2Proof.Machine
end

