-- ==== Sys2Proof/Machine/Edge.lean ====
section
/-! DEFINITION. What one rising edge does around the command's own meaning: reset, the contracts of the other agents, which
command the edge belongs to, and the advance of the input ports. -/

namespace Sys2Proof.Machine

/-- Whether an offer owed from the last edge is withdrawn or changed (30_encoding.md R71). -/
def offerBroken {α : Type} [DecidableEq α] (held now : Option α) : Bool :=
  match held with
  | none => false
  | some x => now != some x

/-- An edge at which another agent breaks its contract (60_exceptions.md R248). DESIGN CHOICE (log 5): a broken offer is
named first where both happen at one edge; it is also named, and not `CipherContract`, where an ENC answer with the error
bit comes at that edge. DEDUCED (log 15): the collaborator's own offer is never owed. -/
def contractBreach (s : State) : Option Refusal :=
  if offerBroken s.heldCmd s.pins.cmd || offerBroken s.heldDin s.pins.din then some .portProtocol
  else if s.pins.cphRsp.isSome && s.inflight.isNone then some .unsolicitedResponse
  else none

/-- An edge with `rst_n = 0` (70_reset_and_hazards.md R270, R271): every state element takes its reset value, the request
in flight is abandoned. The traffic so far is the model's own record. DESIGN CHOICE (log 5): offers owed are forgotten. -/
def resetEdge (s : State) : State :=
  { State.reset with inputs := s.inputs.tail, traffic := s.traffic }

/-- The inputs move on to the next edge, and what the host still owes is recorded: an offer that was up at edge s and not
taken (R71). -/
def advance (s t : State) : State :=
  { t with
    inputs := s.inputs.tail
    heldCmd := if s.ports.cmdReady then none else s.pins.cmd
    heldDin := if s.ports.dinReady then none else s.pins.din }

/-- Fetch: which command the edge belongs to. In IDLE the word offered on `cmd_data` is decoded (30_encoding.md R76, R77);
in every other control state it is the command latched in CMD (10_state.md R36). -/
def work (s : State) : Work :=
  if s.fsm = .idle then
    match cmdIn s with
    | none => .wait
    | some w =>
      match decode w with
      | .ok i => .run i
      | .error _ => .illegal w
  else
    match cmdInstr s.cmd with
    | some i => .run i
    | none => .reply

/-- The next state of an outcome, changed by f. -/
def mapNext (f : State → State) : Host.Outcome State Fault Refusal → Host.Outcome State Fault Refusal
  | .next s => .next (f s)
  | .fault r => .fault r
  | .refused r => .refused r

/-- The input ports at an edge where the host offers this command or argument word. -/
def offerWord (w : Word) : PortIn :=
  { PortIn.quiet with cmd := some w }

/-- An engine waiting in IDLE at which the host offers these words, one an edge. -/
def offered (ws : List Word) (s : State) : State :=
  { s with fsm := .idle, inputs := ws.map offerWord, heldCmd := none, heldDin := none }

end Sys2Proof.Machine
end

