-- ==== Sys2Proof/Machine/Step.lean ====
section
/-! DEFINITION. One step of the machine: one rising edge of `clk` (30_encoding.md R70, R71). -/

namespace Sys2Proof.Machine

/-- What the engine does at an edge with `rst_n = 1`: the next edge of its command, an illegal word, the response of an
illegal word, or nothing. -/
def engineEdge (s : State) : Host.Outcome State Fault Refusal :=
  match work s with
  | .run i => exec i s
  | .illegal w => .next (illegalCommand w s)
  | .reply => .next (takeResponse s)
  | .wait => .next s

/-- One rising edge: reset first (70_reset_and_hazards.md R270), then the contracts of the other agents (60_exceptions.md
R248), then the engine; a wait is a next state (R249, log 19). DESIGN CHOICE (log 5): R248 gives no order among its
outcomes; here a broken host offer at the edge of an ENC answer with the error bit is `PortProtocol`, and the fault
`CipherContract`, raised by the engine's own edge, does not arise. -/
def step (s : State) : Host.Outcome State Fault Refusal :=
  if s.pins.rstN then
    match contractBreach s with
    | some r => .refused r
    | none => mapNext (advance s) (engineEdge s)
  else .next (resetEdge s)

/-- The engine waiting in IDLE while the host offers the words of the instruction whose bits are w: the command word at the
very next edge, the argument words it calls for after it. The command stream is the program (10_state.md R39); this stands
for the host's sending it (log 1). -/
def State.withFetchWord (s : State) (nbits w : Nat) : State :=
  offered (tableWords nbits w) s

end Sys2Proof.Machine
end

