-- ==== Sys2Proof/Safety.lean ====
section
/-! DEFINITION. The terms the claims use: runs and port traffic, the keystream of one call (43_stream_xor.md R159), the
invariants of the engine (10_state.md R42), a call in progress, an environment that answers at once
(95_test_vectors.md L2.10), and states that differ only in secrets (60_exceptions.md R253). -/

namespace Sys2Proof.Machine

/-! ## Runs and port traffic -/

/-- n edges, stopping at the first fault or refusal. -/
def run : Nat → State → Host.Outcome State Fault Refusal
  | 0, s => .next s
  | n + 1, s =>
    match step s with
    | .next t => run n t
    | .fault r => .fault r
    | .refused r => .refused r

/-- The data-in bytes of some traffic, in order. -/
def dataIns (tr : List Transfer) : List Byte :=
  tr.filterMap fun | .dataIn b => some b | _ => none

/-- The data-out bytes of some traffic, in order. -/
def dataOuts (tr : List Transfer) : List Byte :=
  tr.filterMap fun | .dataOut b => some b | _ => none

/-- The response and read-back words of some traffic, in order. -/
def rspOuts (tr : List Transfer) : List Word :=
  tr.filterMap fun | .rspOut w => some w | _ => none

/-- The collaborator requests of some traffic, in order. -/
def requests (tr : List Transfer) : List CphReq :=
  tr.filterMap fun | .cipherReq r => some r | _ => none

/-- The keystream blocks the collaborator gave in some traffic, in order. -/
def blocks (tr : List Transfer) : List Block :=
  tr.filterMap fun | .cipherBlock r => some r | _ => none

/-! ## The keystream of one call (R159) -/

/-- `ceil(n/16)`: the blocks of which n bytes use at least one byte. -/
def ceil16 (n : Nat) : Nat :=
  (n + 15) / 16

/-- `blk(m)`: the counter block m blocks after cb, its counter `(c + m) mod 2^32`. -/
def blkAt (cb : Block) (m : Nat) : Block :=
  withCtr cb (ctrOf cb + BitVec.ofNat 32 m)

/-- Data byte n XORed with byte `n mod 16` of block `n div 16`, for every byte (R155, R159). -/
def xorBlocks (f : Nat → Block) (data : List Byte) : List Byte :=
  data.mapIdx fun n b => b ^^^ byteAt (f (n / 16)) (n % 16)

/-- The keystream of a call that starts at block cb: `E(SCHED, blk(m))`. -/
def keystream (k : Sched) (cb : Block) (m : Nat) : Block :=
  Config.encryptBlock k (blkAt cb m)

/-- The data-out bytes of that call, for these data-in bytes. -/
def xorStream (k : Sched) (cb : Block) (data : List Byte) : List Byte :=
  xorBlocks (keystream k cb) data

/-! ## The edge of a command's last word -/

/-- The last word of command i is taken at this edge: its command word where it has no argument words (30_encoding.md
R78), else the last of them, the command standing in CMD. -/
def LastWord (s : State) (i : Instr) : Prop :=
  (s.fsm = .idle ∧ nargs i = 0 ∧ ∃ w, cmdIn s = some w ∧ decode w = .ok i) ∨
    (s.fsm = .args ∧ s.nargs ≤ 1 ∧ cmdInstr s.cmd = some i ∧ (cmdIn s).isSome)

/-- The answer r to an INIT's EXPAND request is taken at this edge (44_lifecycle.md R193). -/
def ExpandAnswered (s : State) (kp dp : Bool) (key : Key) (r : CphRsp) : Prop :=
  s.fsm = .cphRsp .expand ∧ cmdInstr s.cmd = some (.init kp dp) ∧ s.inflight = some (.expand key) ∧
    cipherRsp s = some r

/-! ## Invariants -/

/-- The request whose response a control state awaits. -/
def awaited : Fsm → Option CipherOp
  | .cphRsp op => some op
  | _ => none

/-- No keystream is buffered and no data byte is under way. -/
def resting (s : State) : Prop :=
  s.j = 16#5 ∧ s.i = 0#32

/-- CMD holds an INIT with a key. -/
def expandsKey (c : CmdReg) : Prop :=
  cmdInstr c = some (.init true true) ∨ cmdInstr c = some (.init true false)

/-- What each control state says of the command and of the data path. -/
def phase (s : State) : Prop :=
  match s.fsm with
  | .idle => resting s
  | .args =>
    resting s ∧
      match cmdInstr s.cmd with
      | some i => 0 < s.nargs ∧ s.nargs + s.argi = nargs i
      | none => False
  | .cphReq .expand => resting s ∧ expandsKey s.cmd
  | .cphRsp .expand => resting s ∧ expandsKey s.cmd
  | .cphReq .wipe => resting s ∧ cmdInstr s.cmd = some (.teardown true)
  | .cphRsp .wipe => resting s ∧ cmdInstr s.cmd = some (.teardown true)
  | .cphReq .enc => cmdInstr s.cmd = some (.xcrypt true true) ∧ s.j = 16#5 ∧ s.i.toNat < s.len.toNat
  | .cphRsp .enc => cmdInstr s.cmd = some (.xcrypt true true) ∧ s.j = 16#5 ∧ s.i.toNat < s.len.toNat
  | .xcByte => cmdInstr s.cmd = some (.xcrypt true true) ∧ s.j.toNat < 16 ∧ s.i.toNat < s.len.toNat
  | .xcOut => cmdInstr s.cmd = some (.xcrypt true true) ∧ 0 < s.j.toNat ∧ s.i.toNat < s.len.toNat
  | .resp => resting s ∧ (readsBack s = true → cmdInstr s.cmd = some (.getblk true))
  | .rdbk => resting s ∧ cmdInstr s.cmd = some (.getblk true) ∧ 1 ≤ s.rdbk ∧ s.rdbk ≤ 4

/-- The invariants of the engine: 10_state.md R42 (a) to (c), with what they rest on. -/
structure Inv (s : State) : Prop where
  /-- R42 (a). -/
  cursor : s.j.toNat ≤ 16
  /-- R42 (b). -/
  count : s.i.toNat ≤ s.len.toNat
  /-- 43_stream_xor.md R156: keystream bytes below the cursor are erased. -/
  erased : ∀ m, m < s.j.toNat → byteAt s.ks m = 0#8
  /-- R32: KEY_VALID says that SCHED is known. -/
  keyState : s.keyValid = s.sched.isSome
  /-- R37: a key stands in KEYBUF only until the collaborator has taken it. -/
  keyHeld : s.keybuf = zeroKey ∨ ((s.fsm = .args ∨ s.fsm = .cphReq .expand) ∧ expandsKey s.cmd)
  /-- R36: argument words are due in ARGS alone. That ARGI is 0 elsewhere is the model's reading (log 6). -/
  due : s.fsm ≠ .args → s.nargs = 0 ∧ s.argi = 0
  /-- 20_memory.md R63: RSP is empty outside RESP, in RDBK too by the model's reading (log 8): 30_encoding.md R83 writes
  RSP only on the way to IDLE. -/
  pending : s.fsm ≠ .resp → s.rsp = 0#32
  /-- R83: RDBK counts in RDBK alone. -/
  readBack : s.fsm ≠ .rdbk → s.rdbk = 0
  /-- 30_encoding.md R72: a request is in flight exactly while its response is awaited. -/
  flight : s.inflight.map CphReq.op = awaited s.fsm
  /-- What each control state says. -/
  phase : phase s

/-! ## A call in progress (R159), whatever the environment does -/

/-- The clocks a call has sent at data byte I. -/
def clocks (s : State) : Nat :=
  if s.fsm = .cphReq .enc then s.i.toNat / 16 else s.i.toNat / 16 + 1

/-- Block m of the keystream the collaborator gave in this traffic. -/
def given (tr : List Transfer) (m : Nat) : Block :=
  (blocks tr).getD m zeroBlock

/-- By control state: the data-in bytes and the keystream blocks taken so far, and what of the last block is buffered. -/
def callPhase (cb : Block) (tr : List Transfer) (s : State) : Prop :=
  match s.fsm with
  | .cphReq .enc =>
    (dataIns tr).length = s.i.toNat ∧ s.i.toNat % 16 = 0 ∧ s.j = 16#5 ∧ (blocks tr).length = s.i.toNat / 16
  | .cphRsp .enc =>
    (dataIns tr).length = s.i.toNat ∧ s.i.toNat % 16 = 0 ∧ s.j = 16#5 ∧ (blocks tr).length = s.i.toNat / 16 ∧
      s.inflight = some (.enc (blkAt cb (s.i.toNat / 16)))
  | .xcByte =>
    (dataIns tr).length = s.i.toNat ∧ s.j.toNat = s.i.toNat % 16 ∧ (blocks tr).length = s.i.toNat / 16 + 1 ∧
      ∀ m, s.j.toNat ≤ m → m < 16 → byteAt s.ks m = byteAt (given tr (s.i.toNat / 16)) m
  | .xcOut =>
    (dataIns tr).length = s.i.toNat + 1 ∧ s.j.toNat = s.i.toNat % 16 + 1 ∧ (blocks tr).length = s.i.toNat / 16 + 1 ∧
      (∀ b, (dataIns tr)[s.i.toNat]? = some b →
        s.outb = b ^^^ byteAt (given tr (s.i.toNat / 16)) (s.i.toNat % 16)) ∧
      ∀ m, s.j.toNat ≤ m → m < 16 → byteAt s.ks m = byteAt (given tr (s.i.toNat / 16)) m
  | _ => False

/-- A call of `len` bytes is under way, with or without a key: it began at counter block cb after the traffic `past`. -/
structure InCall (key : Option Sched) (cb : Block) (past : List Transfer) (len : Word) (s : State) : Prop where
  command : s.cmd = instrCmd (.xcrypt true true)
  keyState : s.sched = key ∧ s.keyValid = key.isSome
  length : s.len = len
  unfinished : s.i.toNat < s.len.toNat
  counter : s.cb = blkAt cb (clocks s)
  stream : ∃ tr, s.traffic = past ++ tr ∧ callPhase cb tr s ∧
    dataOuts tr = xorBlocks (given tr) ((dataIns tr).take s.i.toNat) ∧
    requests tr = ((List.range (clocks s)).map fun m => .enc (blkAt cb m)) ∧
    ∀ k, key = some k → blocks tr = (List.range (blocks tr).length).map (keystream k cb)

/-- That call has just ended (R159, R160, R164, 42_keystream_clock.md R129). -/
structure CallDone (key : Option Sched) (cb : Block) (past : List Transfer) (len : Word) (s : State) : Prop where
  answered : s.fsm = .resp ∧ s.rsp = responseWord .ok 3#4 key.isSome s.kxErr
  counter : s.cb = blkAt cb (ceil16 len.toNat)
  cleared : s.ks = zeroBlock ∧ s.j = 16#5 ∧ s.i = 0#32
  keyState : s.sched = key ∧ s.keyValid = key.isSome
  stream : ∃ tr, s.traffic = past ++ tr ∧ (dataIns tr).length = len.toNat ∧
    (blocks tr).length = ceil16 len.toNat ∧ dataOuts tr = xorBlocks (given tr) (dataIns tr) ∧
    requests tr = ((List.range (ceil16 len.toNat)).map fun m => .enc (blkAt cb m)) ∧
    ∀ k, key = some k → dataOuts tr = xorStream k cb (dataIns tr)

/-! ## An environment that answers at once (95_test_vectors.md L2.10) -/

/-- The host takes a response or read-back word. -/
def rspEdge : PortIn := { PortIn.quiet with rspReady := true }

/-- The host offers a data byte. -/
def dinEdge (b : Byte) : PortIn := { PortIn.quiet with din := some b }

/-- The host takes a data byte. -/
def doutEdge : PortIn := { PortIn.quiet with doutReady := true }

/-- The collaborator takes a request. -/
def reqEdge : PortIn := { PortIn.quiet with cphReqReady := true }

/-- The collaborator answers, with this error bit and these data lines. -/
def ansEdge (err : Bool) (data : BitVec 128) : PortIn := { PortIn.quiet with cphRsp := some { err := err, data := data } }

/-- The edges that move the data bytes of a call from byte n on: a clock at each multiple of 16, answered with the data
lines `draws (n div 16)`, then the byte in and out. -/
def byteEdges (draws : Nat → BitVec 128) : Nat → List Byte → List PortIn
  | _, [] => []
  | n, b :: bs =>
    (if n % 16 = 0 then [reqEdge, ansEdge false (draws (n / 16))] else []) ++
      dinEdge b :: doutEdge :: byteEdges draws (n + 1) bs

/-- The edges of one whole command, up to the transfer of its response: its words, the collaborator's answers (error bit
`err` to an EXPAND or WIPE; data lines `draws m` on answer m), the data bytes of an XCRYPT, the response, and the read-back
words of a GETBLK. -/
def promptEdges (c : Command) (data : List Byte) (err : Bool) (draws : Nat → BitVec 128) : List PortIn :=
  (assemble c).map offerWord ++
    (match c with
      | .init (some _) _ => [reqEdge, ansEdge err (draws 0), rspEdge]
      | .init none _ => [rspEdge]
      | .setblk _ _ => [rspEdge]
      | .xcrypt true (some _) => byteEdges draws 0 data ++ [rspEdge]
      | .xcrypt _ _ => [rspEdge]
      | .teardown true => [reqEdge, ansEdge err (draws 0), rspEdge]
      | .teardown false => [rspEdge]
      | .getblk true => [rspEdge, rspEdge, rspEdge, rspEdge, rspEdge]
      | .getblk false => [rspEdge])

/-- XCRYPT with engine and buffer present, for these data bytes. -/
def xcryptOf (data : List Byte) : Command :=
  .xcrypt true (some (BitVec.ofNat 32 data.length))

/-- The engine waits for a command word and the host owes no offer. -/
structure Ready (s : State) : Prop where
  inv : Inv s
  idle : s.fsm = .idle
  noWord : s.heldCmd = none
  noByte : s.heldDin = none

/-! ## States that differ only in secrets (R253) -/

/-- A request without its key. -/
def publicReq : CphReq → CphReq
  | .expand _ => .expand zeroKey
  | .enc b => .enc b
  | .wipe => .wipe

/-- A transfer without key, keystream or data-out byte. -/
def publicTransfer : Transfer → Transfer
  | .cipherReq r => .cipherReq (publicReq r)
  | .cipherBlock _ => .cipherBlock zeroBlock
  | .dataOut _ => .dataOut 0#8
  | .cmdIn w => .cmdIn w
  | .rspOut w => .rspOut w
  | .dataIn b => .dataIn b
  | .cipherErr op e => .cipherErr op e

/-- The input ports without the keystream on `cph_rsp_data`. -/
def publicPins (p : PortIn) : PortIn :=
  { p with cphRsp := p.cphRsp.map fun r => { r with data := 0#128 } }

/-- The two states agree on everything but KS, SCHED's contents, KEYBUF, OUTB, a key in flight, the collaborator's data
lines at the edges to come, and the keys, keystream blocks and data-out bytes of the traffic. -/
structure SameButSecrets (s t : State) : Prop where
  cb : s.cb = t.cb
  j : s.j = t.j
  known : s.sched.isSome = t.sched.isSome
  keyValid : s.keyValid = t.keyValid
  kxErr : s.kxErr = t.kxErr
  fsm : s.fsm = t.fsm
  cmd : s.cmd = t.cmd
  nargs : s.nargs = t.nargs
  argi : s.argi = t.argi
  blkbuf : s.blkbuf = t.blkbuf
  len : s.len = t.len
  i : s.i = t.i
  rsp : s.rsp = t.rsp
  rdbk : s.rdbk = t.rdbk
  inflight : s.inflight.map publicReq = t.inflight.map publicReq
  inputs : s.inputs.map publicPins = t.inputs.map publicPins
  heldCmd : s.heldCmd = t.heldCmd
  heldDin : s.heldDin = t.heldDin
  traffic : s.traffic.map publicTransfer = t.traffic.map publicTransfer

/-- Two outcomes alike but for secrets. -/
def SameOutcome : Host.Outcome State Fault Refusal → Host.Outcome State Fault Refusal → Prop
  | .next s, .next t => SameButSecrets s t
  | .fault a, .fault b => a = b
  | .refused a, .refused b => a = b
  | _, _ => False

end Sys2Proof.Machine
end

