-- ==== Sys2Proof/Certificates/Slice0/Obligations.lean ====
section
/-! DEFINITION. The statements about the CTR engine, for the provers. Each docstring names the rule of spec/ it
formalises; a statement that rests on a choice of the model says so. -/

open Sys2Proof
open Sys2Proof.Machine

/-! ## Encoding (30_encoding.md) -/

/-- R78, R79, R87: a command with its arguments, written to the word stream and read back, is that command, and what follows
it in the stream is left for the next command. -/
def Obligations.CommandStreamRoundTrip : Prop :=
  ∀ (c : Command) (rest : List Word), parseCommand (assemble c ++ rest) = some (c, rest)

/-- R73, R75: the decoder gives an instruction exactly on that instruction's own word. -/
def Obligations.DecodeInvertsEncode : Prop :=
  ∀ (w : Word) (i : Instr), decode w = .ok i ↔ encode i = w

/-- R76: a word is legal exactly when OP is 0x1 to 0x5, bits [31:7] are 0 and every "must be 0" bit is 0. -/
def Obligations.LegalWordsExactly : Prop :=
  ∀ w : Word,
    (∃ i, decode w = .ok i) ↔
      let op := (w.extractLsb' 0 4).toNat
      1 ≤ op ∧ op ≤ 5 ∧ w.extractLsb' 7 25 = 0#25 ∧
        (op = 1 → w.getLsbD 4 = false) ∧
        (op = 4 ∨ op = 5 → w.getLsbD 5 = false) ∧
        (op = 2 ∨ op = 3 ∨ op = 4 ∨ op = 5 → w.getLsbD 6 = false)

/-- opcode_table.json: the decoder gives an instruction of a row exactly on the words that fit the row's mask and match. -/
def Obligations.OpcodeTableAgrees : Prop :=
  ∀ (w : Word) (i : Instr),
    w &&& rowMask i = rowMatch i ↔ ∃ k, decode w = .ok k ∧ rowMatch k = rowMatch i

/-- R87: the length of a command follows from its first word: 1 word for an illegal word, TEARDOWN or GETBLK; 1 + DP for
XCRYPT; 1 + 4 DP for SETBLK; 1 + 8 KP + 4 DP for INIT. -/
def Obligations.CommandLengthFromFirstWord : Prop :=
  (∀ (w : Word) (e : Reject), decode w = .error e → commandLength w = 1) ∧
  (∀ (w : Word) (i : Instr), decode w = .ok i →
    commandLength w = match i with
      | .init kp dp => 1 + 8 * kp.toNat + 4 * dp.toNat
      | .setblk _ dp => 1 + 4 * dp.toNat
      | .xcrypt _ dp => 1 + dp.toNat
      | .teardown _ => 1
      | .getblk _ => 1) ∧
  ∀ c : Command, (assemble c).length = commandLength (encode c.instr)

/-- R90: the spec's example words. -/
def Obligations.SpecWordsDecode : Prop :=
  decode 0x00000061#32 = .ok (.init true true) ∧ decode 0x00000021#32 = .ok (.init false true) ∧
  decode 0x00000041#32 = .ok (.init true false) ∧ decode 0x00000001#32 = .ok (.init false false) ∧
  decode 0x00000032#32 = .ok (.setblk true true) ∧ decode 0x00000022#32 = .ok (.setblk false true) ∧
  decode 0x00000012#32 = .ok (.setblk true false) ∧ decode 0x00000033#32 = .ok (.xcrypt true true) ∧
  decode 0x00000013#32 = .ok (.xcrypt true false) ∧ decode 0x00000014#32 = .ok (.teardown true) ∧
  decode 0x00000015#32 = .ok (.getblk true) ∧ decode 0x00000011#32 = .error .epMustBeZero

/-- R89: ENCRYPT and DECRYPT assemble to one and the same XCRYPT, word 0x00000033 then the length; the short forms name a
present engine. -/
def Obligations.AliasesAssembleAlike : Prop :=
  (∀ len : Word, (AsmLine.encrypt len).words = [0x00000033#32, len] ∧
    (AsmLine.decrypt len).words = [0x00000033#32, len]) ∧
  (∀ (ep : Bool) (len : Option Word),
    (AsmLine.encryptOperands ep len).words = assemble (.xcrypt ep len) ∧
    (AsmLine.decryptOperands ep len).words = assemble (.xcrypt ep len)) ∧
  (∀ b : Block, (AsmLine.setblkShort b).words = assemble (.setblk true (some b))) ∧
  AsmLine.teardownShort.words = assemble (.teardown true) ∧
  AsmLine.getblkShort.words = assemble (.getblk true)

/-- 20_memory.md R56: bytes are packed into a word most significant byte first; writing word m of a byte string sets bytes
4m to 4m+3 and no other, and word 3 of the counter block is CB.ctr, the number be32 of bytes 12 to 15. -/
def Obligations.WordPacking : Prop :=
  (∀ (n : Nat) (b : Vector Byte n) (m : Nat) (w : Word), 4 * m + 4 ≤ n →
    getWord (putWord b m w) m = w ∧
    (∀ k, k < 4 → byteAt (putWord b m w) (4 * m + k) = w.extractLsb' (24 - 8 * k) 8) ∧
    ∀ x, x < 4 * m ∨ 4 * m + 4 ≤ x → byteAt (putWord b m w) x = byteAt b x) ∧
  (∀ (n : Nat) (b : Vector Byte n) (m k : Nat), k < 4 →
    (getWord b m).extractLsb' (24 - 8 * k) 8 = byteAt b (4 * m + k)) ∧
  ∀ cb : Block, getWord cb 3 = ctrOf cb ∧
    (ctrOf cb).toNat = (byteAt cb 12).toNat * 2 ^ 24 + (byteAt cb 13).toNat * 2 ^ 16 + (byteAt cb 14).toNat * 2 ^ 8 +
      (byteAt cb 15).toNat

/-! ## The counter (41_counter_increment.md) -/

/-- R101, R102: INC is a 32-bit unsigned add of 1 with the carry out of bit 31 discarded, and writes nothing outside bytes
12 to 15. -/
def Obligations.IncIsThirtyTwoBitAdd : Prop :=
  ∀ cb : Block,
    inc cb = withCtr cb (ctrOf cb + 1#32) ∧ ctrOf (inc cb) = ctrOf cb + 1#32 ∧
      ∀ m, m < 12 → byteAt (inc cb) m = byteAt cb m

/-- R103 (e): after n increments the counter is `(c + n) mod 2^32`; after 2^32 the counter block is back. -/
def Obligations.IncRepeated : Prop :=
  (∀ (n : Nat) (cb : Block),
    (ctrOf (inc^[n] cb)).toNat = ((ctrOf cb).toNat + n) % 2 ^ 32 ∧
      ∀ m, m < 12 → byteAt (inc^[n] cb) m = byteAt cb m) ∧
  ∀ cb : Block, inc^[2 ^ 32] cb = cb

/-- R105: 0xFFFFFFFF yields 0x00000000 and does not alter nonce and IV; 0x000000FF yields 0x00000100. -/
def Obligations.IncSourceExamples : Prop :=
  ∀ cb : Block,
    (ctrOf cb = 0xFFFFFFFF#32 →
      ctrOf (inc cb) = 0x00000000#32 ∧ ∀ m, m < 12 → byteAt (inc cb) m = byteAt cb m) ∧
    (ctrOf cb = 0x000000FF#32 → ctrOf (inc cb) = 0x00000100#32)

/-! ## Words and ports (30_encoding.md) -/

/-- R80, R91: the fields of a response word, ERR = 1 exactly when CODE is not 0, CODE never above 3, and the spec's example
responses. -/
def Obligations.ResponseWordLayout : Prop :=
  (∀ (c : Code) (op : BitVec 4) (kv kx : Bool),
    let w := responseWord c op kv kx
    w.getLsbD 0 = (c != .ok) ∧
      (w.extractLsb' 1 3).toNat = (match c with | .ok => 0 | .invalidArg => 1 | .illegalCmd => 2 | .wipeFailed => 3) ∧
      w.extractLsb' 4 4 = op ∧ w.getLsbD 8 = kv ∧ w.getLsbD 9 = kx ∧ w.extractLsb' 10 22 = 0#22) ∧
  responseWord .ok 1#4 true false = 0x00000110#32 ∧ responseWord .ok 3#4 true false = 0x00000130#32 ∧
  responseWord .invalidArg 2#4 true false = 0x00000123#32 ∧
  responseWord .illegalCmd 0xF#4 true false = 0x000001F5#32 ∧
  responseWord .ok 4#4 false false = 0x00000040#32 ∧ responseWord .wipeFailed 4#4 false false = 0x00000047#32

/-- R84, 43_stream_xor.md R154, 42_keystream_clock.md R132: in which control states each port is ready or offers. That
"only in" is "exactly in" is the model's reading (log 7). -/
def Obligations.PortsReadyByState : Prop :=
  ∀ s : State, s.pins.rstN = true →
    (s.ports.cmdReady = true ↔ s.fsm = .idle ∨ s.fsm = .args) ∧
    (s.ports.dinReady = true ↔ s.fsm = .xcByte) ∧
    (s.ports.dout.isSome = true ↔ s.fsm = .xcOut) ∧
    (s.ports.rsp.isSome = true ↔ s.fsm = .resp ∨ s.fsm = .rdbk) ∧
    (s.ports.cphReq.isSome = true ↔ ∃ op, s.fsm = .cphReq op) ∧
    (s.ports.cphRspReady = true ↔ ∃ op, s.fsm = .cphRsp op)

/-- R70: the operation code and the 256 data bits of each collaborator request; code 3 is never driven; and the keystream
bytes on the 128 data bits of an answer. -/
def Obligations.CollaboratorPortWords : Prop :=
  (∀ (key : Key) (k : Nat), k < 32 → (reqData (.expand key)).extractLsb' (248 - 8 * k) 8 = byteAt key k) ∧
  (∀ (b : Block) (k : Nat), k < 16 → (reqData (.enc b)).extractLsb' (120 - 8 * k) 8 = byteAt b k) ∧
  (∀ b : Block, (reqData (.enc b)).extractLsb' 128 128 = 0#128) ∧
  (∀ (d : BitVec 128) (k : Nat), k < 16 → byteAt (bitsBlock d) k = d.extractLsb' (120 - 8 * k) 8) ∧
  reqData .wipe = 0#256 ∧
  opCode .expand = 0#2 ∧ opCode .enc = 1#2 ∧ opCode .wipe = 2#2

/-! ## Reset and the step (10_state.md, 70_reset_and_hazards.md, 60_exceptions.md) -/

/-- 10_state.md R45: the reset values. -/
def Obligations.ResetValues : Prop :=
  (∀ m, m < 16 → byteAt State.reset.cb m = 0#8) ∧ (∀ m, m < 16 → byteAt State.reset.ks m = 0#8) ∧
  State.reset.j = 16#5 ∧ State.reset.sched = none ∧ State.reset.keyValid = false ∧ State.reset.kxErr = false ∧
  State.reset.fsm = .idle ∧ State.reset.cmd = { op := 0#4, ep := false, dp := false, kp := false } ∧
  State.reset.nargs = 0 ∧ State.reset.argi = 0 ∧ State.reset.len = 0#32 ∧ State.reset.i = 0#32 ∧
  State.reset.outb = 0#8 ∧ State.reset.rsp = 0#32 ∧ State.reset.rdbk = 0 ∧
  (∀ m, m < 32 → byteAt State.reset.keybuf m = 0#8) ∧ (∀ m, m < 16 → byteAt State.reset.blkbuf m = 0#8) ∧
  State.reset.inflight = none

/-- 70_reset_and_hazards.md R270: at an edge with `rst_n = 0` every state element takes its reset value whatever FSM was,
nothing is ready or offered and nothing transferred, and the next edge with `rst_n = 1` finds `cmd_ready = 1`. The fields
set aside on the left are the model's own. -/
def Obligations.ResetEdgeTakesResetValues : Prop :=
  ∀ s : State, s.pins.rstN = false →
    (s.ports.cmdReady = false ∧ s.ports.rsp = none ∧ s.ports.dinReady = false ∧ s.ports.dout = none ∧
      s.ports.cphReq = none ∧ s.ports.cphRspReady = false) ∧
    ∃ t, step s = .next t ∧
      { t with inputs := [], heldCmd := none, heldDin := none, traffic := [] } = State.reset ∧
      t.traffic = s.traffic ∧ (t.pins.rstN = true → t.ports.cmdReady = true)

/-- R76, R77 and 10_state.md R39: in IDLE a legal word on `cmd_data` makes the step that command's own edge; around it the
inputs move on, the word is no longer owed, and a data byte offered early stays owed. -/
def Obligations.StepRunsDecodedCommand : Prop :=
  ∀ (s : State) (w : Word) (i : Instr), s.pins.rstN = true → contractBreach s = none → s.fsm = .idle →
    s.pins.cmd = some w → decode w = .ok i →
    ∃ t, exec i s = .next t ∧
      step s = .next { t with inputs := s.inputs.tail, heldCmd := none, heldDin := s.pins.din }

/-- 10_state.md R35, R36: in every other control state the step is the next edge of the command latched in CMD. -/
def Obligations.StepContinuesLatchedCommand : Prop :=
  ∀ (s : State) (i : Instr), s.pins.rstN = true → contractBreach s = none → s.fsm ≠ .idle →
    cmdInstr s.cmd = some i →
    (∀ t, exec i s = .next t →
      step s = .next
        { t with
          inputs := s.inputs.tail
          heldCmd := if s.fsm = .args then none else s.pins.cmd
          heldDin := if s.fsm = .xcByte then none else s.pins.din }) ∧
    ∀ r, exec i s = .fault r → step s = .fault r

/-- 60_exceptions.md R258: nothing but reset changes state without a transfer. -/
def Obligations.NothingMovesWithoutTransfer : Prop :=
  ∀ s t : State, s.pins.rstN = true → step s = .next t →
    cmdIn s = none → rspOut s = none → dataIn s = none → dataOut s = none → cipherReq s = none →
    cipherRsp s = none →
    t = { s with inputs := s.inputs.tail, heldCmd := s.pins.cmd, heldDin := s.pins.din }

/-- 10_state.md R35, 20_memory.md R62: each control state names one primitive, so one edge moves at most one word, byte,
request or answer. -/
def Obligations.OneTransferPerEdge : Prop :=
  ∀ s t : State, step s = .next t → t.traffic = s.traffic ∨ ∃ x, t.traffic = s.traffic ++ [x]

/-- 30_encoding.md R71: "The engine keeps this rule on every port it drives": what it offers and the other side does not
take, it still offers, unchanged, at the next edge. -/
def Obligations.EngineHoldsItsOffers : Prop :=
  ∀ s t : State, s.pins.rstN = true → t.pins.rstN = true → step s = .next t →
    (∀ w, s.ports.rsp = some w → rspOut s = none → t.ports.rsp = some w) ∧
    (∀ b, s.ports.dout = some b → dataOut s = none → t.ports.dout = some b) ∧
    ∀ r, s.ports.cphReq = some r → cipherReq s = none → t.ports.cphReq = some r

/-- 60_exceptions.md R248: where another agent breaks its contract the run stops, with the spec's own name: CipherContract
on an ENC answer with the error bit, PortProtocol on an offer withdrawn or changed, UnsolicitedResponse on an answer with no
request in flight. The second clause takes in an ENC answer with the error bit at the same edge: that PortProtocol is named
there is the model's choice (log 5). -/
def Obligations.ContractBreachesStop : Prop :=
  (∀ (s : State) (x : Block) (d : BitVec 128), s.pins.rstN = true → contractBreach s = none → s.fsm = .cphRsp .enc →
    cmdInstr s.cmd = some (.xcrypt true true) → s.inflight = some (.enc x) →
    s.pins.cphRsp = some { err := true, data := d } → step s = .fault .cipherContract) ∧
  (∀ s : State, s.pins.rstN = true → (s.pins.cphRsp = none ∨ s.inflight ≠ none) →
    ((∃ w, s.heldCmd = some w ∧ s.pins.cmd ≠ some w) ∨ ∃ b, s.heldDin = some b ∧ s.pins.din ≠ some b) →
    step s = .refused .portProtocol) ∧
  ∀ s : State, s.pins.rstN = true → (∀ w, s.heldCmd = some w → s.pins.cmd = some w) →
    (∀ b, s.heldDin = some b → s.pins.din = some b) → s.pins.cphRsp ≠ none → s.inflight = none →
    step s = .refused .unsolicitedResponse

/-- 30_encoding.md R77, 60_exceptions.md R241: an illegal command word is taken and answered with ILLEGAL_CMD, and changes
nothing but FSM, CMD and RSP. That CMD keeps OP and no presence bit is the model's reading (log 9). -/
def Obligations.IllegalWordAnswered : Prop :=
  ∀ (s : State) (w : Word) (e : Reject), s.pins.rstN = true → contractBreach s = none → s.fsm = .idle →
    s.pins.cmd = some w → decode w = .error e →
    step s = .next
      { s with
        cmd := { op := w.extractLsb' 0 4, ep := false, dp := false, kp := false }
        rsp := responseWord .illegalCmd (w.extractLsb' 0 4) s.keyValid s.kxErr
        fsm := .resp
        inputs := s.inputs.tail
        heldCmd := none
        heldDin := s.pins.din
        traffic := s.traffic ++ [.cmdIn w] }

/-! ## Taking a command and its argument words -/

/-- 30_encoding.md R78: a command with argument words latches its fields, waits for exactly NARGS words and does nothing
else before it has them. -/
def Obligations.CommandWaitsForArguments : Prop :=
  ∀ (i : Instr) (s : State) (w : Word), s.fsm = .idle → cmdIn s = some w → 0 < nargs i →
    exec i s = .next
      { s with
        cmd := { op := i.fields.op, ep := i.fields.ep, dp := i.fields.dp, kp := i.fields.kp }
        nargs := nargs i
        argi := 0
        fsm := .args
        traffic := s.traffic ++ [.cmdIn w] }

/-- 30_encoding.md R79: an argument word before the last goes to its place in KEYBUF or BLKBUF and nowhere else: key words
first, then block words. -/
def Obligations.ArgumentWordStored : Prop :=
  ∀ (s : State) (w : Word), s.fsm = .args → cmdIn s = some w → 1 < s.nargs →
    (∀ kp dp, exec (.init kp dp) s = .next
      { s with
        keybuf := if kp = true ∧ s.argi < 8 then putWord s.keybuf s.argi w else s.keybuf
        blkbuf := if kp = true then (if s.argi < 8 then s.blkbuf else putWord s.blkbuf (s.argi - 8) w)
          else putWord s.blkbuf s.argi w
        nargs := s.nargs - 1
        argi := s.argi + 1
        traffic := s.traffic ++ [.cmdIn w] }) ∧
    ∀ ep dp, exec (.setblk ep dp) s = .next
      { s with
        blkbuf := putWord s.blkbuf s.argi w
        nargs := s.nargs - 1
        argi := s.argi + 1
        traffic := s.traffic ++ [.cmdIn w] }

/-! ## INIT (44_lifecycle.md) -/

/-- R194, R191, R195 to R197: INIT without a key completes at its last word (the command word, or the last block word),
with no collaborator request. That the last word's own edge is meant is the model's reading (log 6). -/
def Obligations.InitWithoutKeyCompletes : Prop :=
  (∀ (s : State) (w : Word), s.fsm = .idle → cmdIn s = some w →
    exec (.init false false) s = .next
      { s with
        cmd := { op := 1#4, ep := false, dp := false, kp := false }
        kxErr := false
        keyValid := false
        sched := none
        cb := zeroBlock
        ks := zeroBlock
        j := 16#5
        i := 0#32
        rsp := 0x00000010#32
        fsm := .resp
        traffic := s.traffic ++ [.cmdIn w] }) ∧
  ∀ (s : State) (w : Word), s.fsm = .args → cmdIn s = some w → s.nargs ≤ 1 → s.cmd.op = 1#4 →
    exec (.init false true) s = .next
      { s with
        blkbuf := putWord s.blkbuf s.argi w
        nargs := 0
        argi := 0
        kxErr := false
        keyValid := false
        sched := none
        cb := putWord s.blkbuf s.argi w
        ks := zeroBlock
        j := 16#5
        i := 0#32
        rsp := 0x00000010#32
        fsm := .resp
        traffic := s.traffic ++ [.cmdIn w] }

/-- R190, R191: with a key, the last argument word clears KX_ERR and the EXPAND request is offered; KEY_VALID, SCHED and CB
are left until the answer. That the last word's own edge is meant is the model's reading (log 6). -/
def Obligations.InitAsksForExpansion : Prop :=
  ∀ (s : State) (w : Word), s.fsm = .args → cmdIn s = some w → s.nargs ≤ 1 →
    (exec (.init true false) s = .next
      { s with
        keybuf := if s.argi < 8 then putWord s.keybuf s.argi w else s.keybuf
        blkbuf := if s.argi < 8 then s.blkbuf else putWord s.blkbuf (s.argi - 8) w
        nargs := 0
        argi := 0
        kxErr := false
        fsm := .cphReq .expand
        traffic := s.traffic ++ [.cmdIn w] }) ∧
    exec (.init true true) s = exec (.init true false) s

/-- R192, 10_state.md R37: INIT sends the 32 key bytes as one EXPAND request and zeroes KEYBUF at the edge of that
request's transfer. -/
def Obligations.InitHandsKeyOver : Prop :=
  ∀ (kp dp : Bool) (s : State), s.pins.rstN = true → s.fsm = .cphReq .expand → s.pins.cphReqReady = true →
    exec (.init kp dp) s = .next
      { s with
        keybuf := zeroKey
        inflight := some (.expand s.keybuf)
        fsm := .cphRsp .expand
        traffic := s.traffic ++ [.cipherReq (.expand s.keybuf)] }

/-- R193, R195, R196, R197: the EXPAND answer decides the key state, and the INIT completes at the same edge with an OK
response whatever the error bit. -/
def Obligations.InitExpansionDecides : Prop :=
  ∀ (kp dp : Bool) (s : State) (key : Key) (d : BitVec 128), s.pins.rstN = true → s.fsm = .cphRsp .expand →
    s.inflight = some (.expand key) →
    (s.pins.cphRsp = some { err := false, data := d } →
      exec (.init kp dp) s = .next
        { s with
          keyValid := true
          sched := some (Config.expandKey key)
          cb := if dp then s.blkbuf else zeroBlock
          ks := zeroBlock
          j := 16#5
          i := 0#32
          inflight := none
          rsp := responseWord .ok s.cmd.op true s.kxErr
          fsm := .resp
          traffic := s.traffic ++ [.cipherErr .expand false] }) ∧
    (s.pins.cphRsp = some { err := true, data := d } →
      exec (.init kp dp) s = .next
        { s with
          keyValid := false
          kxErr := true
          sched := none
          cb := if dp then s.blkbuf else zeroBlock
          ks := zeroBlock
          j := 16#5
          i := 0#32
          inflight := none
          rsp := responseWord .ok s.cmd.op false true
          fsm := .resp
          traffic := s.traffic ++ [.cipherErr .expand true] })

/-! ## SETBLK (44_lifecycle.md) -/

/-- R206: a successful SETBLK overwrites all 16 bytes of CB at one edge and leaves SCHED, KEY_VALID, KX_ERR, KS and J. That
this edge is the last argument word's own is the model's reading (log 6). -/
def Obligations.SetblkReplacesBlock : Prop :=
  ∀ (s : State) (w : Word), s.fsm = .args → cmdIn s = some w → s.nargs ≤ 1 →
    exec (.setblk true true) s = .next
      { s with
        blkbuf := putWord s.blkbuf s.argi w
        cb := putWord s.blkbuf s.argi w
        nargs := 0
        argi := 0
        rsp := responseWord .ok s.cmd.op s.keyValid s.kxErr
        fsm := .resp
        traffic := s.traffic ++ [.cmdIn w] }

/-- R207: a SETBLK with EP = 0 or DP = 0 fails with INVALID_ARG after taking its argument words and leaves CB and every
other state element unchanged, except FSM, CMD, BLKBUF and RSP. That the last argument word's own edge is meant is the
model's reading (log 6). -/
def Obligations.SetblkAbsentArgumentFails : Prop :=
  (∀ (ep : Bool) (s : State) (w : Word), s.fsm = .idle → cmdIn s = some w →
    exec (.setblk ep false) s = .next
      { s with
        cmd := { op := 2#4, ep := ep, dp := false, kp := false }
        rsp := responseWord .invalidArg 2#4 s.keyValid s.kxErr
        fsm := .resp
        traffic := s.traffic ++ [.cmdIn w] }) ∧
  ∀ (s : State) (w : Word), s.fsm = .args → cmdIn s = some w → s.nargs ≤ 1 →
    exec (.setblk false true) s = .next
      { s with
        blkbuf := putWord s.blkbuf s.argi w
        nargs := 0
        argi := 0
        rsp := responseWord .invalidArg s.cmd.op s.keyValid s.kxErr
        fsm := .resp
        traffic := s.traffic ++ [.cmdIn w] }

/-! ## XCRYPT and its clock (42_keystream_clock.md, 43_stream_xor.md) -/

/-- R152: an XCRYPT with EP = DP = 1 and LEN > 0 sets J to 16 before its first byte and goes to a fresh clock. That this
happens at the LEN word's own edge is the model's reading (log 6). -/
def Obligations.XcryptStartsAtBlockBoundary : Prop :=
  ∀ (s : State) (w : Word), s.fsm = .args → cmdIn s = some w → s.nargs ≤ 1 → w ≠ 0#32 →
    exec (.xcrypt true true) s = .next
      { s with
        len := w
        nargs := 0
        argi := 0
        j := 16#5
        i := 0#32
        fsm := .cphReq .enc
        traffic := s.traffic ++ [.cmdIn w] }

/-- R163, R160: with LEN = 0 the call succeeds at the transfer of the LEN word, with no clock, CB unchanged and no data
byte moved. That ARGI is back at 0 then is the model's reading (log 6). -/
def Obligations.XcryptEmptyBufferSucceeds : Prop :=
  ∀ s : State, s.fsm = .args → cmdIn s = some 0#32 → s.nargs ≤ 1 →
    exec (.xcrypt true true) s = .next
      { s with
        len := 0#32
        nargs := 0
        argi := 0
        ks := zeroBlock
        j := 16#5
        i := 0#32
        rsp := responseWord .ok s.cmd.op s.keyValid s.kxErr
        fsm := .resp
        traffic := s.traffic ++ [.cmdIn 0#32] }

/-- R151: with EP = 0 or DP = 0 XCRYPT ends with INVALID_ARG right after its argument words, and changes none of CB, KS, J,
SCHED, KEY_VALID and KX_ERR; no data byte moves. That "right after" is the last word's own edge is the model's reading
(log 6), and so is that LEN keeps the value just taken, which R151 calls discarded (log 13). -/
def Obligations.XcryptAbsentArgumentFails : Prop :=
  (∀ (ep : Bool) (s : State) (w : Word), s.fsm = .idle → cmdIn s = some w →
    exec (.xcrypt ep false) s = .next
      { s with
        cmd := { op := 3#4, ep := ep, dp := false, kp := false }
        rsp := responseWord .invalidArg 3#4 s.keyValid s.kxErr
        fsm := .resp
        traffic := s.traffic ++ [.cmdIn w] }) ∧
  ∀ (s : State) (w : Word), s.fsm = .args → cmdIn s = some w → s.nargs ≤ 1 →
    exec (.xcrypt false true) s = .next
      { s with
        len := w
        nargs := 0
        argi := 0
        rsp := responseWord .invalidArg s.cmd.op s.keyValid s.kxErr
        fsm := .resp
        traffic := s.traffic ++ [.cmdIn w] }

/-- R122, R123: at the edge of the ENC request the counter is advanced, and the block sent is all of CB as it stood before
that edge. -/
def Obligations.ClockSendsCounterBlock : Prop :=
  ∀ (ep dp : Bool) (s : State), s.pins.rstN = true → s.fsm = .cphReq .enc → s.pins.cphReqReady = true →
    exec (.xcrypt ep dp) s = .next
      { s with
        cb := withCtr s.cb (ctrOf s.cb + 1#32)
        inflight := some (.enc s.cb)
        fsm := .cphRsp .enc
        traffic := s.traffic ++ [.cipherReq (.enc s.cb)] }

/-- R125, R120: the keystream block loaded is `E(SCHED, x)` with a valid key, and otherwise any block, the one on the data
lines of the answer (R70); J becomes 0. That the data lines are an input, read without a valid key alone, is the model's
choice (logs 4, 10). -/
def Obligations.ClockLoadsKeystream : Prop :=
  ∀ (ep dp : Bool) (s : State) (x : Block) (d : BitVec 128), s.pins.rstN = true → s.fsm = .cphRsp .enc →
    s.inflight = some (.enc x) → s.pins.cphRsp = some { err := false, data := d } →
    (∀ k, s.keyValid = true → s.sched = some k →
      exec (.xcrypt ep dp) s = .next
        { s with
          ks := Config.encryptBlock k x
          j := 0#5
          inflight := none
          fsm := .xcByte
          traffic := s.traffic ++ [.cipherBlock (Config.encryptBlock k x)] }) ∧
    (s.keyValid = false →
      exec (.xcrypt ep dp) s = .next
        { s with
          ks := bitsBlock d
          j := 0#5
          inflight := none
          fsm := .xcByte
          traffic := s.traffic ++ [.cipherBlock (bitsBlock d)] })

/-- R155, R156: at the edge of the data-in byte b, OUTB becomes b XOR KS[J], KS[J] becomes 0x00 and J goes up by 1; the
byte zeroed is the one just used. -/
def Obligations.DataByteXored : Prop :=
  ∀ (ep dp : Bool) (s : State) (b : Byte), s.pins.rstN = true → s.fsm = .xcByte → s.pins.din = some b →
    s.j.toNat < 16 →
    ∃ t, exec (.xcrypt ep dp) s = .next t ∧ t.outb = b ^^^ byteAt s.ks s.j.toNat ∧
      byteAt t.ks s.j.toNat = 0#8 ∧ (∀ m, m ≠ s.j.toNat → byteAt t.ks m = byteAt s.ks m) ∧
      t.j.toNat = s.j.toNat + 1 ∧ t.fsm = .xcOut ∧ t.traffic = s.traffic ++ [.dataIn b] ∧
      t = { s with outb := t.outb, ks := t.ks, j := t.j, fsm := t.fsm, traffic := t.traffic }

/-- R157, R160: at the edge of the data-out byte I goes up by 1; then, with bytes still to come, a clock at J = 16 or the
next byte, and at the last byte the end of the call: KS erased, J <- 16, I <- 0, the OK response. -/
def Obligations.DataByteGiven : Prop :=
  ∀ (ep dp : Bool) (s : State), s.pins.rstN = true → s.fsm = .xcOut → s.pins.doutReady = true →
    s.i.toNat < s.len.toNat →
    (s.i.toNat + 1 < s.len.toNat → s.j = 16#5 →
      exec (.xcrypt ep dp) s = .next
        { s with i := s.i + 1#32, fsm := .cphReq .enc, traffic := s.traffic ++ [.dataOut s.outb] }) ∧
    (s.i.toNat + 1 < s.len.toNat → s.j ≠ 16#5 →
      exec (.xcrypt ep dp) s = .next
        { s with i := s.i + 1#32, fsm := .xcByte, traffic := s.traffic ++ [.dataOut s.outb] }) ∧
    (s.i.toNat + 1 = s.len.toNat →
      exec (.xcrypt ep dp) s = .next
        { s with
          ks := zeroBlock
          j := 16#5
          i := 0#32
          rsp := responseWord .ok s.cmd.op s.keyValid s.kxErr
          fsm := .resp
          traffic := s.traffic ++ [.dataOut s.outb] })

/-! ## TEARDOWN and GETBLK (44_lifecycle.md) -/

/-- R213: a TEARDOWN with EP = 1 sends one WIPE request, whatever KEY_VALID is: it is offered once the command word is
taken, and its transfer changes nothing else. That it is offered from the command word's own edge on is the model's reading
(log 6). -/
def Obligations.TeardownSendsWipe : Prop :=
  (∀ (s : State) (w : Word), s.fsm = .idle → cmdIn s = some w →
    exec (.teardown true) s = .next
      { s with
        cmd := { op := 4#4, ep := true, dp := false, kp := false }
        fsm := .cphReq .wipe
        traffic := s.traffic ++ [.cmdIn w] }) ∧
  ∀ (ep : Bool) (s : State), s.pins.rstN = true → s.fsm = .cphReq .wipe → s.pins.cphReqReady = true →
    exec (.teardown ep) s = .next
      { s with
        inflight := some .wipe
        fsm := .cphRsp .wipe
        traffic := s.traffic ++ [.cipherReq .wipe] }

/-- R214, R215: the WIPE answer clears KEY_VALID and SCHED whatever its error bit; the response is OK or WIPE_FAILED by
that bit; CB, KS, J and KX_ERR are unchanged. -/
def Obligations.TeardownReportsWipe : Prop :=
  ∀ (ep err : Bool) (s : State) (d : BitVec 128), s.pins.rstN = true → s.fsm = .cphRsp .wipe →
    s.inflight = some .wipe → s.pins.cphRsp = some { err := err, data := d } →
    exec (.teardown ep) s = .next
      { s with
        keyValid := false
        sched := none
        inflight := none
        rsp := responseWord (if err then .wipeFailed else .ok) s.cmd.op false s.kxErr
        fsm := .resp
        traffic := s.traffic ++ [.cipherErr .wipe err] }

/-- R216 (d), R225, 60_exceptions.md R242: TEARDOWN and GETBLK with EP = 0 are answered with INVALID_ARG and change no
other state; no request is made and no read-back word follows. That this happens at the command word's own edge is the
model's reading (log 6). -/
def Obligations.AbsentEngineRejected : Prop :=
  ∀ (s : State) (w : Word), s.fsm = .idle → cmdIn s = some w →
    exec (.teardown false) s = .next
      { s with
        cmd := { op := 4#4, ep := false, dp := false, kp := false }
        rsp := responseWord .invalidArg 4#4 s.keyValid s.kxErr
        fsm := .resp
        traffic := s.traffic ++ [.cmdIn w] } ∧
    exec (.getblk false) s = .next
      { s with
        cmd := { op := 5#4, ep := false, dp := false, kp := false }
        rsp := responseWord .invalidArg 5#4 s.keyValid s.kxErr
        fsm := .resp
        traffic := s.traffic ++ [.cmdIn w] }

/-- R225, R226: GETBLK with EP = 1 is answered with OK and changes no state but FSM, CMD and RSP; each transfer in RDBK then
gives read-back word 4 - RDBK, the four bytes of CB packed, and the last one ends in IDLE. That the response is set at the
command word's own edge is the model's reading (log 6). -/
def Obligations.GetblkReadsCounterBlock : Prop :=
  (∀ (s : State) (w : Word), s.fsm = .idle → cmdIn s = some w →
    exec (.getblk true) s = .next
      { s with
        cmd := { op := 5#4, ep := true, dp := false, kp := false }
        rsp := responseWord .ok 5#4 s.keyValid s.kxErr
        fsm := .resp
        traffic := s.traffic ++ [.cmdIn w] }) ∧
  (∀ s : State, s.pins.rstN = true → s.fsm = .rdbk → s.pins.rspReady = true → 1 < s.rdbk →
    exec (.getblk true) s = .next
      { s with
        rdbk := s.rdbk - 1
        traffic := s.traffic ++
          [.rspOut (packWord (byteAt s.cb (4 * (4 - s.rdbk))) (byteAt s.cb (4 * (4 - s.rdbk) + 1))
            (byteAt s.cb (4 * (4 - s.rdbk) + 2)) (byteAt s.cb (4 * (4 - s.rdbk) + 3)))] }) ∧
  ∀ s : State, s.pins.rstN = true → s.fsm = .rdbk → s.pins.rspReady = true → s.rdbk = 1 →
    exec (.getblk true) s = .next
      { s with
        rdbk := 0
        fsm := .idle
        traffic := s.traffic ++
          [.rspOut (packWord (byteAt s.cb 12) (byteAt s.cb 13) (byteAt s.cb 14) (byteAt s.cb 15))] }

/-- 30_encoding.md R83, 60_exceptions.md R240, R251: after the response word a successful GETBLK goes to RDBK with RDBK = 4,
and every other command, erroneous or not, to IDLE with RSP emptied. So does the step whatever CMD holds: the response to an
illegal word, of a reserved OP too, is taken and the engine is in IDLE (R77, R82). That RSP is emptied before a read-back
too is the model's reading (log 8). -/
def Obligations.ResponseTakenEndsCommand : Prop :=
  (∀ (i : Instr) (s : State), s.pins.rstN = true → s.fsm = .resp → s.pins.rspReady = true →
    (s.cmd.op = 5#4 ∧ s.rsp.extractLsb' 0 4 = 0#4 →
      exec i s = .next
        { s with rsp := 0#32, rdbk := 4, fsm := .rdbk, traffic := s.traffic ++ [.rspOut s.rsp] }) ∧
    (¬ (s.cmd.op = 5#4 ∧ s.rsp.extractLsb' 0 4 = 0#4) →
      exec i s = .next { s with rsp := 0#32, fsm := .idle, traffic := s.traffic ++ [.rspOut s.rsp] })) ∧
  ∀ s : State, s.pins.rstN = true → contractBreach s = none → s.fsm = .resp → s.pins.rspReady = true →
    (s.cmd.op = 5#4 ∧ s.rsp.extractLsb' 0 4 = 0#4 →
      step s = .next
        { s with
          rsp := 0#32
          rdbk := 4
          fsm := .rdbk
          inputs := s.inputs.tail
          heldCmd := s.pins.cmd
          heldDin := s.pins.din
          traffic := s.traffic ++ [.rspOut s.rsp] }) ∧
    (¬ (s.cmd.op = 5#4 ∧ s.rsp.extractLsb' 0 4 = 0#4) →
      step s = .next
        { s with
          rsp := 0#32
          fsm := .idle
          inputs := s.inputs.tail
          heldCmd := s.pins.cmd
          heldDin := s.pins.din
          traffic := s.traffic ++ [.rspOut s.rsp] })

/-! ## Invariants and whole-machine rules -/

/-- 10_state.md R45: the invariants hold after reset. -/
def Obligations.InvariantsHoldAfterReset : Prop :=
  Inv State.reset

/-- 10_state.md R42: the invariants are kept by every step from every state that has them, whatever the host and the
collaborator do, a reset edge included. Two of them are the model's readings: RSP = 0 in RDBK too (20_memory.md R63; log 8)
and ARGI = 0 outside ARGS (log 6). -/
def Obligations.StepKeepsInvariants : Prop :=
  ∀ s t : State, Inv s → step s = .next t → Inv t

/-- R42 (a), (b), (c): at every step J is at most 16 and I at most LEN, and whenever FSM = IDLE: J = 16, every byte of KS is
0, I = 0, NARGS = 0 and every byte of KEYBUF is 0. -/
def Obligations.IdleEngineHoldsNoSecretBytes : Prop :=
  ∀ s t : State, Inv s → step s = .next t →
    t.j.toNat ≤ 16 ∧ t.i.toNat ≤ t.len.toNat ∧
      (t.fsm = .idle →
        t.j = 16#5 ∧ (∀ m, m < 16 → byteAt t.ks m = 0#8) ∧ t.i = 0#32 ∧ t.nargs = 0 ∧
          ∀ m, m < 32 → byteAt t.keybuf m = 0#8)

/-- R22, R23: nonce and IV are written only by INIT and SETBLK, each replacing all 16 bytes of CB; the engine itself
changes CB only by INC, at the ENC request of a clock. An INIT writes CB at its last word without a key, and at the EXPAND
answer with one; a SETBLK at its last word. That the last word's own edge is meant is the model's reading (log 6). -/
def Obligations.CounterBlockWriters : Prop :=
  ∀ s t : State, s.pins.rstN = true → step s = .next t →
    t.cb = s.cb ∨
    (s.fsm = .cphReq .enc ∧ t.fsm = .cphRsp .enc ∧ t.cb = inc s.cb ∧
      ∀ m, m < 12 → byteAt t.cb m = byteAt s.cb m) ∨
    (t.fsm = .resp ∧ ∃ kp dp, (LastWord s (.init false dp) ∨ ∃ key r, ExpandAnswered s kp dp key r) ∧
      t.cb = if dp then t.blkbuf else zeroBlock) ∨
    (t.fsm = .resp ∧ LastWord s (.setblk true true) ∧ t.cb = t.blkbuf)

/-- 42_keystream_clock.md R124: the next value of KS, by its priority: reset, the answer of an ENC request, a data-in byte,
the end of an XCRYPT or of an INIT, else KS itself. -/
def Obligations.KeystreamRegisterGating : Prop :=
  ∀ s t : State, Inv s → step s = .next t →
    if s.pins.rstN = false then t.ks = zeroBlock
    else if s.fsm = .cphRsp .enc ∧ (cipherRsp s).isSome then
      ∃ r, t.traffic = s.traffic ++ [.cipherBlock r] ∧ t.ks = r
    else if (dataIn s).isSome then t.ks = setByte s.ks s.j.toNat 0#8
    else if s.fsm ≠ .resp ∧ t.fsm = .resp ∧ (t.cmd.op = 1#4 ∨ t.cmd = instrCmd (.xcrypt true true)) then
      t.ks = zeroBlock
    else t.ks = s.ks

/-- R32, R33, 44_lifecycle.md R230: KEY_VALID is set only by an INIT's EXPAND answer without error, which also gives SCHED,
and cleared only by an INIT (at its last word without a key, at an EXPAND answer with error) or by a TEARDOWN's WIPE answer;
KX_ERR is set only by an EXPAND answer with error and cleared only by an INIT's last word. That the last word's own edge is
meant is the model's reading (log 6). -/
def Obligations.StatusFlagWriters : Prop :=
  ∀ s t : State, s.pins.rstN = true → step s = .next t →
    (s.keyValid = false → t.keyValid = true →
      ∃ kp dp key d, ExpandAnswered s kp dp key { err := false, data := d } ∧
        t.sched = some (Config.expandKey key)) ∧
    (s.keyValid = true → t.keyValid = false →
      t.sched = none ∧
        ((∃ dp, LastWord s (.init false dp)) ∨
          (∃ kp dp key d, ExpandAnswered s kp dp key { err := true, data := d }) ∨
          ∃ ep r, s.fsm = .cphRsp .wipe ∧ cmdInstr s.cmd = some (.teardown ep) ∧ s.inflight = some .wipe ∧
            cipherRsp s = some r)) ∧
    (s.kxErr = false → t.kxErr = true →
      t.keyValid = false ∧ ∃ kp dp key d, ExpandAnswered s kp dp key { err := true, data := d }) ∧
    (s.kxErr = true → t.kxErr = false → ∃ kp dp, LastWord s (.init kp dp))

/-- 60_exceptions.md R253, 42_keystream_clock.md R133: two states that differ only in KS, SCHED, KEYBUF, OUTB, a key in
flight and the keystream on the collaborator's data lines take steps that again differ only so: no response word, no read-back word, no status flag, no choice of what happens
next depends on them. -/
def Obligations.SecretsReachOnlyDataOut : Prop :=
  ∀ s t : State, SameButSecrets s t → SameOutcome (step s) (step t)

/-! ## Whole calls and whole commands -/

/-- R152, R159, R164: the LEN word of an XCRYPT, with or without a key, begins a call at the counter block CB then holds.
That it begins at the LEN word's own edge is the model's reading (log 6). -/
def Obligations.CallBegins : Prop :=
  ∀ (s : State) (w : Word), Inv s → s.fsm = .args → s.cmd = instrCmd (.xcrypt true true) →
    cmdIn s = some w → w ≠ 0#32 →
    ∃ t, exec (.xcrypt true true) s = .next t ∧ InCall s.sched s.cb (s.traffic ++ [.cmdIn w]) w t

/-- R159, R158, R160, R164, 42_keystream_clock.md R129: whatever the host and the collaborator do, and however long they
wait, as long as no reset comes, a call in progress stays one or has been a call that ended with LEN bytes in and out,
data-out byte n equal to data-in byte n XOR byte n mod 16 of keystream block n div 16, one block and one ENC request per
ceil(LEN/16), the counter block `blk(ceil(LEN/16))` and an OK response. With a key the keystream block is
`E(SCHED, blk(n div 16))`; without one it is the block the collaborator's answer gave. -/
def Obligations.CallClosedFormAnyEnvironment : Prop :=
  ∀ (key : Option Sched) (cb : Block) (past : List Transfer) (len : Word) (n : Nat) (s t : State),
    InCall key cb past len s → (∀ p ∈ s.inputs.take n, p.rstN = true) → run n s = .next t →
    InCall key cb past len t ∨ ∃ m u, m ≤ n ∧ run m s = .next u ∧ CallDone key cb past len u

/-- R159, R164, 41_counter_increment.md R106: one XCRYPT of any length, with or without a key, in an environment that
answers at once runs to its response: LEN bytes in and out, data-out the closed form (without a key, over the blocks on the
collaborator's data lines), the counter advanced by ceil(LEN/16), one ENC request per block. That it takes exactly
`1 + 2*ceil(LEN/16) + 2*LEN + 1` edges after the command word is the model's choice (logs 6, 7, 19): 70_reset_and_hazards.md
R296 gives that number for information, as a lower bound. The data lines as the free block: logs 4, 10. -/
def Obligations.XcryptRunsToClosedForm : Prop :=
  ∀ (s : State) (data : List Byte) (draws : Nat → BitVec 128) (rest : List PortIn), Ready s →
    data.length < 2 ^ 32 → s.inputs = promptEdges (xcryptOf data) data false draws ++ rest →
    (promptEdges (xcryptOf data) data false draws).length =
      1 + (1 + 2 * ceil16 data.length + 2 * data.length + 1) ∧
    ∃ t tr, run (promptEdges (xcryptOf data) data false draws).length s = .next t ∧ Ready t ∧ t.inputs = rest ∧
      t.cb = blkAt s.cb (ceil16 data.length) ∧ t.keyValid = s.keyValid ∧ t.sched = s.sched ∧ t.kxErr = s.kxErr ∧
      t.traffic = s.traffic ++ tr ∧ dataIns tr = data ∧
      (∀ k, s.sched = some k → dataOuts tr = xorStream k s.cb data) ∧
      (s.sched = none → dataOuts tr = xorBlocks (fun m => bitsBlock (draws m)) data) ∧
      (blocks tr).length = ceil16 data.length ∧
      rspOuts tr = [responseWord .ok 3#4 s.keyValid s.kxErr] ∧
      requests tr = (List.range (ceil16 data.length)).map fun m => .enc (blkAt s.cb m)

/-- R162: encrypting P, setting the counter block back with SETBLK and running XCRYPT on the output gives P again. The
edges at which the host and the collaborator act fit the engine by the model's readings (logs 6, 7, 19). -/
def Obligations.RoundTripRestoresData : Prop :=
  ∀ (s : State) (k : Sched) (plain : List Byte) (draws : Nat → BitVec 128) (rest : List PortIn), Ready s →
    s.keyValid = true → s.sched = some k → plain.length < 2 ^ 32 →
    let cipher := xorStream k s.cb plain
    let edges := promptEdges (xcryptOf plain) plain false draws ++
      promptEdges (.setblk true (some s.cb)) [] false draws ++ promptEdges (xcryptOf cipher) cipher false draws
    s.inputs = edges ++ rest →
    ∃ t tr, run edges.length s = .next t ∧ Ready t ∧ t.inputs = rest ∧ t.traffic = s.traffic ++ tr ∧
      dataOuts tr = cipher ++ plain

/-- R166 (c), (d), R152: two calls in a row: the second starts at byte 0 of block `blk(ceil(L1/16))`, whatever the first left
unused, and the counter ends at `c + ceil(L1/16) + ceil(L2/16)`. The edges at which the host and the collaborator act fit
the engine by the model's readings (logs 6, 7, 19). -/
def Obligations.SplitCallsRestartKeystream : Prop :=
  ∀ (s : State) (k : Sched) (one two : List Byte) (draws : Nat → BitVec 128) (rest : List PortIn), Ready s →
    s.keyValid = true → s.sched = some k → one.length < 2 ^ 32 → two.length < 2 ^ 32 →
    let edges := promptEdges (xcryptOf one) one false draws ++ promptEdges (xcryptOf two) two false draws
    s.inputs = edges ++ rest →
    ∃ t tr, run edges.length s = .next t ∧ Ready t ∧ t.inputs = rest ∧ t.traffic = s.traffic ++ tr ∧
      dataOuts tr = xorStream k s.cb one ++ xorStream k (blkAt s.cb (ceil16 one.length)) two ∧
      t.cb = blkAt s.cb (ceil16 one.length + ceil16 two.length)

/-- R166 (b): where the first call's length is a multiple of 16 or the second is empty, two calls give the bytes of one call
on the same data, and end at the same counter block. The edges at which the host and the collaborator act fit the engine by
the model's readings (logs 6, 7, 19). -/
def Obligations.BoundarySplitGivesSameBytes : Prop :=
  ∀ (s : State) (k : Sched) (one two : List Byte) (draws : Nat → BitVec 128), Ready s → s.keyValid = true →
    s.sched = some k → (one ++ two).length < 2 ^ 32 → one.length % 16 = 0 ∨ two = [] →
    let whole := promptEdges (xcryptOf (one ++ two)) (one ++ two) false draws
    let split := promptEdges (xcryptOf one) one false draws ++ promptEdges (xcryptOf two) two false draws
    ∃ t u trt tru, run whole.length { s with inputs := whole } = .next t ∧
      run split.length { s with inputs := split } = .next u ∧
      t.traffic = s.traffic ++ trt ∧ u.traffic = s.traffic ++ tru ∧ dataOuts trt = dataOuts tru ∧ t.cb = u.cb

/-- R190, R193 to R197: a whole INIT, in every form: CB is the block or zero, the key state is the expansion's, the response
is OK. Without a key the host takes the response right after the last word: that R190's "the edge after the last argument
word" is that word's own edge is the model's reading (log 6), and so is that nobody waits (logs 7, 19). -/
def Obligations.InitRunsToKeyState : Prop :=
  ∀ (s : State) (key : Option Key) (block : Option Block) (err : Bool) (draws : Nat → BitVec 128) (rest : List PortIn),
    Ready s →
    s.inputs = promptEdges (.init key block) [] err draws ++ rest →
    ∃ t tr, run (promptEdges (.init key block) [] err draws).length s = .next t ∧ Ready t ∧ t.inputs = rest ∧
      t.cb = block.getD zeroBlock ∧ t.keyValid = (key.isSome && !err) ∧ t.kxErr = (key.isSome && err) ∧
      t.sched = (if err then none else key.map Config.expandKey) ∧
      t.traffic = s.traffic ++ tr ∧ requests tr = key.toList.map .expand ∧
      rspOuts tr = [responseWord .ok 1#4 (key.isSome && !err) (key.isSome && err)]

/-- R205 to R207: a whole SETBLK, in every form: CB is replaced when engine and block are present, else INVALID_ARG and CB
kept; SCHED, KEY_VALID and KX_ERR are unchanged and no request is made. That SETBLK goes on at its last word's own edge, so
that the host takes the response right after it, is the model's reading (logs 6, 7, 19). -/
def Obligations.SetblkRunsToNewBlock : Prop :=
  ∀ (s : State) (ep : Bool) (block : Option Block) (draws : Nat → BitVec 128) (rest : List PortIn),
    Ready s →
    s.inputs = promptEdges (.setblk ep block) [] false draws ++ rest →
    ∃ t tr, run (promptEdges (.setblk ep block) [] false draws).length s = .next t ∧ Ready t ∧ t.inputs = rest ∧
      t.cb = (if ep then block.getD s.cb else s.cb) ∧ t.sched = s.sched ∧ t.keyValid = s.keyValid ∧
      t.kxErr = s.kxErr ∧ t.traffic = s.traffic ++ tr ∧ requests tr = [] ∧
      rspOuts tr = [responseWord (if ep && block.isSome then .ok else .invalidArg) 2#4 s.keyValid s.kxErr]

/-- R212 to R216: a whole TEARDOWN, with and without engine, with and without an error of the wipe. That TEARDOWN goes on at
the command word's own edge, so that its request is taken right after it, is the model's reading (logs 6, 7, 19). -/
def Obligations.TeardownRunsToUnkeyed : Prop :=
  ∀ (s : State) (ep err : Bool) (draws : Nat → BitVec 128) (rest : List PortIn),
    Ready s →
    s.inputs = promptEdges (.teardown ep) [] err draws ++ rest →
    ∃ t tr, run (promptEdges (.teardown ep) [] err draws).length s = .next t ∧ Ready t ∧ t.inputs = rest ∧
      t.cb = s.cb ∧ t.kxErr = s.kxErr ∧ t.keyValid = (s.keyValid && !ep) ∧
      t.sched = (if ep then none else s.sched) ∧ t.traffic = s.traffic ++ tr ∧
      requests tr = (if ep then [.wipe] else []) ∧
      rspOuts tr =
        [responseWord (if ep then (if err then .wipeFailed else .ok) else .invalidArg) 4#4 (s.keyValid && !ep) s.kxErr]

/-- R225, R226, 30_encoding.md R82: a whole GETBLK: the response, then, with an engine, the four words of CB; no state is
left changed but CMD. RSP as it was before, that is 0, rests on log 8 (20_memory.md R63; R226 lets RSP change), and the edge
at which the host takes the response on logs 6, 7 and 19: the model's readings. -/
def Obligations.GetblkRunsToReadBack : Prop :=
  ∀ (s : State) (ep : Bool) (draws : Nat → BitVec 128) (rest : List PortIn),
    Ready s →
    s.inputs = promptEdges (.getblk ep) [] false draws ++ rest →
    ∃ t, run (promptEdges (.getblk ep) [] false draws).length s = .next t ∧ Ready t ∧
      t = { s with
        cmd := { op := 5#4, ep := ep, dp := false, kp := false }
        inputs := rest
        traffic := t.traffic } ∧
      ∃ tr, t.traffic = s.traffic ++ tr ∧
        rspOuts tr =
          if ep then
            [responseWord .ok 5#4 s.keyValid s.kxErr, getWord s.cb 0, getWord s.cb 1, getWord s.cb 2, getWord s.cb 3]
          else [responseWord .invalidArg 5#4 s.keyValid s.kxErr]
end

