-- ==== Sys2Proof/Laws/Decode.lean ====
section
/-! SUPPORT. The opcode table's rows do not overlap, and CMD gives back the command it latched. -/

namespace Sys2Proof

/-- The rows of spec/opcode_table.json as (match, mask) pairs. -/
def tableRows : List (Word × Word) :=
  [.init false false, .setblk false false, .xcrypt false false, .teardown false, .getblk false].map
    fun i : Instr => (rowMatch i, rowMask i)

/-- No command word fits two rows: some bit that both masks look at differs. -/
theorem tableRows_disjoint :
    tableRows.Pairwise fun a b => (a.1 &&& (a.2 &&& b.2)) ≠ (b.1 &&& (a.2 &&& b.2)) := by
  decide

theorem fields_op_toNat (i : Instr) :
    i.fields.op.toNat = match i with
      | .init _ _ => 1 | .setblk _ _ => 2 | .xcrypt _ _ => 3 | .teardown _ => 4 | .getblk _ => 5 := by
  cases i <;> rfl

/-- NARGS is at most 12 (10_state.md R36). -/
theorem nargs_le (i : Instr) : nargs i ≤ 12 := by
  cases i with
  | init kp dp => cases kp <;> cases dp <;> decide
  | setblk _ dp => cases dp <;> simp [nargs]
  | xcrypt _ dp => cases dp <;> simp [nargs]
  | teardown _ => simp [nargs]
  | getblk _ => simp [nargs]

namespace Machine

@[simp] theorem cmdInstr_instrCmd (i : Instr) : cmdInstr (instrCmd i) = some i := by
  cases i with
  | init kp dp => cases kp <;> cases dp <;> rfl
  | setblk ep dp => cases ep <;> cases dp <;> rfl
  | xcrypt ep dp => cases ep <;> cases dp <;> rfl
  | teardown ep => cases ep <;> rfl
  | getblk ep => cases ep <;> rfl

end Machine

end Sys2Proof
end

