-- ==== Sys2Proof/Laws/State.lean ====
section
/-! SUPPORT. One lemma per field per named update of the state, so that no proof unfolds a record update. -/

namespace Sys2Proof.Machine

/-! ## note -/

@[simp] theorem note_cb (t : Transfer) (s : State) : (note t s).cb = s.cb := rfl
@[simp] theorem note_ks (t : Transfer) (s : State) : (note t s).ks = s.ks := rfl
@[simp] theorem note_j (t : Transfer) (s : State) : (note t s).j = s.j := rfl
@[simp] theorem note_sched (t : Transfer) (s : State) : (note t s).sched = s.sched := rfl
@[simp] theorem note_keyValid (t : Transfer) (s : State) : (note t s).keyValid = s.keyValid := rfl
@[simp] theorem note_kxErr (t : Transfer) (s : State) : (note t s).kxErr = s.kxErr := rfl
@[simp] theorem note_fsm (t : Transfer) (s : State) : (note t s).fsm = s.fsm := rfl
@[simp] theorem note_cmd (t : Transfer) (s : State) : (note t s).cmd = s.cmd := rfl
@[simp] theorem note_nargs (t : Transfer) (s : State) : (note t s).nargs = s.nargs := rfl
@[simp] theorem note_argi (t : Transfer) (s : State) : (note t s).argi = s.argi := rfl
@[simp] theorem note_keybuf (t : Transfer) (s : State) : (note t s).keybuf = s.keybuf := rfl
@[simp] theorem note_blkbuf (t : Transfer) (s : State) : (note t s).blkbuf = s.blkbuf := rfl
@[simp] theorem note_len (t : Transfer) (s : State) : (note t s).len = s.len := rfl
@[simp] theorem note_i (t : Transfer) (s : State) : (note t s).i = s.i := rfl
@[simp] theorem note_outb (t : Transfer) (s : State) : (note t s).outb = s.outb := rfl
@[simp] theorem note_rsp (t : Transfer) (s : State) : (note t s).rsp = s.rsp := rfl
@[simp] theorem note_rdbk (t : Transfer) (s : State) : (note t s).rdbk = s.rdbk := rfl
@[simp] theorem note_inflight (t : Transfer) (s : State) : (note t s).inflight = s.inflight := rfl
@[simp] theorem note_inputs (t : Transfer) (s : State) : (note t s).inputs = s.inputs := rfl
@[simp] theorem note_heldCmd (t : Transfer) (s : State) : (note t s).heldCmd = s.heldCmd := rfl
@[simp] theorem note_heldDin (t : Transfer) (s : State) : (note t s).heldDin = s.heldDin := rfl
@[simp] theorem note_traffic (t : Transfer) (s : State) : (note t s).traffic = s.traffic ++ [t] := rfl

/-! ## respond -/

@[simp] theorem respond_cb (c : Code) (s : State) : (respond c s).cb = s.cb := rfl
@[simp] theorem respond_ks (c : Code) (s : State) : (respond c s).ks = s.ks := rfl
@[simp] theorem respond_j (c : Code) (s : State) : (respond c s).j = s.j := rfl
@[simp] theorem respond_sched (c : Code) (s : State) : (respond c s).sched = s.sched := rfl
@[simp] theorem respond_keyValid (c : Code) (s : State) : (respond c s).keyValid = s.keyValid := rfl
@[simp] theorem respond_kxErr (c : Code) (s : State) : (respond c s).kxErr = s.kxErr := rfl
@[simp] theorem respond_fsm (c : Code) (s : State) : (respond c s).fsm = .resp := rfl
@[simp] theorem respond_cmd (c : Code) (s : State) : (respond c s).cmd = s.cmd := rfl
@[simp] theorem respond_nargs (c : Code) (s : State) : (respond c s).nargs = s.nargs := rfl
@[simp] theorem respond_argi (c : Code) (s : State) : (respond c s).argi = s.argi := rfl
@[simp] theorem respond_keybuf (c : Code) (s : State) : (respond c s).keybuf = s.keybuf := rfl
@[simp] theorem respond_blkbuf (c : Code) (s : State) : (respond c s).blkbuf = s.blkbuf := rfl
@[simp] theorem respond_len (c : Code) (s : State) : (respond c s).len = s.len := rfl
@[simp] theorem respond_i (c : Code) (s : State) : (respond c s).i = s.i := rfl
@[simp] theorem respond_outb (c : Code) (s : State) : (respond c s).outb = s.outb := rfl
@[simp] theorem respond_rsp (c : Code) (s : State) : (respond c s).rsp = response c s := rfl
@[simp] theorem respond_rdbk (c : Code) (s : State) : (respond c s).rdbk = s.rdbk := rfl
@[simp] theorem respond_inflight (c : Code) (s : State) : (respond c s).inflight = s.inflight := rfl
@[simp] theorem respond_inputs (c : Code) (s : State) : (respond c s).inputs = s.inputs := rfl
@[simp] theorem respond_heldCmd (c : Code) (s : State) : (respond c s).heldCmd = s.heldCmd := rfl
@[simp] theorem respond_heldDin (c : Code) (s : State) : (respond c s).heldDin = s.heldDin := rfl
@[simp] theorem respond_traffic (c : Code) (s : State) : (respond c s).traffic = s.traffic := rfl

/-! ## raise -/

@[simp] theorem raise_cb (c : Code) (s : State) : (raise c s).cb = s.cb := rfl
@[simp] theorem raise_ks (c : Code) (s : State) : (raise c s).ks = s.ks := rfl
@[simp] theorem raise_j (c : Code) (s : State) : (raise c s).j = s.j := rfl
@[simp] theorem raise_sched (c : Code) (s : State) : (raise c s).sched = s.sched := rfl
@[simp] theorem raise_keyValid (c : Code) (s : State) : (raise c s).keyValid = s.keyValid := rfl
@[simp] theorem raise_kxErr (c : Code) (s : State) : (raise c s).kxErr = s.kxErr := rfl
@[simp] theorem raise_fsm (c : Code) (s : State) : (raise c s).fsm = .resp := rfl
@[simp] theorem raise_cmd (c : Code) (s : State) : (raise c s).cmd = s.cmd := rfl
@[simp] theorem raise_nargs (c : Code) (s : State) : (raise c s).nargs = s.nargs := rfl
@[simp] theorem raise_argi (c : Code) (s : State) : (raise c s).argi = s.argi := rfl
@[simp] theorem raise_keybuf (c : Code) (s : State) : (raise c s).keybuf = s.keybuf := rfl
@[simp] theorem raise_blkbuf (c : Code) (s : State) : (raise c s).blkbuf = s.blkbuf := rfl
@[simp] theorem raise_len (c : Code) (s : State) : (raise c s).len = s.len := rfl
@[simp] theorem raise_i (c : Code) (s : State) : (raise c s).i = s.i := rfl
@[simp] theorem raise_outb (c : Code) (s : State) : (raise c s).outb = s.outb := rfl
@[simp] theorem raise_rsp (c : Code) (s : State) : (raise c s).rsp = response c s := rfl
@[simp] theorem raise_rdbk (c : Code) (s : State) : (raise c s).rdbk = s.rdbk := rfl
@[simp] theorem raise_inflight (c : Code) (s : State) : (raise c s).inflight = s.inflight := rfl
@[simp] theorem raise_inputs (c : Code) (s : State) : (raise c s).inputs = s.inputs := rfl
@[simp] theorem raise_heldCmd (c : Code) (s : State) : (raise c s).heldCmd = s.heldCmd := rfl
@[simp] theorem raise_heldDin (c : Code) (s : State) : (raise c s).heldDin = s.heldDin := rfl
@[simp] theorem raise_traffic (c : Code) (s : State) : (raise c s).traffic = s.traffic := rfl

/-! ## clearPath -/

@[simp] theorem clearPath_cb (s : State) : (clearPath s).cb = s.cb := rfl
@[simp] theorem clearPath_ks (s : State) : (clearPath s).ks = zeroBlock := rfl
@[simp] theorem clearPath_j (s : State) : (clearPath s).j = 16#5 := rfl
@[simp] theorem clearPath_sched (s : State) : (clearPath s).sched = s.sched := rfl
@[simp] theorem clearPath_keyValid (s : State) : (clearPath s).keyValid = s.keyValid := rfl
@[simp] theorem clearPath_kxErr (s : State) : (clearPath s).kxErr = s.kxErr := rfl
@[simp] theorem clearPath_fsm (s : State) : (clearPath s).fsm = s.fsm := rfl
@[simp] theorem clearPath_cmd (s : State) : (clearPath s).cmd = s.cmd := rfl
@[simp] theorem clearPath_nargs (s : State) : (clearPath s).nargs = s.nargs := rfl
@[simp] theorem clearPath_argi (s : State) : (clearPath s).argi = s.argi := rfl
@[simp] theorem clearPath_keybuf (s : State) : (clearPath s).keybuf = s.keybuf := rfl
@[simp] theorem clearPath_blkbuf (s : State) : (clearPath s).blkbuf = s.blkbuf := rfl
@[simp] theorem clearPath_len (s : State) : (clearPath s).len = s.len := rfl
@[simp] theorem clearPath_i (s : State) : (clearPath s).i = 0#32 := rfl
@[simp] theorem clearPath_outb (s : State) : (clearPath s).outb = s.outb := rfl
@[simp] theorem clearPath_rsp (s : State) : (clearPath s).rsp = s.rsp := rfl
@[simp] theorem clearPath_rdbk (s : State) : (clearPath s).rdbk = s.rdbk := rfl
@[simp] theorem clearPath_inflight (s : State) : (clearPath s).inflight = s.inflight := rfl
@[simp] theorem clearPath_inputs (s : State) : (clearPath s).inputs = s.inputs := rfl
@[simp] theorem clearPath_heldCmd (s : State) : (clearPath s).heldCmd = s.heldCmd := rfl
@[simp] theorem clearPath_heldDin (s : State) : (clearPath s).heldDin = s.heldDin := rfl
@[simp] theorem clearPath_traffic (s : State) : (clearPath s).traffic = s.traffic := rfl

/-! ## keyDropped -/

@[simp] theorem keyDropped_cb (s : State) : (keyDropped s).cb = s.cb := rfl
@[simp] theorem keyDropped_ks (s : State) : (keyDropped s).ks = s.ks := rfl
@[simp] theorem keyDropped_j (s : State) : (keyDropped s).j = s.j := rfl
@[simp] theorem keyDropped_sched (s : State) : (keyDropped s).sched = none := rfl
@[simp] theorem keyDropped_keyValid (s : State) : (keyDropped s).keyValid = false := rfl
@[simp] theorem keyDropped_kxErr (s : State) : (keyDropped s).kxErr = s.kxErr := rfl
@[simp] theorem keyDropped_fsm (s : State) : (keyDropped s).fsm = s.fsm := rfl
@[simp] theorem keyDropped_cmd (s : State) : (keyDropped s).cmd = s.cmd := rfl
@[simp] theorem keyDropped_nargs (s : State) : (keyDropped s).nargs = s.nargs := rfl
@[simp] theorem keyDropped_argi (s : State) : (keyDropped s).argi = s.argi := rfl
@[simp] theorem keyDropped_keybuf (s : State) : (keyDropped s).keybuf = s.keybuf := rfl
@[simp] theorem keyDropped_blkbuf (s : State) : (keyDropped s).blkbuf = s.blkbuf := rfl
@[simp] theorem keyDropped_len (s : State) : (keyDropped s).len = s.len := rfl
@[simp] theorem keyDropped_i (s : State) : (keyDropped s).i = s.i := rfl
@[simp] theorem keyDropped_outb (s : State) : (keyDropped s).outb = s.outb := rfl
@[simp] theorem keyDropped_rsp (s : State) : (keyDropped s).rsp = s.rsp := rfl
@[simp] theorem keyDropped_rdbk (s : State) : (keyDropped s).rdbk = s.rdbk := rfl
@[simp] theorem keyDropped_inflight (s : State) : (keyDropped s).inflight = s.inflight := rfl
@[simp] theorem keyDropped_inputs (s : State) : (keyDropped s).inputs = s.inputs := rfl
@[simp] theorem keyDropped_heldCmd (s : State) : (keyDropped s).heldCmd = s.heldCmd := rfl
@[simp] theorem keyDropped_heldDin (s : State) : (keyDropped s).heldDin = s.heldDin := rfl
@[simp] theorem keyDropped_traffic (s : State) : (keyDropped s).traffic = s.traffic := rfl

/-! ## storeBlock -/

@[simp] theorem storeBlock_cb (m : Nat) (w : Word) (s : State) : (storeBlock m w s).cb = s.cb := rfl
@[simp] theorem storeBlock_ks (m : Nat) (w : Word) (s : State) : (storeBlock m w s).ks = s.ks := rfl
@[simp] theorem storeBlock_j (m : Nat) (w : Word) (s : State) : (storeBlock m w s).j = s.j := rfl
@[simp] theorem storeBlock_sched (m : Nat) (w : Word) (s : State) : (storeBlock m w s).sched = s.sched := rfl
@[simp] theorem storeBlock_keyValid (m : Nat) (w : Word) (s : State) : (storeBlock m w s).keyValid = s.keyValid := rfl
@[simp] theorem storeBlock_kxErr (m : Nat) (w : Word) (s : State) : (storeBlock m w s).kxErr = s.kxErr := rfl
@[simp] theorem storeBlock_fsm (m : Nat) (w : Word) (s : State) : (storeBlock m w s).fsm = s.fsm := rfl
@[simp] theorem storeBlock_cmd (m : Nat) (w : Word) (s : State) : (storeBlock m w s).cmd = s.cmd := rfl
@[simp] theorem storeBlock_nargs (m : Nat) (w : Word) (s : State) : (storeBlock m w s).nargs = s.nargs := rfl
@[simp] theorem storeBlock_argi (m : Nat) (w : Word) (s : State) : (storeBlock m w s).argi = s.argi := rfl
@[simp] theorem storeBlock_keybuf (m : Nat) (w : Word) (s : State) : (storeBlock m w s).keybuf = s.keybuf := rfl
@[simp] theorem storeBlock_blkbuf (m : Nat) (w : Word) (s : State) : (storeBlock m w s).blkbuf = putWord s.blkbuf m w := rfl
@[simp] theorem storeBlock_len (m : Nat) (w : Word) (s : State) : (storeBlock m w s).len = s.len := rfl
@[simp] theorem storeBlock_i (m : Nat) (w : Word) (s : State) : (storeBlock m w s).i = s.i := rfl
@[simp] theorem storeBlock_outb (m : Nat) (w : Word) (s : State) : (storeBlock m w s).outb = s.outb := rfl
@[simp] theorem storeBlock_rsp (m : Nat) (w : Word) (s : State) : (storeBlock m w s).rsp = s.rsp := rfl
@[simp] theorem storeBlock_rdbk (m : Nat) (w : Word) (s : State) : (storeBlock m w s).rdbk = s.rdbk := rfl
@[simp] theorem storeBlock_inflight (m : Nat) (w : Word) (s : State) : (storeBlock m w s).inflight = s.inflight := rfl
@[simp] theorem storeBlock_inputs (m : Nat) (w : Word) (s : State) : (storeBlock m w s).inputs = s.inputs := rfl
@[simp] theorem storeBlock_heldCmd (m : Nat) (w : Word) (s : State) : (storeBlock m w s).heldCmd = s.heldCmd := rfl
@[simp] theorem storeBlock_heldDin (m : Nat) (w : Word) (s : State) : (storeBlock m w s).heldDin = s.heldDin := rfl
@[simp] theorem storeBlock_traffic (m : Nat) (w : Word) (s : State) : (storeBlock m w s).traffic = s.traffic := rfl

/-! ## storeKey -/

@[simp] theorem storeKey_cb (m : Nat) (w : Word) (s : State) : (storeKey m w s).cb = s.cb := rfl
@[simp] theorem storeKey_ks (m : Nat) (w : Word) (s : State) : (storeKey m w s).ks = s.ks := rfl
@[simp] theorem storeKey_j (m : Nat) (w : Word) (s : State) : (storeKey m w s).j = s.j := rfl
@[simp] theorem storeKey_sched (m : Nat) (w : Word) (s : State) : (storeKey m w s).sched = s.sched := rfl
@[simp] theorem storeKey_keyValid (m : Nat) (w : Word) (s : State) : (storeKey m w s).keyValid = s.keyValid := rfl
@[simp] theorem storeKey_kxErr (m : Nat) (w : Word) (s : State) : (storeKey m w s).kxErr = s.kxErr := rfl
@[simp] theorem storeKey_fsm (m : Nat) (w : Word) (s : State) : (storeKey m w s).fsm = s.fsm := rfl
@[simp] theorem storeKey_cmd (m : Nat) (w : Word) (s : State) : (storeKey m w s).cmd = s.cmd := rfl
@[simp] theorem storeKey_nargs (m : Nat) (w : Word) (s : State) : (storeKey m w s).nargs = s.nargs := rfl
@[simp] theorem storeKey_argi (m : Nat) (w : Word) (s : State) : (storeKey m w s).argi = s.argi := rfl
@[simp] theorem storeKey_keybuf (m : Nat) (w : Word) (s : State) : (storeKey m w s).keybuf = putWord s.keybuf m w := rfl
@[simp] theorem storeKey_blkbuf (m : Nat) (w : Word) (s : State) : (storeKey m w s).blkbuf = s.blkbuf := rfl
@[simp] theorem storeKey_len (m : Nat) (w : Word) (s : State) : (storeKey m w s).len = s.len := rfl
@[simp] theorem storeKey_i (m : Nat) (w : Word) (s : State) : (storeKey m w s).i = s.i := rfl
@[simp] theorem storeKey_outb (m : Nat) (w : Word) (s : State) : (storeKey m w s).outb = s.outb := rfl
@[simp] theorem storeKey_rsp (m : Nat) (w : Word) (s : State) : (storeKey m w s).rsp = s.rsp := rfl
@[simp] theorem storeKey_rdbk (m : Nat) (w : Word) (s : State) : (storeKey m w s).rdbk = s.rdbk := rfl
@[simp] theorem storeKey_inflight (m : Nat) (w : Word) (s : State) : (storeKey m w s).inflight = s.inflight := rfl
@[simp] theorem storeKey_inputs (m : Nat) (w : Word) (s : State) : (storeKey m w s).inputs = s.inputs := rfl
@[simp] theorem storeKey_heldCmd (m : Nat) (w : Word) (s : State) : (storeKey m w s).heldCmd = s.heldCmd := rfl
@[simp] theorem storeKey_heldDin (m : Nat) (w : Word) (s : State) : (storeKey m w s).heldDin = s.heldDin := rfl
@[simp] theorem storeKey_traffic (m : Nat) (w : Word) (s : State) : (storeKey m w s).traffic = s.traffic := rfl

/-! ## storeLen -/

@[simp] theorem storeLen_cb (w : Word) (s : State) : (storeLen w s).cb = s.cb := rfl
@[simp] theorem storeLen_ks (w : Word) (s : State) : (storeLen w s).ks = s.ks := rfl
@[simp] theorem storeLen_j (w : Word) (s : State) : (storeLen w s).j = s.j := rfl
@[simp] theorem storeLen_sched (w : Word) (s : State) : (storeLen w s).sched = s.sched := rfl
@[simp] theorem storeLen_keyValid (w : Word) (s : State) : (storeLen w s).keyValid = s.keyValid := rfl
@[simp] theorem storeLen_kxErr (w : Word) (s : State) : (storeLen w s).kxErr = s.kxErr := rfl
@[simp] theorem storeLen_fsm (w : Word) (s : State) : (storeLen w s).fsm = s.fsm := rfl
@[simp] theorem storeLen_cmd (w : Word) (s : State) : (storeLen w s).cmd = s.cmd := rfl
@[simp] theorem storeLen_nargs (w : Word) (s : State) : (storeLen w s).nargs = s.nargs := rfl
@[simp] theorem storeLen_argi (w : Word) (s : State) : (storeLen w s).argi = s.argi := rfl
@[simp] theorem storeLen_keybuf (w : Word) (s : State) : (storeLen w s).keybuf = s.keybuf := rfl
@[simp] theorem storeLen_blkbuf (w : Word) (s : State) : (storeLen w s).blkbuf = s.blkbuf := rfl
@[simp] theorem storeLen_len (w : Word) (s : State) : (storeLen w s).len = w := rfl
@[simp] theorem storeLen_i (w : Word) (s : State) : (storeLen w s).i = s.i := rfl
@[simp] theorem storeLen_outb (w : Word) (s : State) : (storeLen w s).outb = s.outb := rfl
@[simp] theorem storeLen_rsp (w : Word) (s : State) : (storeLen w s).rsp = s.rsp := rfl
@[simp] theorem storeLen_rdbk (w : Word) (s : State) : (storeLen w s).rdbk = s.rdbk := rfl
@[simp] theorem storeLen_inflight (w : Word) (s : State) : (storeLen w s).inflight = s.inflight := rfl
@[simp] theorem storeLen_inputs (w : Word) (s : State) : (storeLen w s).inputs = s.inputs := rfl
@[simp] theorem storeLen_heldCmd (w : Word) (s : State) : (storeLen w s).heldCmd = s.heldCmd := rfl
@[simp] theorem storeLen_heldDin (w : Word) (s : State) : (storeLen w s).heldDin = s.heldDin := rfl
@[simp] theorem storeLen_traffic (w : Word) (s : State) : (storeLen w s).traffic = s.traffic := rfl

/-! ## advance -/

@[simp] theorem advance_cb (s t : State) : (advance s t).cb = t.cb := rfl
@[simp] theorem advance_ks (s t : State) : (advance s t).ks = t.ks := rfl
@[simp] theorem advance_j (s t : State) : (advance s t).j = t.j := rfl
@[simp] theorem advance_sched (s t : State) : (advance s t).sched = t.sched := rfl
@[simp] theorem advance_keyValid (s t : State) : (advance s t).keyValid = t.keyValid := rfl
@[simp] theorem advance_kxErr (s t : State) : (advance s t).kxErr = t.kxErr := rfl
@[simp] theorem advance_fsm (s t : State) : (advance s t).fsm = t.fsm := rfl
@[simp] theorem advance_cmd (s t : State) : (advance s t).cmd = t.cmd := rfl
@[simp] theorem advance_nargs (s t : State) : (advance s t).nargs = t.nargs := rfl
@[simp] theorem advance_argi (s t : State) : (advance s t).argi = t.argi := rfl
@[simp] theorem advance_keybuf (s t : State) : (advance s t).keybuf = t.keybuf := rfl
@[simp] theorem advance_blkbuf (s t : State) : (advance s t).blkbuf = t.blkbuf := rfl
@[simp] theorem advance_len (s t : State) : (advance s t).len = t.len := rfl
@[simp] theorem advance_i (s t : State) : (advance s t).i = t.i := rfl
@[simp] theorem advance_outb (s t : State) : (advance s t).outb = t.outb := rfl
@[simp] theorem advance_rsp (s t : State) : (advance s t).rsp = t.rsp := rfl
@[simp] theorem advance_rdbk (s t : State) : (advance s t).rdbk = t.rdbk := rfl
@[simp] theorem advance_inflight (s t : State) : (advance s t).inflight = t.inflight := rfl
@[simp] theorem advance_inputs (s t : State) : (advance s t).inputs = s.inputs.tail := rfl
@[simp] theorem advance_heldCmd (s t : State) : (advance s t).heldCmd = if s.ports.cmdReady then none else s.pins.cmd := rfl
@[simp] theorem advance_heldDin (s t : State) : (advance s t).heldDin = if s.ports.dinReady then none else s.pins.din := rfl
@[simp] theorem advance_traffic (s t : State) : (advance s t).traffic = t.traffic := rfl

end Sys2Proof.Machine
end

