-- ==== Sys2Proof/Laws/Ports.lean ====
section
/-! SUPPORT. Bytes read after a write, and when each transfer happens (30_encoding.md R71, R84). -/

namespace Sys2Proof

theorem byteAt_setByte {n : Nat} (b : Vector Byte n) (k m : Nat) (v : Byte) :
    byteAt (setByte b k v) m = if m = k ∧ k < n then v else byteAt b m := by
  unfold byteAt setByte
  rw [Vector.getElem?_setIfInBounds]
  by_cases hk : k = m
  · subst hk
    by_cases hn : k < n <;> simp [hn]
  · have : ¬ m = k := fun h => hk h.symm
    simp [hk, this]

@[simp] theorem byteAt_zeroBlock (m : Nat) : byteAt zeroBlock m = 0#8 := by
  unfold byteAt zeroBlock
  by_cases h : m < 16 <;> simp [h]

@[simp] theorem byteAt_zeroKey (m : Nat) : byteAt zeroKey m = 0#8 := by
  unfold byteAt zeroKey
  by_cases h : m < 32 <;> simp [h]

/-- Two byte strings are equal when all their bytes are. -/
theorem bytes_ext {n : Nat} {a b : Vector Byte n} (h : ∀ m, m < n → byteAt a m = byteAt b m) : a = b := by
  ext m hm : 1
  have := h m hm
  simpa [byteAt, hm] using this

namespace Machine

theorem cmdIn_eq_some {s : State} {w : Word} :
    cmdIn s = some w ↔ s.pins.rstN = true ∧ takesWord s.fsm = true ∧ s.pins.cmd = some w := by
  unfold cmdIn State.ports
  cases s.pins.rstN <;> cases takesWord s.fsm <;> simp

theorem rspOut_eq_some {s : State} {w : Word} :
    rspOut s = some w ↔ s.pins.rstN = true ∧ s.pins.rspReady = true ∧ rspOffer s = some w := by
  unfold rspOut State.ports
  cases s.pins.rstN <;> cases s.pins.rspReady <;> simp

theorem dataIn_eq_some {s : State} {b : Byte} :
    dataIn s = some b ↔ s.pins.rstN = true ∧ s.fsm = .xcByte ∧ s.pins.din = some b := by
  unfold dataIn State.ports
  cases s.pins.rstN <;> by_cases h : s.fsm = .xcByte <;> simp [h]

theorem dataOut_eq_some {s : State} {b : Byte} :
    dataOut s = some b ↔ s.pins.rstN = true ∧ s.pins.doutReady = true ∧ s.fsm = .xcOut ∧ b = s.outb := by
  unfold dataOut State.ports
  cases s.pins.rstN <;> cases s.pins.doutReady <;> by_cases h : s.fsm = .xcOut <;> simp [h, eq_comm]

theorem cipherReq_eq_some {s : State} {r : CphReq} :
    cipherReq s = some r ↔ s.pins.rstN = true ∧ s.pins.cphReqReady = true ∧ reqOffer s = some r := by
  unfold cipherReq State.ports
  cases s.pins.rstN <;> cases s.pins.cphReqReady <;> simp

theorem cipherRsp_eq_some {s : State} {r : CphRsp} :
    cipherRsp s = some r ↔ s.pins.rstN = true ∧ takesCipherRsp s.fsm = true ∧ s.pins.cphRsp = some r := by
  unfold cipherRsp State.ports
  cases s.pins.rstN <;> cases takesCipherRsp s.fsm <;> simp

end Machine

end Sys2Proof
end

