-- ==== Sys2Proof/Laws/Ops.lean ====
section
/-! SUPPORT. What each shared operation can do, said once. -/

namespace Sys2Proof.Machine

/-! ## The data lines of the collaborator port (30_encoding.md R70) -/

/-- Bytes read as one number: what stands in front counts above all of them. -/
theorem foldl_bytes (l : List Byte) (a : Nat) :
    l.foldl (fun acc x => 256 * acc + x.toNat) a =
      a * 256 ^ l.length + l.foldl (fun acc x => 256 * acc + x.toNat) 0 := by
  induction l generalizing a with
  | nil => simp
  | cons x xs ih =>
    simp only [List.foldl_cons, List.length_cons]
    rw [ih (256 * a + x.toNat), ih (256 * 0 + x.toNat)]
    ring

theorem foldl_bytes_lt (l : List Byte) : l.foldl (fun acc x => 256 * acc + x.toNat) 0 < 256 ^ l.length := by
  induction l with
  | nil => simp
  | cons x xs ih =>
    simp only [List.foldl_cons, List.length_cons]
    rw [foldl_bytes, pow_succ]
    nlinarith only [ih, x.isLt]

theorem foldl_bytes_digit (l : List Byte) (k : Nat) (h : k < l.length) :
    l.foldl (fun acc x => 256 * acc + x.toNat) 0 / 256 ^ (l.length - 1 - k) % 256 = (l[k]).toNat := by
  induction l generalizing k with
  | nil => simp at h
  | cons x xs ih =>
    simp only [List.foldl_cons, List.length_cons]
    rw [foldl_bytes]
    cases k with
    | zero =>
      have hx := x.isLt
      simp only [Nat.mul_zero, Nat.zero_add, Nat.add_sub_cancel, Nat.sub_zero, List.getElem_cons_zero]
      rw [Nat.mul_comm, Nat.mul_add_div (by positivity), Nat.div_eq_of_lt (foldl_bytes_lt xs)]
      omega
    | succ k =>
      have hk : k < xs.length := by simpa using h
      have e : xs.length + 1 - 1 - (k + 1) = xs.length - 1 - k := by omega
      have hd : 256 ^ xs.length = 256 ^ (xs.length - 1 - k) * (256 ^ k * 256) := by
        rw [← pow_succ, ← pow_add]
        congr 1
        omega
      rw [e, List.getElem_cons_succ, ← ih k hk, hd]
      generalize xs.foldl (fun acc x => 256 * acc + x.toNat) 0 = m
      rw [show (256 * 0 + x.toNat) * (256 ^ (xs.length - 1 - k) * (256 ^ k * 256)) =
        256 ^ (xs.length - 1 - k) * (256 * (x.toNat * 256 ^ k)) by ring, Nat.mul_add_div (by positivity)]
      omega

/-- A byte string as a number is below 256 to its length. -/
theorem bytesNat_lt {n : Nat} (b : Vector Byte n) : bytesNat b < 256 ^ n := by
  simpa [bytesNat] using foldl_bytes_lt b.toList

/-- Byte k of that number, byte 0 highest. -/
theorem bytesNat_byte {n : Nat} (b : Vector Byte n) (k : Nat) (h : k < n) :
    bytesNat b / 256 ^ (n - 1 - k) % 256 = (byteAt b k).toNat := by
  have := foldl_bytes_digit b.toList k (by simpa using h)
  simpa [bytesNat, byteAt, h] using this

/-- Byte k of a block on the data lines. -/
theorem blockBits_byte (b : Block) (k : Nat) (h : k < 16) :
    (blockBits b).extractLsb' (120 - 8 * k) 8 = byteAt b k := by
  have hlt : bytesNat b < 2 ^ 128 := by simpa using bytesNat_lt b
  apply BitVec.eq_of_toNat_eq
  simp only [blockBits, BitVec.extractLsb'_toNat, BitVec.toNat_ofNat, Nat.shiftRight_eq_div_pow]
  rw [Nat.mod_eq_of_lt hlt, ← bytesNat_byte b k h, show 120 - 8 * k = 8 * (16 - 1 - k) by omega, pow_mul]
  norm_num

/-- Byte k of the block taken from the data lines. -/
theorem byteAt_bitsBlock (d : BitVec 128) (k : Nat) (h : k < 16) :
    byteAt (bitsBlock d) k = d.extractLsb' (120 - 8 * k) 8 := by
  simp [byteAt, bitsBlock, h]

/-- Packing a block on the data lines and unpacking it gives the block. -/
theorem bitsBlock_blockBits (b : Block) : bitsBlock (blockBits b) = b :=
  bytes_ext fun k h => by rw [byteAt_bitsBlock _ k h, blockBits_byte b k h]

/-! ## The operations -/

/-- Taking a command word: nothing offered, arguments still to come, or the command's effect at once. -/
theorem takeCommand_cases (i : Instr) (done : State → State) (s : State) :
    (cmdIn s = none ∧ takeCommand i done s = s) ∨
    (∃ w, cmdIn s = some w ∧ nargs i = 0 ∧
      takeCommand i done s = done { s with cmd := instrCmd i, traffic := s.traffic ++ [.cmdIn w] }) ∨
    (∃ w, cmdIn s = some w ∧ 0 < nargs i ∧
      takeCommand i done s =
        { s with
          cmd := instrCmd i, nargs := nargs i, argi := 0, fsm := .args, traffic := s.traffic ++ [.cmdIn w] }) := by
  unfold takeCommand
  cases h : cmdIn s with
  | none => exact .inl ⟨rfl, rfl⟩
  | some w =>
    by_cases hn : nargs i = 0
    · exact .inr (.inl ⟨w, rfl, hn, by simp [hn, note]⟩)
    · exact .inr (.inr ⟨w, rfl, Nat.pos_of_ne_zero hn, by simp [hn, note]⟩)

/-- Taking an argument word: nothing offered, the last word with the command's effect, or a word before the last. -/
theorem takeArgument_cases (store : Word → State → State) (done : State → State) (s : State) :
    (cmdIn s = none ∧ takeArgument store done s = s) ∨
    (∃ w, cmdIn s = some w ∧ s.nargs ≤ 1 ∧
      takeArgument store done s = done (note (.cmdIn w) { store w s with nargs := 0, argi := 0 })) ∨
    (∃ w, cmdIn s = some w ∧ 1 < s.nargs ∧
      takeArgument store done s =
        note (.cmdIn w) { store w s with nargs := s.nargs - 1, argi := s.argi + 1 }) := by
  unfold takeArgument
  cases h : cmdIn s with
  | none => exact .inl ⟨rfl, rfl⟩
  | some w =>
    by_cases hn : s.nargs ≤ 1
    · exact .inr (.inl ⟨w, rfl, hn, by simp [hn]⟩)
    · exact .inr (.inr ⟨w, rfl, by omega, by simp [hn]⟩)

/-- Giving a response: not taken, the last read-back word, a read-back word before it, a GETBLK's response, or the end. -/
theorem takeResponse_cases (s : State) :
    (rspOut s = none ∧ takeResponse s = s) ∨
    (∃ w, rspOut s = some w ∧ s.fsm = .rdbk ∧ s.rdbk ≤ 1 ∧
      takeResponse s = note (.rspOut w) { s with rdbk := 0, fsm := .idle }) ∨
    (∃ w, rspOut s = some w ∧ s.fsm = .rdbk ∧ 1 < s.rdbk ∧
      takeResponse s = note (.rspOut w) { s with rdbk := s.rdbk - 1 }) ∨
    (∃ w, rspOut s = some w ∧ s.fsm = .resp ∧ readsBack s = true ∧
      takeResponse s = note (.rspOut w) { s with rsp := 0#32, rdbk := 4, fsm := .rdbk }) ∨
    (∃ w, rspOut s = some w ∧ s.fsm = .resp ∧ readsBack s = false ∧
      takeResponse s = note (.rspOut w) { s with rsp := 0#32, fsm := .idle }) := by
  unfold takeResponse
  cases h : rspOut s with
  | none => exact .inl ⟨rfl, rfl⟩
  | some w =>
    have ho := (rspOut_eq_some.mp h).2.2
    by_cases hf : s.fsm = .rdbk
    · by_cases hr : s.rdbk ≤ 1
      · exact .inr (.inl ⟨w, rfl, hf, hr, by simp [hf, hr]⟩)
      · exact .inr (.inr (.inl ⟨w, rfl, hf, by omega, by simp [hf, hr]⟩))
    · have hp : s.fsm = .resp := by
        unfold rspOffer at ho
        split at ho <;> simp_all
      cases hb : readsBack s with
      | true => exact .inr (.inr (.inr (.inl ⟨w, rfl, hp, rfl, by simp [hf]⟩)))
      | false => exact .inr (.inr (.inr (.inr ⟨w, rfl, hp, rfl, by simp [hf]⟩)))

/-- Sending a request: not taken, or the request on offer goes out. -/
theorem sendRequest_cases (taken : State → State) (s : State) :
    (cipherReq s = none ∧ sendRequest taken s = s) ∨
    (∃ r, cipherReq s = some r ∧
      sendRequest taken s =
        note (.cipherReq r) (taken { s with inflight := some r, fsm := .cphRsp r.op })) := by
  unfold sendRequest
  cases h : cipherReq s with
  | none => exact .inl ⟨rfl, rfl⟩
  | some r => exact .inr ⟨r, rfl, rfl⟩

/-- The ENC response: none, an error and a fault, or the keystream loaded. -/
theorem clockResponse_cases (s : State) :
    clockResponse s = .next s ∨
    (∃ r x, cipherRsp s = some r ∧ r.err = true ∧ s.inflight = some (.enc x) ∧
      clockResponse s = .fault .cipherContract) ∨
    (∃ r x, cipherRsp s = some r ∧ r.err = false ∧ s.inflight = some (.enc x) ∧
      clockResponse s = .next (loadKeystream x r.data s)) := by
  unfold clockResponse
  split
  case h_1 r x hr hx =>
    cases he : r.err with
    | true => exact .inr (.inl ⟨r, x, hr, he, hx, rfl⟩)
    | false => exact .inr (.inr ⟨r, x, hr, he, hx, rfl⟩)
  case h_2 => exact .inl rfl

/-- The block loaded under a valid key is `E(SCHED, x)`, whatever the collaborator would drive (R125). -/
theorem keystreamBlock_keyed {x : Block} {d : BitVec 128} {s : State} {k : Sched} (h : clockSched s = some k) :
    keystreamBlock x d s = Config.encryptBlock k x := by
  rw [keystreamBlock, answerBits, h]
  exact bitsBlock_blockBits _

/-- The block loaded without a valid key is the one on the data lines (R125). -/
theorem keystreamBlock_free {x : Block} {d : BitVec 128} {s : State} (h : clockSched s = none) :
    keystreamBlock x d s = bitsBlock d := by
  rw [keystreamBlock, answerBits, h]

/-- The EXPAND response: none, or the key state and the end of the INIT. -/
theorem finishExpand_cases (dp : Bool) (s : State) :
    finishExpand dp s = s ∨
    ∃ r key, cipherRsp s = some r ∧ s.inflight = some (.expand key) ∧
      finishExpand dp s =
        note (.cipherErr .expand r.err) (finishInit dp (keyExpanded r.err key { s with inflight := none })) := by
  unfold finishExpand
  split
  · exact .inr ⟨_, _, by assumption, by assumption, rfl⟩
  · exact .inl rfl

/-- The WIPE response: none, or the key dropped and the error bit reported. -/
theorem finishWipe_cases (s : State) :
    finishWipe s = s ∨
    ∃ r, cipherRsp s = some r ∧ s.inflight = some .wipe ∧
      finishWipe s =
        note (.cipherErr .wipe r.err)
          (respond (if r.err then .wipeFailed else .ok) (keyDropped { s with inflight := none })) := by
  unfold finishWipe
  split
  · exact .inr ⟨_, by assumption, by assumption, by split <;> rfl⟩
  · exact .inl rfl

/-- The DataIn edge: no byte offered, or the byte XORed and its keystream byte erased. -/
theorem xorByte_cases (s : State) :
    (dataIn s = none ∧ xorByte s = s) ∨
    ∃ b, dataIn s = some b ∧
      xorByte s =
        { s with
          outb := b ^^^ byteAt s.ks s.j.toNat
          ks := setByte s.ks s.j.toNat 0#8
          j := s.j + 1#5
          fsm := .xcOut
          traffic := s.traffic ++ [.dataIn b] } := by
  unfold xorByte
  cases h : dataIn s with
  | none => exact .inl ⟨rfl, rfl⟩
  | some b => exact .inr ⟨b, rfl, rfl⟩

/-- The DataOut edge: not taken, the end of the call, a fresh clock, or the next byte. -/
theorem giveByte_cases (s : State) :
    (dataOut s = none ∧ giveByte s = s) ∨
    (∃ b, dataOut s = some b ∧ s.i + 1#32 = s.len ∧ giveByte s = note (.dataOut b) (endCall s)) ∨
    (∃ b, dataOut s = some b ∧ s.i + 1#32 ≠ s.len ∧ s.j = 16#5 ∧
      giveByte s = note (.dataOut b) { s with i := s.i + 1#32, fsm := .cphReq .enc }) ∨
    (∃ b, dataOut s = some b ∧ s.i + 1#32 ≠ s.len ∧ s.j ≠ 16#5 ∧
      giveByte s = note (.dataOut b) { s with i := s.i + 1#32, fsm := .xcByte }) := by
  unfold giveByte
  cases h : dataOut s with
  | none => exact .inl ⟨rfl, rfl⟩
  | some b =>
    by_cases hl : s.i + 1#32 = s.len
    · exact .inr (.inl ⟨b, rfl, hl, by simp [hl]⟩)
    · by_cases hj : s.j = 16#5
      · exact .inr (.inr (.inl ⟨b, rfl, hl, hj, by simp [hl, hj]⟩))
      · exact .inr (.inr (.inr ⟨b, rfl, hl, hj, by simp [hl, hj]⟩))

end Sys2Proof.Machine
end

