-- ==== Sys2Proof/Laws/Step.lean ====
section
/-! SUPPORT. What one step can do, and what each command's next edge can do, said once. -/

namespace Sys2Proof.Machine

@[simp] theorem mapNext_next (f : State → State) (s : State) : mapNext f (.next s) = .next (f s) := rfl

theorem mapNext_eq_next {f : State → State} {o : Host.Outcome State Fault Refusal} {t : State}
    (h : mapNext f o = .next t) : ∃ u, o = .next u ∧ t = f u := by
  cases o with
  | next u => exact ⟨u, rfl, by simpa using h.symm⟩
  | fault r => cases h
  | refused r => cases h

/-- A step with a next state: a reset edge, or an edge of the engine at which every agent keeps its contract. -/
theorem step_cases {s t : State} (h : step s = .next t) :
    (s.pins.rstN = false ∧ t = resetEdge s) ∨
    (s.pins.rstN = true ∧ contractBreach s = none ∧ ∃ u, engineEdge s = .next u ∧ t = advance s u) := by
  unfold step at h
  cases hr : s.pins.rstN with
  | false => exact .inl ⟨rfl, by simpa [hr] using h.symm⟩
  | true =>
    rw [hr] at h
    cases hc : contractBreach s with
    | none => exact .inr ⟨rfl, rfl, mapNext_eq_next (by simpa [hc] using h)⟩
    | some r => simp [hc] at h

/-- An edge of the engine: a command's, an illegal word, the response of an illegal word, or no word in IDLE. -/
theorem engineEdge_cases (s : State) :
    (∃ i, work s = .run i ∧ engineEdge s = exec i s) ∨
    (∃ w, work s = .illegal w ∧ engineEdge s = .next (illegalCommand w s)) ∨
    (work s = .reply ∧ engineEdge s = .next (takeResponse s)) ∨
    (work s = .wait ∧ engineEdge s = .next s) := by
  unfold engineEdge
  cases h : work s with
  | run i => exact .inl ⟨i, rfl, rfl⟩
  | illegal w => exact .inr (.inl ⟨w, rfl, rfl⟩)
  | reply => exact .inr (.inr (.inl ⟨rfl, rfl⟩))
  | wait => exact .inr (.inr (.inr ⟨rfl, rfl⟩))

/-- Which command an edge belongs to. -/
theorem work_cases (s : State) :
    (s.fsm = .idle ∧ cmdIn s = none ∧ work s = .wait) ∨
    (∃ w i, s.fsm = .idle ∧ cmdIn s = some w ∧ decode w = .ok i ∧ work s = .run i) ∨
    (∃ w e, s.fsm = .idle ∧ cmdIn s = some w ∧ decode w = .error e ∧ work s = .illegal w) ∨
    (∃ i, s.fsm ≠ .idle ∧ cmdInstr s.cmd = some i ∧ work s = .run i) ∨
    (s.fsm ≠ .idle ∧ cmdInstr s.cmd = none ∧ work s = .reply) := by
  unfold work
  by_cases hf : s.fsm = .idle
  · cases hc : cmdIn s with
    | none => exact .inl ⟨hf, rfl, by simp [hf]⟩
    | some w =>
      cases hd : decode w with
      | ok i => exact .inr (.inl ⟨w, i, hf, rfl, hd, by simp [hf, hd]⟩)
      | error e => exact .inr (.inr (.inl ⟨w, e, hf, rfl, hd, by simp [hf, hd]⟩))
  · cases hi : cmdInstr s.cmd with
    | some i => exact .inr (.inr (.inr (.inl ⟨i, hf, rfl, by simp [hf]⟩)))
    | none => exact .inr (.inr (.inr (.inr ⟨hf, rfl, by simp [hf]⟩)))

/-- INIT's next edge, by control state. -/
theorem execInit_cases {kp dp : Bool} {s t : State} (h : exec (.init kp dp) s = .next t) :
    (s.fsm = .idle ∧ t = takeCommand (.init kp dp) (startInit kp dp) s) ∨
    (s.fsm = .args ∧ t = takeArgument (storeInitArg kp) (startInit kp dp) s) ∨
    (s.fsm = .cphReq .expand ∧ t = sendRequest (fun t => { t with keybuf := zeroKey }) s) ∨
    (s.fsm = .cphRsp .expand ∧ t = finishExpand dp s) ∨
    (s.fsm = .resp ∧ t = takeResponse s) ∨ t = s := by
  simp only [exec, execInit] at h
  split at h <;> simp_all

/-- SETBLK's next edge, by control state. -/
theorem execSetblk_cases {ep dp : Bool} {s t : State} (h : exec (.setblk ep dp) s = .next t) :
    (s.fsm = .idle ∧ t = takeCommand (.setblk ep dp) (finishSetblk ep dp) s) ∨
    (s.fsm = .args ∧ t = takeArgument storeSetblkArg (finishSetblk ep dp) s) ∨
    (s.fsm = .resp ∧ t = takeResponse s) ∨ t = s := by
  simp only [exec, execSetblk] at h
  split at h <;> simp_all

/-- XCRYPT's next edge, by control state. -/
theorem execXcrypt_cases {ep dp : Bool} {s t : State} (h : exec (.xcrypt ep dp) s = .next t) :
    (s.fsm = .idle ∧ t = takeCommand (.xcrypt ep dp) (startCall ep dp) s) ∨
    (s.fsm = .args ∧ t = takeArgument storeLen (startCall ep dp) s) ∨
    (s.fsm = .cphReq .enc ∧ t = clockRequest s) ∨
    (s.fsm = .cphRsp .enc ∧ ∃ r x, cipherRsp s = some r ∧ r.err = false ∧ s.inflight = some (.enc x) ∧
      t = loadKeystream x r.data s) ∨
    (s.fsm = .xcByte ∧ t = xorByte s) ∨
    (s.fsm = .xcOut ∧ t = giveByte s) ∨
    (s.fsm = .resp ∧ t = takeResponse s) ∨ t = s := by
  simp only [exec, execXcrypt] at h
  split at h
  case h_4 hf =>
    rcases clockResponse_cases s with h1 | ⟨r, x, _, _, _, h1⟩ | ⟨r, x, h2, h3, h4, h1⟩
    · rw [h1] at h
      simp_all
    · rw [h1] at h
      cases h
    · rw [h1] at h
      simp_all
  all_goals simp_all

/-- TEARDOWN's next edge, by control state. -/
theorem execTeardown_cases {ep : Bool} {s t : State} (h : exec (.teardown ep) s = .next t) :
    (s.fsm = .idle ∧ t = takeCommand (.teardown ep) (startTeardown ep) s) ∨
    (s.fsm = .cphReq .wipe ∧ t = sendRequest id s) ∨
    (s.fsm = .cphRsp .wipe ∧ t = finishWipe s) ∨
    (s.fsm = .resp ∧ t = takeResponse s) ∨ t = s := by
  simp only [exec, execTeardown] at h
  split at h <;> simp_all

/-- GETBLK's next edge, by control state. -/
theorem execGetblk_cases {ep : Bool} {s t : State} (h : exec (.getblk ep) s = .next t) :
    (s.fsm = .idle ∧ t = takeCommand (.getblk ep) (finishGetblk ep) s) ∨
    ((s.fsm = .resp ∨ s.fsm = .rdbk) ∧ t = takeResponse s) ∨ t = s := by
  simp only [exec, execGetblk] at h
  split at h <;> simp_all

/-- The host's run of the machine is `run`. -/
theorem core_run_eq_run (n : Nat) (s : State) : Host.Core.run Sys2Proof.core n s = run n s := by
  induction n generalizing s with
  | zero => rfl
  | succ n ih =>
    have hs : Sys2Proof.core.step s = step s := rfl
    simp only [Host.Core.run, run, hs]
    cases step s with
    | next t => exact ih t
    | fault r => rfl
    | refused r => rfl

end Sys2Proof.Machine
end

