-- ==== Sys2Proof/Laws/Move.lean ====
section
/-! SUPPORT. Every edge of the engine, said once: `engineEdge_move` gives the one way an edge with `rst_n = 1` can change
the state, written out field by field. Proofs about every step take it apart by cases instead of unfolding `step`. -/

namespace Sys2Proof.Machine

/-- Where the argument word of a command goes. -/
def storeArg (i : Instr) (w : Word) (s : State) : State :=
  match i with
  | .init kp _ => storeInitArg kp w s
  | .setblk _ _ => storeSetblkArg w s
  | .xcrypt _ _ => storeLen w s
  | .teardown _ => s
  | .getblk _ => s

/-- Where the argument word of an INIT goes, said once. -/
theorem storeInitArg_cases (kp : Bool) (w : Word) (s : State) :
    (kp = true ∧ s.argi < 8 ∧ storeInitArg kp w s = { s with keybuf := putWord s.keybuf s.argi w }) ∨
    (¬ (kp = true ∧ s.argi < 8) ∧
      storeInitArg kp w s = { s with blkbuf := putWord s.blkbuf (s.argi - 8 * kp.toNat) w }) := by
  by_cases h : kp = true ∧ s.argi < 8
  · exact .inl ⟨h.1, h.2, by simp [storeInitArg, h, storeKey]⟩
  · exact .inr ⟨h, by simp [storeInitArg, h, storeBlock]⟩

/-- An argument word changes KEYBUF, BLKBUF and LEN at most. -/
theorem storeArg_frame (i : Instr) (w : Word) (s : State) :
    storeArg i w s =
      { s with keybuf := (storeArg i w s).keybuf, blkbuf := (storeArg i w s).blkbuf, len := (storeArg i w s).len } := by
  cases i with
  | init kp dp =>
    simp only [storeArg]
    rcases storeInitArg_cases kp w s with ⟨_, _, e⟩ | ⟨_, e⟩ <;> rw [e]
  | _ => rfl

/-- Only an INIT with a key writes KEYBUF. -/
theorem storeArg_keybuf (i : Instr) (w : Word) (s : State) :
    (storeArg i w s).keybuf = s.keybuf ∨ ∃ dp, i = .init true dp := by
  cases i with
  | init kp dp =>
    cases kp with
    | true => exact .inr ⟨dp, rfl⟩
    | false => exact .inl rfl
  | _ => exact .inl rfl

/-- Only an XCRYPT writes LEN. -/
theorem storeArg_len (i : Instr) (w : Word) (s : State) :
    (storeArg i w s).len = s.len ∨ ∃ ep dp, i = .xcrypt ep dp ∧ (storeArg i w s).len = w := by
  cases i with
  | init kp dp =>
    refine .inl ?_
    simp only [storeArg]
    rcases storeInitArg_cases kp w s with ⟨_, _, e⟩ | ⟨_, e⟩ <;> rw [e]
  | xcrypt ep dp => exact .inr ⟨ep, dp, rfl, rfl⟩
  | _ => exact .inl rfl

/-! ## What each command does once its arguments are in -/

/-- An argument word before the last. -/
theorem storeArg_more (i : Instr) (w : Word) (s : State) :
    note (.cmdIn w) { storeArg i w s with nargs := s.nargs - 1, argi := s.argi + 1 } =
      { s with
        keybuf := (storeArg i w s).keybuf, blkbuf := (storeArg i w s).blkbuf, len := (storeArg i w s).len
        nargs := s.nargs - 1, argi := s.argi + 1, traffic := s.traffic ++ [.cmdIn w] } := by
  generalize hu : storeArg i w s = u
  have hs := storeArg_frame i w s
  rw [hu] at hs
  rw [hs]
  rfl

/-- The last argument word. -/
theorem storeArg_last (i : Instr) (w : Word) (s : State) :
    note (.cmdIn w) { storeArg i w s with nargs := 0, argi := 0 } =
      { s with
        keybuf := (storeArg i w s).keybuf, blkbuf := (storeArg i w s).blkbuf, len := (storeArg i w s).len
        nargs := 0, argi := 0, traffic := s.traffic ++ [.cmdIn w] } := by
  generalize hu : storeArg i w s = u
  have hs := storeArg_frame i w s
  rw [hu] at hs
  rw [hs]
  rfl

theorem startInit_key (dp : Bool) (s : State) :
    startInit true dp s = { s with kxErr := false, fsm := .cphReq .expand } := rfl

theorem startInit_noKey (dp : Bool) (s : State) :
    startInit false dp s =
      { s with
        kxErr := false, keyValid := false, sched := none
        cb := if dp then s.blkbuf else zeroBlock
        ks := zeroBlock, j := 16#5, i := 0#32
        rsp := responseWord .ok s.cmd.op false false
        fsm := .resp } := rfl

theorem finishInit_expanded (dp err : Bool) (key : Key) (s : State) :
    finishInit dp (keyExpanded err key { s with inflight := none }) =
      { s with
        keyValid := !err
        kxErr := if err then true else s.kxErr
        sched := if err then none else some (Config.expandKey key)
        cb := if dp then s.blkbuf else zeroBlock
        ks := zeroBlock, j := 16#5, i := 0#32
        inflight := none
        rsp := responseWord .ok s.cmd.op (!err) (if err then true else s.kxErr)
        fsm := .resp } := by
  cases err <;> rfl

theorem finishSetblk_present (s : State) :
    finishSetblk true true s =
      { s with cb := s.blkbuf, rsp := responseWord .ok s.cmd.op s.keyValid s.kxErr, fsm := .resp } := rfl

theorem finishSetblk_absent {ep dp : Bool} (h : (ep && dp) = false) (s : State) :
    finishSetblk ep dp s =
      { s with rsp := responseWord .invalidArg s.cmd.op s.keyValid s.kxErr, fsm := .resp } := by
  simp only [finishSetblk, h]
  rfl

theorem startCall_absent {ep dp : Bool} (h : (ep && dp) = false) (s : State) :
    startCall ep dp s =
      { s with rsp := responseWord .invalidArg s.cmd.op s.keyValid s.kxErr, fsm := .resp } := by
  simp only [startCall, h]
  rfl

theorem startCall_empty {s : State} (h : s.len = 0#32) :
    startCall true true s =
      { s with
        ks := zeroBlock, j := 16#5, i := 0#32
        rsp := responseWord .ok s.cmd.op s.keyValid s.kxErr
        fsm := .resp } := by
  simp only [startCall, h, Bool.and_self, if_true, endCall, respond, clearPath, response]

theorem startCall_begin {s : State} (h : s.len ≠ 0#32) :
    startCall true true s = { s with j := 16#5, i := 0#32, fsm := .cphReq .enc } := by
  simp only [startCall, h, Bool.and_self, if_true, if_false]

theorem startTeardown_present (s : State) : startTeardown true s = { s with fsm := .cphReq .wipe } := rfl

theorem startTeardown_absent (s : State) :
    startTeardown false s =
      { s with rsp := responseWord .invalidArg s.cmd.op s.keyValid s.kxErr, fsm := .resp } := rfl

theorem finishGetblk_present (s : State) :
    finishGetblk true s = { s with rsp := responseWord .ok s.cmd.op s.keyValid s.kxErr, fsm := .resp } := rfl

theorem finishGetblk_absent (s : State) :
    finishGetblk false s =
      { s with rsp := responseWord .invalidArg s.cmd.op s.keyValid s.kxErr, fsm := .resp } := rfl

theorem endCall_eq (s : State) :
    endCall s =
      { s with
        ks := zeroBlock, j := 16#5, i := 0#32
        rsp := responseWord .ok s.cmd.op s.keyValid s.kxErr
        fsm := .resp } := rfl

theorem keyDropped_respond (c : Code) (s : State) :
    respond c (keyDropped { s with inflight := none }) =
      { s with
        keyValid := false, sched := none, inflight := none
        rsp := responseWord c s.cmd.op false s.kxErr
        fsm := .resp } := rfl

/-- The ways the engine can move at an edge. -/
inductive Move (s : State) : State → Prop where
  /-- No transfer. -/
  | stay : Move s s
  | illegal (w : Word) (e : Reject) (hf : s.fsm = .idle) (hc : cmdIn s = some w) (hd : decode w = .error e) :
      Move s
        { s with
          cmd := { op := w.extractLsb' 0 4, ep := false, dp := false, kp := false }
          rsp := responseWord .illegalCmd (w.extractLsb' 0 4) s.keyValid s.kxErr
          fsm := .resp
          traffic := s.traffic ++ [.cmdIn w] }
  /-- A command word with argument words to come. -/
  | awaitArgs (i : Instr) (w : Word) (hf : s.fsm = .idle) (hc : cmdIn s = some w) (hd : decode w = .ok i)
      (hn : 0 < nargs i) :
      Move s
        { s with
          cmd := instrCmd i, nargs := nargs i, argi := 0, fsm := .args, traffic := s.traffic ++ [.cmdIn w] }
  /-- `INIT -, -`. -/
  | initNothing (w : Word) (hf : s.fsm = .idle) (hc : cmdIn s = some w) (hd : decode w = .ok (.init false false)) :
      Move s
        { s with
          cmd := instrCmd (.init false false)
          kxErr := false, keyValid := false, sched := none
          cb := zeroBlock, ks := zeroBlock, j := 16#5, i := 0#32
          rsp := responseWord .ok 1#4 false false
          fsm := .resp
          traffic := s.traffic ++ [.cmdIn w] }
  /-- INVALID_ARG at the command word. -/
  | absentAtOnce (i : Instr) (w : Word) (hf : s.fsm = .idle) (hc : cmdIn s = some w) (hd : decode w = .ok i)
      (hi : (∃ ep, i = .setblk ep false) ∨ (∃ ep, i = .xcrypt ep false) ∨ i = .teardown false ∨ i = .getblk false) :
      Move s
        { s with
          cmd := instrCmd i
          rsp := responseWord .invalidArg i.fields.op s.keyValid s.kxErr
          fsm := .resp
          traffic := s.traffic ++ [.cmdIn w] }
  | askWipe (w : Word) (hf : s.fsm = .idle) (hc : cmdIn s = some w) (hd : decode w = .ok (.teardown true)) :
      Move s
        { s with cmd := instrCmd (.teardown true), fsm := .cphReq .wipe, traffic := s.traffic ++ [.cmdIn w] }
  | answerGetblk (w : Word) (hf : s.fsm = .idle) (hc : cmdIn s = some w) (hd : decode w = .ok (.getblk true)) :
      Move s
        { s with
          cmd := instrCmd (.getblk true)
          rsp := responseWord .ok 5#4 s.keyValid s.kxErr
          fsm := .resp
          traffic := s.traffic ++ [.cmdIn w] }
  /-- An argument word before the last. -/
  | storeOne (i : Instr) (w : Word) (hf : s.fsm = .args) (hi : cmdInstr s.cmd = some i) (hc : cmdIn s = some w)
      (hn : 1 < s.nargs) :
      Move s
        { s with
          keybuf := (storeArg i w s).keybuf, blkbuf := (storeArg i w s).blkbuf, len := (storeArg i w s).len
          nargs := s.nargs - 1, argi := s.argi + 1, traffic := s.traffic ++ [.cmdIn w] }
  /-- The last argument word of an INIT with a key. -/
  | askExpand (dp : Bool) (w : Word) (hf : s.fsm = .args) (hi : cmdInstr s.cmd = some (.init true dp))
      (hc : cmdIn s = some w) (hn : s.nargs ≤ 1) :
      Move s
        { s with
          keybuf := (storeArg (.init true dp) w s).keybuf, blkbuf := (storeArg (.init true dp) w s).blkbuf
          nargs := 0, argi := 0, kxErr := false, fsm := .cphReq .expand, traffic := s.traffic ++ [.cmdIn w] }
  /-- The last argument word of an INIT without a key. -/
  | initBlock (dp : Bool) (w : Word) (hf : s.fsm = .args) (hi : cmdInstr s.cmd = some (.init false dp))
      (hc : cmdIn s = some w) (hn : s.nargs ≤ 1) :
      Move s
        { s with
          blkbuf := putWord s.blkbuf s.argi w
          nargs := 0, argi := 0, kxErr := false, keyValid := false, sched := none
          cb := if dp then putWord s.blkbuf s.argi w else zeroBlock
          ks := zeroBlock, j := 16#5, i := 0#32
          rsp := responseWord .ok s.cmd.op false false
          fsm := .resp
          traffic := s.traffic ++ [.cmdIn w] }
  | setBlock (w : Word) (hf : s.fsm = .args) (hi : cmdInstr s.cmd = some (.setblk true true))
      (hc : cmdIn s = some w) (hn : s.nargs ≤ 1) :
      Move s
        { s with
          blkbuf := putWord s.blkbuf s.argi w, cb := putWord s.blkbuf s.argi w
          nargs := 0, argi := 0
          rsp := responseWord .ok s.cmd.op s.keyValid s.kxErr
          fsm := .resp
          traffic := s.traffic ++ [.cmdIn w] }
  /-- INVALID_ARG after the last argument word. -/
  | absentAfterArgs (i : Instr) (w : Word) (hf : s.fsm = .args) (hi : cmdInstr s.cmd = some i)
      (hk : (∃ ep dp, i = .setblk ep dp ∧ (ep && dp) = false) ∨ (∃ ep dp, i = .xcrypt ep dp ∧ (ep && dp) = false))
      (hc : cmdIn s = some w) (hn : s.nargs ≤ 1) :
      Move s
        { s with
          blkbuf := (storeArg i w s).blkbuf, len := (storeArg i w s).len
          nargs := 0, argi := 0
          rsp := responseWord .invalidArg s.cmd.op s.keyValid s.kxErr
          fsm := .resp
          traffic := s.traffic ++ [.cmdIn w] }
  | emptyCall (w : Word) (hf : s.fsm = .args) (hi : cmdInstr s.cmd = some (.xcrypt true true))
      (hc : cmdIn s = some w) (hn : s.nargs ≤ 1) (hw : w = 0#32) :
      Move s
        { s with
          len := w, nargs := 0, argi := 0
          ks := zeroBlock, j := 16#5, i := 0#32
          rsp := responseWord .ok s.cmd.op s.keyValid s.kxErr
          fsm := .resp
          traffic := s.traffic ++ [.cmdIn w] }
  | beginCall (w : Word) (hf : s.fsm = .args) (hi : cmdInstr s.cmd = some (.xcrypt true true))
      (hc : cmdIn s = some w) (hn : s.nargs ≤ 1) (hw : w ≠ 0#32) :
      Move s
        { s with
          len := w, nargs := 0, argi := 0
          j := 16#5, i := 0#32
          fsm := .cphReq .enc
          traffic := s.traffic ++ [.cmdIn w] }
  | sendExpand (kp dp : Bool) (hf : s.fsm = .cphReq .expand) (hi : cmdInstr s.cmd = some (.init kp dp))
      (hr : cipherReq s = some (.expand s.keybuf)) :
      Move s
        { s with
          keybuf := zeroKey, inflight := some (.expand s.keybuf), fsm := .cphRsp .expand
          traffic := s.traffic ++ [.cipherReq (.expand s.keybuf)] }
  | expanded (kp dp : Bool) (r : CphRsp) (key : Key) (hf : s.fsm = .cphRsp .expand)
      (hi : cmdInstr s.cmd = some (.init kp dp)) (hr : cipherRsp s = some r) (hx : s.inflight = some (.expand key)) :
      Move s
        { s with
          keyValid := !r.err
          kxErr := if r.err then true else s.kxErr
          sched := if r.err then none else some (Config.expandKey key)
          cb := if dp then s.blkbuf else zeroBlock
          ks := zeroBlock, j := 16#5, i := 0#32
          inflight := none
          rsp := responseWord .ok s.cmd.op (!r.err) (if r.err then true else s.kxErr)
          fsm := .resp
          traffic := s.traffic ++ [.cipherErr .expand r.err] }
  | sendBlock (ep dp : Bool) (hf : s.fsm = .cphReq .enc) (hi : cmdInstr s.cmd = some (.xcrypt ep dp))
      (hr : cipherReq s = some (.enc s.cb)) :
      Move s
        { s with
          cb := inc s.cb, inflight := some (.enc s.cb), fsm := .cphRsp .enc
          traffic := s.traffic ++ [.cipherReq (.enc s.cb)] }
  | loadKs (ep dp : Bool) (r : CphRsp) (x : Block) (hf : s.fsm = .cphRsp .enc)
      (hi : cmdInstr s.cmd = some (.xcrypt ep dp)) (hr : cipherRsp s = some r) (he : r.err = false)
      (hx : s.inflight = some (.enc x)) :
      Move s
        { s with
          ks := keystreamBlock x r.data s, j := 0#5, fsm := .xcByte, inflight := none
          traffic := s.traffic ++ [.cipherBlock (keystreamBlock x r.data s)] }
  | byteIn (ep dp : Bool) (b : Byte) (hf : s.fsm = .xcByte) (hi : cmdInstr s.cmd = some (.xcrypt ep dp))
      (hd : dataIn s = some b) :
      Move s
        { s with
          outb := b ^^^ byteAt s.ks s.j.toNat
          ks := setByte s.ks s.j.toNat 0#8
          j := s.j + 1#5
          fsm := .xcOut
          traffic := s.traffic ++ [.dataIn b] }
  | byteOut (ep dp : Bool) (f : Fsm) (hf : s.fsm = .xcOut) (hi : cmdInstr s.cmd = some (.xcrypt ep dp))
      (hd : dataOut s = some s.outb) (hl : s.i + 1#32 ≠ s.len)
      (hn : (s.j = 16#5 ∧ f = .cphReq .enc) ∨ (s.j ≠ 16#5 ∧ f = .xcByte)) :
      Move s { s with i := s.i + 1#32, fsm := f, traffic := s.traffic ++ [.dataOut s.outb] }
  | lastByteOut (ep dp : Bool) (hf : s.fsm = .xcOut) (hi : cmdInstr s.cmd = some (.xcrypt ep dp))
      (hd : dataOut s = some s.outb) (hl : s.i + 1#32 = s.len) :
      Move s
        { s with
          ks := zeroBlock, j := 16#5, i := 0#32
          rsp := responseWord .ok s.cmd.op s.keyValid s.kxErr
          fsm := .resp
          traffic := s.traffic ++ [.dataOut s.outb] }
  | sendWipe (ep : Bool) (hf : s.fsm = .cphReq .wipe) (hi : cmdInstr s.cmd = some (.teardown ep))
      (hr : cipherReq s = some .wipe) :
      Move s
        { s with inflight := some .wipe, fsm := .cphRsp .wipe, traffic := s.traffic ++ [.cipherReq .wipe] }
  | wiped (ep : Bool) (r : CphRsp) (hf : s.fsm = .cphRsp .wipe) (hi : cmdInstr s.cmd = some (.teardown ep))
      (hr : cipherRsp s = some r) (hx : s.inflight = some .wipe) :
      Move s
        { s with
          keyValid := false, sched := none, inflight := none
          rsp := responseWord (if r.err then .wipeFailed else .ok) s.cmd.op false s.kxErr
          fsm := .resp
          traffic := s.traffic ++ [.cipherErr .wipe r.err] }
  /-- A GETBLK's OK response is taken. -/
  | answeredReadBack (hf : s.fsm = .resp) (hr : rspOut s = some s.rsp) (hb : readsBack s = true) :
      Move s { s with rsp := 0#32, rdbk := 4, fsm := .rdbk, traffic := s.traffic ++ [.rspOut s.rsp] }
  /-- Any other response is taken. -/
  | answered (hf : s.fsm = .resp) (hr : rspOut s = some s.rsp) (hb : readsBack s = false) :
      Move s { s with rsp := 0#32, fsm := .idle, traffic := s.traffic ++ [.rspOut s.rsp] }
  | readBack (w : Word) (hf : s.fsm = .rdbk) (hr : rspOut s = some w) (hn : 1 < s.rdbk) :
      Move s { s with rdbk := s.rdbk - 1, traffic := s.traffic ++ [.rspOut w] }
  | lastReadBack (w : Word) (hf : s.fsm = .rdbk) (hr : rspOut s = some w) (hn : s.rdbk ≤ 1) :
      Move s { s with rdbk := 0, fsm := .idle, traffic := s.traffic ++ [.rspOut w] }

theorem takeResponse_move (s : State) : Move s (takeResponse s) := by
  rcases takeResponse_cases s with ⟨_, h⟩ | ⟨w, hr, hf, hn, h⟩ | ⟨w, hr, hf, hn, h⟩ | ⟨w, hr, hf, hb, h⟩ |
      ⟨w, hr, hf, hb, h⟩ <;> rw [h]
  · exact .stay
  · exact .lastReadBack w hf hr hn
  · exact .readBack w hf hr hn
  · have hw : w = s.rsp := by
      have := (rspOut_eq_some.mp hr).2.2
      simpa [rspOffer, hf] using this.symm
    subst hw
    exact .answeredReadBack hf hr hb
  · have hw : w = s.rsp := by
      have := (rspOut_eq_some.mp hr).2.2
      simpa [rspOffer, hf] using this.symm
    subst hw
    exact .answered hf hr hb

/-- The request transferred is the one on offer. -/
theorem cipherReq_offer {s : State} {r : CphReq} (h : cipherReq s = some r) : reqOffer s = some r :=
  (cipherReq_eq_some.mp h).2.2

theorem Move.of_eq {s t u : State} (h : Move s u) (e : t = u) : Move s t := e ▸ h

/-- An argument word before the last, in any command. -/
theorem storeMore_move {i : Instr} {s : State} {w : Word} (hf : s.fsm = .args) (hk : cmdInstr s.cmd = some i)
    (hc : cmdIn s = some w) (hn : 1 < s.nargs) :
    Move s (note (.cmdIn w) { storeArg i w s with nargs := s.nargs - 1, argi := s.argi + 1 }) :=
  (Move.storeOne i w hf hk hc hn).of_eq (storeArg_more i w s)

theorem initArgs_move {kp dp : Bool} {s : State} (hf : s.fsm = .args) (hk : cmdInstr s.cmd = some (.init kp dp)) :
    Move s (takeArgument (storeArg (.init kp dp)) (startInit kp dp) s) := by
  rcases takeArgument_cases (storeArg (.init kp dp)) (startInit kp dp) s with
    ⟨_, e⟩ | ⟨w, hc, hn, e⟩ | ⟨w, hc, hn, e⟩ <;> rw [e]
  · exact .stay
  · rw [storeArg_last]
    cases kp with
    | true =>
      have hx : (storeArg (.init true dp) w s).len = s.len := by
        rcases storeArg_len (.init true dp) w s with h | ⟨_, _, h, _⟩
        · exact h
        · cases h
      rw [startInit_key, hx]
      exact .askExpand dp w hf hk hc hn
    | false => exact (Move.initBlock dp w hf hk hc hn).of_eq (startInit_noKey _ _)
  · exact storeMore_move hf hk hc hn

theorem execInit_move {kp dp : Bool} {s t : State} (h : exec (.init kp dp) s = .next t)
    (hi : s.fsm = .idle → ∀ w, cmdIn s = some w → decode w = .ok (.init kp dp))
    (hl : s.fsm ≠ .idle → cmdInstr s.cmd = some (.init kp dp)) : Move s t := by
  rcases execInit_cases h with ⟨hf, rfl⟩ | ⟨hf, rfl⟩ | ⟨hf, rfl⟩ | ⟨hf, rfl⟩ | ⟨hf, rfl⟩ | rfl
  · rcases takeCommand_cases (.init kp dp) (startInit kp dp) s with ⟨_, e⟩ | ⟨w, hc, hn, e⟩ | ⟨w, hc, hn, e⟩ <;> rw [e]
    · exact .stay
    · have hk : kp = false ∧ dp = false := by
        cases kp <;> cases dp <;> simp [nargs] at hn ⊢
      obtain ⟨rfl, rfl⟩ := hk
      exact (Move.initNothing w hf hc (hi hf w hc)).of_eq (startInit_noKey _ _)
    · exact .awaitArgs _ w hf hc (hi hf w hc) hn
  · exact initArgs_move hf (hl (by simp [hf]))
  · rcases sendRequest_cases (fun t => { t with keybuf := zeroKey }) s with ⟨_, e⟩ | ⟨r, hr, e⟩ <;> rw [e]
    · exact .stay
    · have ho := cipherReq_offer hr
      simp only [reqOffer, hf, Option.some.injEq] at ho
      subst ho
      exact .sendExpand kp dp hf (hl (by simp [hf])) hr
  · rcases finishExpand_cases dp s with e | ⟨r, key, hr, hx, e⟩ <;> rw [e]
    · exact .stay
    · rw [finishInit_expanded]
      exact .expanded kp dp r key hf (hl (by simp [hf])) hr hx
  · exact takeResponse_move s
  · exact .stay

theorem setblkArgs_move {ep dp : Bool} {s : State} (hf : s.fsm = .args) (hk : cmdInstr s.cmd = some (.setblk ep dp)) :
    Move s (takeArgument (storeArg (.setblk ep dp)) (finishSetblk ep dp) s) := by
  rcases takeArgument_cases (storeArg (.setblk ep dp)) (finishSetblk ep dp) s with
    ⟨_, e⟩ | ⟨w, hc, hn, e⟩ | ⟨w, hc, hn, e⟩ <;> rw [e]
  · exact .stay
  · rw [storeArg_last]
    cases hb : (ep && dp) with
    | true =>
      obtain ⟨rfl, rfl⟩ : ep = true ∧ dp = true := by simpa using hb
      exact (Move.setBlock w hf hk hc hn).of_eq (finishSetblk_present _)
    | false => exact (Move.absentAfterArgs _ w hf hk (.inl ⟨ep, dp, rfl, hb⟩) hc hn).of_eq (finishSetblk_absent hb _)
  · exact storeMore_move hf hk hc hn

theorem execSetblk_move {ep dp : Bool} {s t : State} (h : exec (.setblk ep dp) s = .next t)
    (hi : s.fsm = .idle → ∀ w, cmdIn s = some w → decode w = .ok (.setblk ep dp))
    (hl : s.fsm ≠ .idle → cmdInstr s.cmd = some (.setblk ep dp)) : Move s t := by
  rcases execSetblk_cases h with ⟨hf, rfl⟩ | ⟨hf, rfl⟩ | ⟨hf, rfl⟩ | rfl
  · rcases takeCommand_cases (.setblk ep dp) (finishSetblk ep dp) s with ⟨_, e⟩ | ⟨w, hc, hn, e⟩ | ⟨w, hc, hn, e⟩ <;> rw [e]
    · exact .stay
    · have hk : dp = false := by
        cases dp <;> simp [nargs] at hn ⊢
      subst hk
      exact (Move.absentAtOnce (.setblk ep false) w hf hc (hi hf w hc) (.inl ⟨ep, rfl⟩)).of_eq
        (finishSetblk_absent (Bool.and_false ep) _)
    · exact .awaitArgs _ w hf hc (hi hf w hc) hn
  · exact setblkArgs_move hf (hl (by simp [hf]))
  · exact takeResponse_move s
  · exact .stay

theorem xcryptArgs_move {ep dp : Bool} {s : State} (hf : s.fsm = .args) (hk : cmdInstr s.cmd = some (.xcrypt ep dp)) :
    Move s (takeArgument (storeArg (.xcrypt ep dp)) (startCall ep dp) s) := by
  rcases takeArgument_cases (storeArg (.xcrypt ep dp)) (startCall ep dp) s with
    ⟨_, e⟩ | ⟨w, hc, hn, e⟩ | ⟨w, hc, hn, e⟩ <;> rw [e]
  · exact .stay
  · rw [storeArg_last]
    cases hb : (ep && dp) with
    | true =>
      obtain ⟨rfl, rfl⟩ : ep = true ∧ dp = true := by simpa using hb
      by_cases hw : w = 0#32
      · exact (Move.emptyCall w hf hk hc hn hw).of_eq (startCall_empty hw)
      · exact (Move.beginCall w hf hk hc hn hw).of_eq (startCall_begin hw)
    | false => exact (Move.absentAfterArgs _ w hf hk (.inr ⟨ep, dp, rfl, hb⟩) hc hn).of_eq (startCall_absent hb _)
  · exact storeMore_move hf hk hc hn

theorem clockRequest_move {ep dp : Bool} {s : State} (hf : s.fsm = .cphReq .enc)
    (hk : cmdInstr s.cmd = some (.xcrypt ep dp)) : Move s (clockRequest s) := by
  rcases sendRequest_cases (fun t => { t with cb := inc t.cb }) s with ⟨_, e⟩ | ⟨r, hr, e⟩ <;> rw [clockRequest, e]
  · exact .stay
  · have ho := cipherReq_offer hr
    simp only [reqOffer, hf, Option.some.injEq] at ho
    subst ho
    exact .sendBlock ep dp hf hk hr

theorem giveByte_move {ep dp : Bool} {s : State} (hf : s.fsm = .xcOut)
    (hk : cmdInstr s.cmd = some (.xcrypt ep dp)) : Move s (giveByte s) := by
  have hb : ∀ b, dataOut s = some b → b = s.outb := fun b h => (dataOut_eq_some.mp h).2.2.2
  rcases giveByte_cases s with ⟨_, e⟩ | ⟨b, hd, hn, e⟩ | ⟨b, hd, hn, hj, e⟩ | ⟨b, hd, hn, hj, e⟩ <;> rw [e]
  · exact .stay
  · cases hb b hd
    rw [endCall_eq]
    exact .lastByteOut ep dp hf hk hd hn
  · cases hb b hd
    exact .byteOut ep dp (.cphReq .enc) hf hk hd hn (.inl ⟨hj, rfl⟩)
  · cases hb b hd
    exact .byteOut ep dp .xcByte hf hk hd hn (.inr ⟨hj, rfl⟩)

theorem execXcrypt_move {ep dp : Bool} {s t : State} (h : exec (.xcrypt ep dp) s = .next t)
    (hi : s.fsm = .idle → ∀ w, cmdIn s = some w → decode w = .ok (.xcrypt ep dp))
    (hl : s.fsm ≠ .idle → cmdInstr s.cmd = some (.xcrypt ep dp)) : Move s t := by
  rcases execXcrypt_cases h with ⟨hf, rfl⟩ | ⟨hf, rfl⟩ | ⟨hf, rfl⟩ | ⟨hf, r, x, hr, he, hx, rfl⟩ | ⟨hf, rfl⟩ | ⟨hf, rfl⟩ |
      ⟨hf, rfl⟩ | rfl
  · rcases takeCommand_cases (.xcrypt ep dp) (startCall ep dp) s with ⟨_, e⟩ | ⟨w, hc, hn, e⟩ | ⟨w, hc, hn, e⟩ <;> rw [e]
    · exact .stay
    · have hk : dp = false := by
        cases dp <;> simp [nargs] at hn ⊢
      subst hk
      exact (Move.absentAtOnce (.xcrypt ep false) w hf hc (hi hf w hc) (.inr (.inl ⟨ep, rfl⟩))).of_eq
        (startCall_absent (Bool.and_false ep) _)
    · exact .awaitArgs _ w hf hc (hi hf w hc) hn
  · exact xcryptArgs_move hf (hl (by simp [hf]))
  · exact clockRequest_move hf (hl (by simp [hf]))
  · exact .loadKs ep dp r x hf (hl (by simp [hf])) hr he hx
  · rcases xorByte_cases s with ⟨_, e⟩ | ⟨b, hd, e⟩ <;> rw [e]
    · exact .stay
    · exact .byteIn ep dp b hf (hl (by simp [hf])) hd
  · exact giveByte_move hf (hl (by simp [hf]))
  · exact takeResponse_move s
  · exact .stay

theorem execTeardown_move {ep : Bool} {s t : State} (h : exec (.teardown ep) s = .next t)
    (hi : s.fsm = .idle → ∀ w, cmdIn s = some w → decode w = .ok (.teardown ep))
    (hl : s.fsm ≠ .idle → cmdInstr s.cmd = some (.teardown ep)) : Move s t := by
  rcases execTeardown_cases h with ⟨hf, rfl⟩ | ⟨hf, rfl⟩ | ⟨hf, rfl⟩ | ⟨hf, rfl⟩ | rfl
  · rcases takeCommand_cases (.teardown ep) (startTeardown ep) s with ⟨_, e⟩ | ⟨w, hc, hn, e⟩ | ⟨w, hc, hn, e⟩ <;> rw [e]
    · exact .stay
    · cases ep with
      | true => exact .askWipe w hf hc (hi hf w hc)
      | false =>
        exact (Move.absentAtOnce _ w hf hc (hi hf w hc) (.inr (.inr (.inl rfl)))).of_eq (startTeardown_absent _)
    · simp [nargs] at hn
  · rcases sendRequest_cases id s with ⟨_, e⟩ | ⟨r, hr, e⟩ <;> rw [e]
    · exact .stay
    · have ho := cipherReq_offer hr
      simp only [reqOffer, hf, Option.some.injEq] at ho
      subst ho
      exact .sendWipe ep hf (hl (by simp [hf])) hr
  · rcases finishWipe_cases s with e | ⟨r, hr, hx, e⟩ <;> rw [e]
    · exact .stay
    · rw [keyDropped_respond]
      exact .wiped ep r hf (hl (by simp [hf])) hr hx
  · exact takeResponse_move s
  · exact .stay

theorem execGetblk_move {ep : Bool} {s t : State} (h : exec (.getblk ep) s = .next t)
    (hi : s.fsm = .idle → ∀ w, cmdIn s = some w → decode w = .ok (.getblk ep)) : Move s t := by
  rcases execGetblk_cases h with ⟨hf, rfl⟩ | ⟨_, rfl⟩ | rfl
  · rcases takeCommand_cases (.getblk ep) (finishGetblk ep) s with ⟨_, e⟩ | ⟨w, hc, hn, e⟩ | ⟨w, hc, hn, e⟩ <;> rw [e]
    · exact .stay
    · cases ep with
      | true => exact (Move.answerGetblk w hf hc (hi hf w hc)).of_eq (finishGetblk_present _)
      | false =>
        exact (Move.absentAtOnce _ w hf hc (hi hf w hc) (.inr (.inr (.inr rfl)))).of_eq (finishGetblk_absent _)
    · simp [nargs] at hn
  · exact takeResponse_move s
  · exact .stay

/-- What an edge of the engine can do. -/
theorem engineEdge_move {s t : State} (h : engineEdge s = .next t) : Move s t := by
  rcases engineEdge_cases s with ⟨i, hw, he⟩ | ⟨w, hw, he⟩ | ⟨_, he⟩ | ⟨_, he⟩ <;> rw [he] at h
  · have hi : s.fsm = .idle → ∀ w, cmdIn s = some w → decode w = .ok i := by
      rcases work_cases s with ⟨_, _, e⟩ | ⟨w, k, _, hc, hd, e⟩ | ⟨_, _, _, _, _, e⟩ | ⟨k, hn, _, e⟩ | ⟨_, _, e⟩ <;>
        rw [hw] at e <;> cases e
      · intro _ v hv
        rw [hc] at hv
        cases hv
        exact hd
      · intro hf
        exact absurd hf hn
    have hl : s.fsm ≠ .idle → cmdInstr s.cmd = some i := by
      rcases work_cases s with ⟨_, _, e⟩ | ⟨w, k, hf, _, _, e⟩ | ⟨_, _, _, _, _, e⟩ | ⟨k, _, hk, e⟩ | ⟨_, _, e⟩ <;>
        rw [hw] at e <;> cases e
      · intro hn
        exact absurd hf hn
      · exact fun _ => hk
    cases i with
    | init kp dp => exact execInit_move h hi hl
    | setblk ep dp => exact execSetblk_move h hi hl
    | xcrypt ep dp => exact execXcrypt_move h hi hl
    | teardown ep => exact execTeardown_move h hi hl
    | getblk ep => exact execGetblk_move h hi
  · rcases work_cases s with ⟨_, _, e⟩ | ⟨_, _, _, _, _, e⟩ | ⟨v, r, hf, hc, hd, e⟩ | ⟨_, _, _, e⟩ | ⟨_, _, e⟩ <;>
      rw [hw] at e <;> cases e
    cases h
    exact .illegal w r hf hc hd
  · cases h
    exact takeResponse_move s
  · cases h
    exact .stay

end Sys2Proof.Machine
end

