-- ==== Sys2Proof/Laws/PerInstr.lean ====
section
/-! SUPPORT. Facts about every command as syntax, one lemma per constructor: its word is legal (30_encoding.md R76), and
its word fits its own row of spec/opcode_table.json. -/

/-- The command word of the instruction is legal. -/
def Sys2Proof.Laws.LegalWord.Statement (i : Sys2Proof.Instr) : Prop :=
  i.wellFormed = true

theorem Sys2Proof.Laws.LegalWord.init (kp dp : Bool) : LegalWord.Statement (.init kp dp) := by
  cases kp <;> cases dp <;> rfl

theorem Sys2Proof.Laws.LegalWord.setblk (ep dp : Bool) : LegalWord.Statement (.setblk ep dp) := by
  cases ep <;> cases dp <;> rfl

theorem Sys2Proof.Laws.LegalWord.xcrypt (ep dp : Bool) : LegalWord.Statement (.xcrypt ep dp) := by
  cases ep <;> cases dp <;> rfl

theorem Sys2Proof.Laws.LegalWord.teardown (ep : Bool) : LegalWord.Statement (.teardown ep) := by
  cases ep <;> rfl

theorem Sys2Proof.Laws.LegalWord.getblk (ep : Bool) : LegalWord.Statement (.getblk ep) := by
  cases ep <;> rfl

/-- The command word of the instruction fits its row of the opcode table. -/
def Sys2Proof.Laws.FitsRow.Statement (i : Sys2Proof.Instr) : Prop :=
  Sys2Proof.encode i &&& Sys2Proof.rowMask i = Sys2Proof.rowMatch i

theorem Sys2Proof.Laws.FitsRow.init (kp dp : Bool) : FitsRow.Statement (.init kp dp) := by
  cases kp <;> cases dp <;> rfl

theorem Sys2Proof.Laws.FitsRow.setblk (ep dp : Bool) : FitsRow.Statement (.setblk ep dp) := by
  cases ep <;> cases dp <;> rfl

theorem Sys2Proof.Laws.FitsRow.xcrypt (ep dp : Bool) : FitsRow.Statement (.xcrypt ep dp) := by
  cases ep <;> cases dp <;> rfl

theorem Sys2Proof.Laws.FitsRow.teardown (ep : Bool) : FitsRow.Statement (.teardown ep) := by
  cases ep <;> rfl

theorem Sys2Proof.Laws.FitsRow.getblk (ep : Bool) : FitsRow.Statement (.getblk ep) := by
  cases ep <;> rfl
end

