-- ==== Sys2Proof/Tests/Slice0.lean ====
section
/-! SUPPORT. Tests: ill-formed command words, words written out from the encoding, one step of each command with the
spec's own example values, and for every statement a concrete case that meets its hypotheses. -/

namespace Sys2Proof.Tests

open Sys2Proof
open Sys2Proof.Machine

/-! ## Well-formedness: one ill-formed command word for each check (30_encoding.md R76, R86) -/

theorem test_ops_not_listed :
    ({ op := 0#4, ep := false, dp := false, kp := false, rsvd := 0#25 } : Cmd32).opListed = false ∧
    ({ op := 6#4, ep := false, dp := false, kp := false, rsvd := 0#25 } : Cmd32).opListed = false ∧
    ({ op := 15#4, ep := false, dp := false, kp := false, rsvd := 0#25 } : Cmd32).legal = false := by
  decide

theorem test_reserved_bits :
    ({ op := 3#4, ep := true, dp := true, kp := false, rsvd := 1#25 } : Cmd32).reservedZero = false ∧
    ({ op := 3#4, ep := true, dp := true, kp := false, rsvd := 0x1000000#25 } : Cmd32).legal = false := by
  decide

theorem test_init_with_engine :
    ({ op := 1#4, ep := true, dp := false, kp := false, rsvd := 0#25 } : Cmd32).epAllowed = false ∧
    ({ op := 1#4, ep := true, dp := false, kp := false, rsvd := 0#25 } : Cmd32).legal = false := by
  decide

theorem test_teardown_and_getblk_with_data :
    ({ op := 4#4, ep := true, dp := true, kp := false, rsvd := 0#25 } : Cmd32).dpAllowed = false ∧
    ({ op := 5#4, ep := true, dp := true, kp := false, rsvd := 0#25 } : Cmd32).legal = false := by
  decide

theorem test_key_outside_init :
    ({ op := 2#4, ep := true, dp := true, kp := true, rsvd := 0#25 } : Cmd32).kpAllowed = false ∧
    ({ op := 3#4, ep := true, dp := true, kp := true, rsvd := 0#25 } : Cmd32).legal = false ∧
    ({ op := 4#4, ep := true, dp := false, kp := true, rsvd := 0#25 } : Cmd32).legal = false ∧
    ({ op := 5#4, ep := true, dp := false, kp := true, rsvd := 0#25 } : Cmd32).legal = false := by
  decide

/-! ## Decoding: words written out from R73 and R75, bits [31:7], KP, DP, EP, OP -/

theorem test_decode_init : decode 0b0000000000000000000000000_1_0_0_0001#32 = .ok (.init true false) := rfl
theorem test_decode_setblk : decode 0b0000000000000000000000000_0_1_0_0010#32 = .ok (.setblk false true) := rfl
theorem test_decode_xcrypt : decode 0b0000000000000000000000000_0_0_1_0011#32 = .ok (.xcrypt true false) := rfl
theorem test_decode_teardown : decode 0b0000000000000000000000000_0_0_1_0100#32 = .ok (.teardown true) := rfl
theorem test_decode_getblk : decode 0b0000000000000000000000000_0_0_0_0101#32 = .ok (.getblk false) := rfl

/-- 95_test_vectors.md L2.8: illegal words. -/
theorem test_decode_illegal :
    decode 0x00000000#32 = .error .reservedOp ∧ decode 0x00000006#32 = .error .reservedOp ∧
    decode 0x80000033#32 = .error .reservedBits ∧ decode 0x00000093#32 = .error .reservedBits ∧
    decode 0x00000011#32 = .error .epMustBeZero ∧ decode 0x00000075#32 = .error .dpMustBeZero ∧
    decode 0x00000073#32 = .error .kpMustBeZero :=
  ⟨rfl, rfl, rfl, rfl, rfl, rfl, rfl⟩

/-- R90: `XCRYPT e, 36`. -/
theorem test_assemble_xcrypt : assemble (.xcrypt true (some 36#32)) = [0x00000033#32, 0x00000024#32] := rfl

/-! ## One step of each command -/

/-- A value read off the next state. -/
def after {α : Type} (o : Host.Outcome State Fault Refusal) (f : State → α) : Option α :=
  match o with
  | .next s => some (f s)
  | .fault _ => none
  | .refused _ => none

/-- The engine after reset, but in this control state, with this command latched and these inputs at the next edge. -/
def inState (f : Fsm) (i : Instr) (p : PortIn) : State :=
  { State.reset with fsm := f, cmd := instrCmd i, inputs := [p] }

/-- An edge at which nobody waits: the host offers `w` and takes what is offered, the collaborator takes a request. -/
def openEdge (w : Option Word) : PortIn :=
  { PortIn.quiet with cmd := w, rspReady := true, doutReady := true, cphReqReady := true }

/-- The counter block of RFC3686 Test Vector #9 (44_lifecycle.md R199), with this counter. -/
def block9 (c : Word) : Block :=
  putWords zeroBlock 0 [0x001CC5B7#32, 0x51A51D70#32, 0xA1C11148#32, c]

/-- A schedule to hold; nothing is said of what E does with it. -/
def sched9 : Sched := { bytes := [0x60#8] }

/-- A keyed engine in IDLE. -/
def keyed : State :=
  { State.reset with keyValid := true, sched := some sched9, cb := block9 1#32 }

/-- R198 (a): `INIT -, -` answers 0x00000010. -/
theorem test_init_nothing :
    after (step (State.reset.withFetchWord 32 0x00000001)) (fun t => (t.fsm, t.rsp, t.j)) =
      some (.resp, 0x00000010#32, 16#5) := by
  decide

/-- R190: a key of zeros is a key; after 8 words the EXPAND request waits. The eighth word is key byte 28 on. -/
theorem test_init_last_key_word :
    after (step { inState .args (.init true false) (openEdge (some 0xFB54153D#32)) with nargs := 1, argi := 7, kxErr := true })
        (fun t => (t.fsm, t.kxErr, byteAt t.keybuf 28, byteAt t.keybuf 31)) =
      some (.cphReq .expand, false, 0xFB#8, 0x3D#8) := by
  decide

/-- R209: the last word of `SETBLK e, 001CC5B7…00000001` restores CB, and the response is 0x00000120. -/
theorem test_setblk_restores :
    after (step
        { keyed with
          fsm := .args, cmd := instrCmd (.setblk true true), nargs := 1, argi := 3, blkbuf := block9 9#32
          cb := block9 4#32, inputs := [openEdge (some 0x00000001#32)] })
        (fun t => (ctrOf t.cb, byteAt t.cb 3, t.rsp)) =
      some (0x00000001#32, 0xB7#8, 0x00000120#32) := by
  decide

/-- R91: a `SETBLK` with EP = 0 while KEY_VALID = 1 answers 0x00000123. -/
theorem test_setblk_absent :
    after (step { keyed with inputs := [openEdge (some 0x00000002#32)] }) (fun t => (t.fsm, t.rsp)) =
      some (.resp, 0x00000123#32) := by
  decide

/-- 42_keystream_clock.md R122: the block sent carries the counter from before the increment. -/
theorem test_xcrypt_clock :
    after (step { inState (.cphReq .enc) (.xcrypt true true) (openEdge none) with cb := block9 0xFFFFFFFF#32 })
        (fun t => (t.inflight = some (.enc (block9 0xFFFFFFFF#32)) : Bool) && ctrOf t.cb == 0#32 && byteAt t.cb 11 == 0x48#8) =
      some true := by
  decide

/-- 43_stream_xor.md R167: byte 1 of Test Vector #9, 0x01 XOR 0x6D, and the keystream byte used is erased. -/
theorem test_xcrypt_byte :
    after (step
        { inState .xcByte (.xcrypt true true) { PortIn.quiet with din := some 0x01#8 } with
          ks := putWords zeroBlock 0 [0x006D5081#32], j := 1#5, i := 1#32, len := 36#32 })
        (fun t => (t.outb, byteAt t.ks 1, byteAt t.ks 2, t.j)) =
      some (0x6C#8, 0x00#8, 0x50#8, 2#5) := by
  decide

/-- 42_keystream_clock.md R125, R134 and 30_encoding.md R70: without a key KS is what the data lines carry, byte 0 from
[127:120]. -/
theorem test_xcrypt_free_block :
    after (step
        { inState (.cphRsp .enc) (.xcrypt true true) (ansEdge false 0xEB6D5081190EBDF0C67C9E4D26C741A5#128) with
          inflight := some (.enc (block9 1#32)), len := 36#32 })
        (fun t => (t.fsm, byteAt t.ks 0, byteAt t.ks 1, byteAt t.ks 15, t.j)) =
      some (.xcByte, 0xEB#8, 0x6D#8, 0xA5#8, 0#5) := by
  decide

/-- 44_lifecycle.md R217: the wipe's error gives 0x00000047. -/
theorem test_teardown_error :
    after (step
        { keyed with
          fsm := .cphRsp .wipe, cmd := instrCmd (.teardown true), inflight := some .wipe
          inputs := [ansEdge true 0#128] })
        (fun t => (t.keyValid, t.sched, t.rsp)) =
      some (false, none, 0x00000047#32) := by
  decide

/-- R217: without an error 0x00000040. -/
theorem test_teardown_ok :
    after (step
        { keyed with
          fsm := .cphRsp .wipe, cmd := instrCmd (.teardown true), inflight := some .wipe
          inputs := [ansEdge false 0#128] })
        (fun t => (t.keyValid, t.sched, t.rsp)) =
      some (false, none, 0x00000040#32) := by
  decide

/-- R225: `GETBLK` with a key answers 0x00000150. -/
theorem test_getblk_response :
    after (step { keyed with inputs := [openEdge (some 0x00000015#32)] }) (fun t => (t.fsm, t.rsp)) =
      some (.resp, 0x00000150#32) := by
  decide

/-- R225: the second read-back word of Test Vector #9's block is 51A51D70. -/
theorem test_getblk_word :
    after (step { keyed with fsm := .rdbk, cmd := instrCmd (.getblk true), rdbk := 3, inputs := [openEdge none] })
        (fun t => (t.traffic, t.rdbk)) =
      some ([.rspOut 0x51A51D70#32], 2) := by
  decide

/-- 95_test_vectors.md L2.8: `.word 0x0000000F` with a key answers 0x000001F5. -/
theorem test_illegal_word :
    after (step { keyed with inputs := [openEdge (some 0x0000000F#32)] }) (fun t => (t.fsm, t.rsp)) =
      some (.resp, 0x000001F5#32) := by
  decide

/-! ## The statements' hypotheses can be met

One theorem for each statement that has hypotheses, in the order of the statements. -/

theorem test_meets_CommandLengthFromFirstWord :
    decode 0x00000011#32 = .error .epMustBeZero ∧ decode 0x00000061#32 = .ok (.init true true) ∧
    decode 0x00000032#32 = .ok (.setblk true true) ∧ decode 0x00000033#32 = .ok (.xcrypt true true) ∧
    decode 0x00000014#32 = .ok (.teardown true) ∧ decode 0x00000005#32 = .ok (.getblk false) :=
  ⟨rfl, rfl, rfl, rfl, rfl, rfl⟩

theorem test_meets_WordPacking :
    4 * 3 + 4 ≤ 16 ∧ 4 * 7 + 4 ≤ 32 ∧ (3 < 4) ∧ (11 < 4 * 3 ∨ 4 * 3 + 4 ≤ 11) ∧ (4 < 4 * 0 ∨ 4 * 0 + 4 ≤ 4) := by
  decide

theorem test_meets_IncSourceExamples :
    ctrOf (block9 0xFFFFFFFF#32) = 0xFFFFFFFF#32 ∧ ctrOf (block9 0x000000FF#32) = 0x000000FF#32 := by
  decide

theorem test_meets_PortsReadyByState : (inState .xcByte (.xcrypt true true) PortIn.quiet).pins.rstN = true := by
  decide

theorem test_meets_CollaboratorPortWords : 0 < 32 ∧ 31 < 32 ∧ 15 < 16 := by
  decide

theorem test_meets_ResetEdgeTakesResetValues :
    (inState (.cphRsp .enc) (.xcrypt true true) { PortIn.quiet with rstN := false }).pins.rstN = false ∧
    (resetEdge
      { State.reset with inputs := [{ PortIn.quiet with rstN := false }, PortIn.quiet] }).pins.rstN = true := by
  decide

/-- One word offered to a keyed engine in IDLE. -/
def offering (w : Word) : State :=
  { keyed with inputs := [offerWord w] }

theorem test_meets_StepRunsDecodedCommand :
    (offering 0x61#32).pins.rstN = true ∧ contractBreach (offering 0x61#32) = none ∧ (offering 0x61#32).fsm = .idle ∧
    (offering 0x61#32).pins.cmd = some 0x61#32 ∧ decode 0x61#32 = .ok (.init true true) :=
  ⟨rfl, rfl, rfl, rfl, rfl⟩

/-- An engine at which an ENC answer arrives. -/
def answered (err : Bool) : State :=
  { keyed with
    fsm := .cphRsp .enc, cmd := instrCmd (.xcrypt true true), len := 1#32, inflight := some (.enc (block9 1#32))
    cb := block9 2#32, inputs := [ansEdge err 0#128] }

theorem test_meets_StepContinuesLatchedCommand :
    (∃ t, (answered false).pins.rstN = true ∧ contractBreach (answered false) = none ∧
      (answered false).fsm ≠ .idle ∧ cmdInstr (answered false).cmd = some (.xcrypt true true) ∧
      exec (.xcrypt true true) (answered false) = .next t) ∧
    ((answered true).pins.rstN = true ∧ contractBreach (answered true) = none ∧
      (answered true).fsm ≠ .idle ∧ cmdInstr (answered true).cmd = some (.xcrypt true true) ∧
      exec (.xcrypt true true) (answered true) = .fault .cipherContract) :=
  ⟨⟨_, rfl, rfl, nofun, rfl, rfl⟩, rfl, rfl, nofun, rfl, rfl⟩

/-- The host offers a command word while a data-out byte waits. -/
def waiting : State :=
  inState .xcOut (.xcrypt true true) { PortIn.quiet with cmd := some 0x15#32 }

theorem test_meets_NothingMovesWithoutTransfer :
    ∃ t, waiting.pins.rstN = true ∧ step waiting = .next t ∧ cmdIn waiting = none ∧ rspOut waiting = none ∧
      dataIn waiting = none ∧ dataOut waiting = none ∧ cipherReq waiting = none ∧ cipherRsp waiting = none :=
  ⟨_, rfl, rfl, rfl, rfl, rfl, rfl, rfl, rfl⟩

theorem test_meets_OneTransferPerEdge : ∃ t, step (offering 0x14#32) = .next t ∧ t.traffic = [.cmdIn 0x14#32] :=
  ⟨_, rfl, rfl⟩

/-- An engine that offers something nobody takes. -/
def untaken (f : Fsm) (i : Instr) : State :=
  inState f i PortIn.quiet

theorem test_meets_EngineHoldsItsOffers :
    (∃ t w, (untaken .resp (.getblk true)).pins.rstN = true ∧ t.pins.rstN = true ∧
      step (untaken .resp (.getblk true)) = .next t ∧ (untaken .resp (.getblk true)).ports.rsp = some w ∧
      rspOut (untaken .resp (.getblk true)) = none) ∧
    (∃ t b, (untaken .xcOut (.xcrypt true true)).pins.rstN = true ∧ t.pins.rstN = true ∧
      step (untaken .xcOut (.xcrypt true true)) = .next t ∧
      (untaken .xcOut (.xcrypt true true)).ports.dout = some b ∧ dataOut (untaken .xcOut (.xcrypt true true)) = none) ∧
    ∃ t r, (untaken (.cphReq .wipe) (.teardown true)).pins.rstN = true ∧ t.pins.rstN = true ∧
      step (untaken (.cphReq .wipe) (.teardown true)) = .next t ∧
      (untaken (.cphReq .wipe) (.teardown true)).ports.cphReq = some r ∧
      cipherReq (untaken (.cphReq .wipe) (.teardown true)) = none :=
  ⟨⟨_, _, rfl, rfl, rfl, rfl, rfl⟩, ⟨_, _, rfl, rfl, rfl, rfl, rfl⟩, _, _, rfl, rfl, rfl, rfl, rfl⟩

/-- The word owed is withdrawn. -/
def withdrawn : State :=
  { keyed with heldCmd := some 5#32, inputs := [PortIn.quiet] }

/-- The data byte owed is changed, while an answer to a request in flight arrives. -/
def changed : State :=
  { answered false with heldDin := some 5#8, inputs := [{ PortIn.quiet with din := some 6#8, cphRsp := some { err := false, data := 0#128 } }] }

/-- An answer with no request in flight; the word and the byte owed are kept. -/
def stray : State :=
  { keyed with
    heldCmd := some 5#32, heldDin := some 6#8
    inputs := [{ PortIn.quiet with cmd := some 5#32, din := some 6#8, cphRsp := some { err := false, data := 0#128 } }] }

theorem test_meets_ContractBreachesStop :
    ((answered true).pins.rstN = true ∧ contractBreach (answered true) = none ∧
      (answered true).fsm = .cphRsp .enc ∧ cmdInstr (answered true).cmd = some (.xcrypt true true) ∧
      (answered true).inflight = some (.enc (block9 1#32)) ∧
      (answered true).pins.cphRsp = some { err := true, data := 0#128 }) ∧
    (withdrawn.pins.rstN = true ∧ (withdrawn.pins.cphRsp = none ∨ withdrawn.inflight ≠ none) ∧
      ∃ w, withdrawn.heldCmd = some w ∧ withdrawn.pins.cmd ≠ some w) ∧
    (changed.pins.rstN = true ∧ (changed.pins.cphRsp = none ∨ changed.inflight ≠ none) ∧
      ∃ b, changed.heldDin = some b ∧ changed.pins.din ≠ some b) ∧
    (stray.pins.rstN = true ∧ (∀ w, stray.heldCmd = some w → stray.pins.cmd = some w) ∧
      (∀ b, stray.heldDin = some b → stray.pins.din = some b) ∧ stray.pins.cphRsp ≠ none ∧ stray.inflight = none) :=
  ⟨⟨rfl, rfl, rfl, rfl, rfl, rfl⟩, ⟨rfl, .inl rfl, _, rfl, nofun⟩, ⟨rfl, .inr nofun, _, rfl, by decide⟩,
    rfl, fun _ h => h, fun _ h => h, nofun, rfl⟩

/-- The model's choice (log 5): a broken offer at the edge of an ENC answer with the error bit is `PortProtocol`. -/
theorem test_broken_offer_named_first :
    step { answered true with heldCmd := some 5#32 } = .refused .portProtocol :=
  rfl

theorem test_meets_IllegalWordAnswered :
    (offering 0x93#32).pins.rstN = true ∧ contractBreach (offering 0x93#32) = none ∧ (offering 0x93#32).fsm = .idle ∧
    (offering 0x93#32).pins.cmd = some 0x93#32 ∧ decode 0x93#32 = .error .reservedBits :=
  ⟨rfl, rfl, rfl, rfl, rfl⟩

theorem test_meets_CommandWaitsForArguments :
    (offering 0x33#32).fsm = .idle ∧ cmdIn (offering 0x33#32) = some 0x33#32 ∧ 0 < nargs (.xcrypt true true) ∧
    0 < nargs (.setblk false true) ∧ 0 < nargs (.init true false) ∧ 0 < nargs (.init false true) := by
  decide

/-- Argument words still due: `n` of them, the next one number `m`. -/
def awaiting (i : Instr) (n m : Nat) (w : Word) : State :=
  { keyed with fsm := .args, cmd := instrCmd i, nargs := n, argi := m, inputs := [offerWord w] }

/-- The last key word before the block, the first block word after it, and a SETBLK's first word. -/
theorem test_meets_ArgumentWordStored :
    ((awaiting (.init true true) 5 7 9#32).fsm = .args ∧ cmdIn (awaiting (.init true true) 5 7 9#32) = some 9#32 ∧
      1 < (awaiting (.init true true) 5 7 9#32).nargs) ∧
    ((awaiting (.init true true) 4 8 9#32).fsm = .args ∧ cmdIn (awaiting (.init true true) 4 8 9#32) = some 9#32 ∧
      1 < (awaiting (.init true true) 4 8 9#32).nargs) ∧
    ((awaiting (.setblk false true) 2 2 9#32).fsm = .args ∧
      cmdIn (awaiting (.setblk false true) 2 2 9#32) = some 9#32 ∧
      1 < (awaiting (.setblk false true) 2 2 9#32).nargs) := by
  decide

theorem test_meets_InitWithoutKeyCompletes :
    ((offering 0x01#32).fsm = .idle ∧ cmdIn (offering 0x01#32) = some 0x01#32) ∧
    ((awaiting (.init false true) 1 3 1#32).fsm = .args ∧ cmdIn (awaiting (.init false true) 1 3 1#32) = some 1#32 ∧
      (awaiting (.init false true) 1 3 1#32).nargs ≤ 1 ∧ (awaiting (.init false true) 1 3 1#32).cmd.op = 1#4) := by
  decide

theorem test_meets_InitAsksForExpansion :
    ((awaiting (.init true false) 1 7 1#32).fsm = .args ∧ cmdIn (awaiting (.init true false) 1 7 1#32) = some 1#32 ∧
      (awaiting (.init true false) 1 7 1#32).nargs ≤ 1) ∧
    ((awaiting (.init true true) 1 11 1#32).fsm = .args ∧ cmdIn (awaiting (.init true true) 1 11 1#32) = some 1#32 ∧
      (awaiting (.init true true) 1 11 1#32).nargs ≤ 1) := by
  decide

/-- A request on offer that the collaborator takes. -/
def requesting (op : CipherOp) (i : Instr) : State :=
  { keyed with fsm := .cphReq op, cmd := instrCmd i, len := 1#32, inputs := [reqEdge] }

theorem test_meets_InitHandsKeyOver :
    (requesting .expand (.init true true)).pins.rstN = true ∧
    (requesting .expand (.init true true)).fsm = .cphReq .expand ∧
    (requesting .expand (.init true true)).pins.cphReqReady = true := by
  decide

/-- The answer to an EXPAND or WIPE arrives. -/
def replied (r : CphReq) (i : Instr) (err : Bool) : State :=
  { keyed with fsm := .cphRsp r.op, cmd := instrCmd i, inflight := some r, inputs := [ansEdge err 0#128] }

theorem test_meets_InitExpansionDecides :
    ∀ err, (replied (.expand zeroKey) (.init true true) err).pins.rstN = true ∧
      (replied (.expand zeroKey) (.init true true) err).fsm = .cphRsp .expand ∧
      (replied (.expand zeroKey) (.init true true) err).inflight = some (.expand zeroKey) ∧
      (replied (.expand zeroKey) (.init true true) err).pins.cphRsp = some { err := err, data := 0#128 } := by
  decide

theorem test_meets_SetblkReplacesBlock :
    (awaiting (.setblk true true) 1 3 1#32).fsm = .args ∧ cmdIn (awaiting (.setblk true true) 1 3 1#32) = some 1#32 ∧
    (awaiting (.setblk true true) 1 3 1#32).nargs ≤ 1 := by
  decide

theorem test_meets_SetblkAbsentArgumentFails :
    ((offering 0x12#32).fsm = .idle ∧ cmdIn (offering 0x12#32) = some 0x12#32) ∧
    ((awaiting (.setblk false true) 1 3 1#32).fsm = .args ∧
      cmdIn (awaiting (.setblk false true) 1 3 1#32) = some 1#32 ∧
      (awaiting (.setblk false true) 1 3 1#32).nargs ≤ 1) := by
  decide

theorem test_meets_XcryptStartsAtBlockBoundary :
    (awaiting (.xcrypt true true) 1 0 0xFFFFFFFF#32).fsm = .args ∧
    cmdIn (awaiting (.xcrypt true true) 1 0 0xFFFFFFFF#32) = some 0xFFFFFFFF#32 ∧
    (awaiting (.xcrypt true true) 1 0 0xFFFFFFFF#32).nargs ≤ 1 ∧ 0xFFFFFFFF#32 ≠ 0#32 := by
  decide

theorem test_meets_XcryptEmptyBufferSucceeds :
    (awaiting (.xcrypt true true) 1 0 0#32).fsm = .args ∧ cmdIn (awaiting (.xcrypt true true) 1 0 0#32) = some 0#32 ∧
    (awaiting (.xcrypt true true) 1 0 0#32).nargs ≤ 1 := by
  decide

theorem test_meets_XcryptAbsentArgumentFails :
    ((offering 0x13#32).fsm = .idle ∧ cmdIn (offering 0x13#32) = some 0x13#32) ∧
    ((awaiting (.xcrypt false true) 1 0 5#32).fsm = .args ∧
      cmdIn (awaiting (.xcrypt false true) 1 0 5#32) = some 5#32 ∧
      (awaiting (.xcrypt false true) 1 0 5#32).nargs ≤ 1) := by
  decide

theorem test_meets_ClockSendsCounterBlock :
    (requesting .enc (.xcrypt true true)).pins.rstN = true ∧
    (requesting .enc (.xcrypt true true)).fsm = .cphReq .enc ∧
    (requesting .enc (.xcrypt true true)).pins.cphReqReady = true := by
  decide

/-- The same without a key. -/
def unkeyed : State :=
  { answered false with keyValid := false, sched := none }

theorem test_meets_ClockLoadsKeystream :
    ((answered false).pins.rstN = true ∧ (answered false).fsm = .cphRsp .enc ∧
      (answered false).inflight = some (.enc (block9 1#32)) ∧
      (answered false).pins.cphRsp = some { err := false, data := 0#128 } ∧
      (answered false).keyValid = true ∧ (answered false).sched = some sched9) ∧
    (unkeyed.pins.rstN = true ∧ unkeyed.fsm = .cphRsp .enc ∧ unkeyed.inflight = some (.enc (block9 1#32)) ∧
      unkeyed.pins.cphRsp = some { err := false, data := 0#128 } ∧ unkeyed.keyValid = false) := by
  decide

/-- The data path at cursor j, byte i of n. -/
def dataPath (f : Fsm) (j : BitVec 5) (i n : Word) : State :=
  { keyed with
    fsm := f, cmd := instrCmd (.xcrypt true true), j := j, i := i, len := n
    inputs := [{ PortIn.quiet with din := some 1#8, doutReady := true }] }

/-- At the first and at the last keystream byte of a block. -/
theorem test_meets_DataByteXored :
    ((dataPath .xcByte 0#5 0#32 1#32).pins.rstN = true ∧ (dataPath .xcByte 0#5 0#32 1#32).fsm = .xcByte ∧
      (dataPath .xcByte 0#5 0#32 1#32).pins.din = some 1#8 ∧ (dataPath .xcByte 0#5 0#32 1#32).j.toNat < 16) ∧
    ((dataPath .xcByte 15#5 15#32 16#32).pins.rstN = true ∧ (dataPath .xcByte 15#5 15#32 16#32).fsm = .xcByte ∧
      (dataPath .xcByte 15#5 15#32 16#32).pins.din = some 1#8 ∧ (dataPath .xcByte 15#5 15#32 16#32).j.toNat < 16) := by
  decide

/-- The last byte of a block, a byte inside it, and the last byte of the longest call. -/
theorem test_meets_DataByteGiven :
    (let s := dataPath .xcOut 16#5 15#32 17#32;
      s.pins.rstN = true ∧ s.fsm = .xcOut ∧ s.pins.doutReady = true ∧ s.i.toNat < s.len.toNat ∧
        s.i.toNat + 1 < s.len.toNat ∧ s.j = 16#5) ∧
    (let s := dataPath .xcOut 1#5 0#32 2#32;
      s.pins.rstN = true ∧ s.fsm = .xcOut ∧ s.pins.doutReady = true ∧ s.i.toNat < s.len.toNat ∧
        s.i.toNat + 1 < s.len.toNat ∧ s.j ≠ 16#5) ∧
    (let s := dataPath .xcOut 15#5 0xFFFFFFFE#32 0xFFFFFFFF#32;
      s.pins.rstN = true ∧ s.fsm = .xcOut ∧ s.pins.doutReady = true ∧ s.i.toNat < s.len.toNat ∧
        s.i.toNat + 1 = s.len.toNat) := by
  decide

theorem test_meets_TeardownSendsWipe :
    ((offering 0x14#32).fsm = .idle ∧ cmdIn (offering 0x14#32) = some 0x14#32) ∧
    ((requesting .wipe (.teardown true)).pins.rstN = true ∧
      (requesting .wipe (.teardown true)).fsm = .cphReq .wipe ∧
      (requesting .wipe (.teardown true)).pins.cphReqReady = true) := by
  decide

theorem test_meets_TeardownReportsWipe :
    ∀ err, (replied .wipe (.teardown true) err).pins.rstN = true ∧
      (replied .wipe (.teardown true) err).fsm = .cphRsp .wipe ∧
      (replied .wipe (.teardown true) err).inflight = some .wipe ∧
      (replied .wipe (.teardown true) err).pins.cphRsp = some { err := err, data := 0#128 } := by
  decide

theorem test_meets_AbsentEngineRejected :
    (offering 0x04#32).fsm = .idle ∧ cmdIn (offering 0x04#32) = some 0x04#32 ∧ cmdIn (offering 0x05#32) = some 0x05#32 := by
  decide

/-- A read-back word on offer that the host takes. -/
def reading (n : Nat) : State :=
  { keyed with fsm := .rdbk, cmd := instrCmd (.getblk true), rdbk := n, inputs := [rspEdge] }

theorem test_meets_GetblkReadsCounterBlock :
    ((offering 0x15#32).fsm = .idle ∧ cmdIn (offering 0x15#32) = some 0x15#32) ∧
    (∀ n, (reading n).pins.rstN = true ∧ (reading n).fsm = .rdbk ∧ (reading n).pins.rspReady = true) ∧
    1 < (reading 4).rdbk ∧ 1 < (reading 2).rdbk ∧ (reading 1).rdbk = 1 :=
  ⟨⟨rfl, rfl⟩, fun _ => ⟨rfl, rfl, rfl⟩, by decide, by decide, rfl⟩

/-- A response on offer that the host takes. -/
def responding (i : Instr) (w : Word) : State :=
  { keyed with fsm := .resp, cmd := instrCmd i, rsp := w, inputs := [rspEdge] }

/-- The response to the illegal word 0x0000000F is on offer, and taken: CMD holds none of the five commands. -/
def illegalReply : State :=
  { keyed with
    fsm := .resp, cmd := { op := 0xF#4, ep := false, dp := false, kp := false }, rsp := 0x1F5#32, inputs := [rspEdge] }

theorem test_meets_ResponseTakenEndsCommand :
    (∀ i w, (responding i w).pins.rstN = true ∧ contractBreach (responding i w) = none ∧
      (responding i w).fsm = .resp ∧ (responding i w).pins.rspReady = true) ∧
    ((responding (.getblk true) 0x150#32).cmd.op = 5#4 ∧
      (responding (.getblk true) 0x150#32).rsp.extractLsb' 0 4 = 0#4) ∧
    ¬ ((responding (.getblk false) 0x153#32).cmd.op = 5#4 ∧
      (responding (.getblk false) 0x153#32).rsp.extractLsb' 0 4 = 0#4) ∧
    (¬ (responding (.setblk true true) 0x120#32).cmd.op = 5#4) ∧
    (illegalReply.pins.rstN = true ∧ contractBreach illegalReply = none ∧ illegalReply.fsm = .resp ∧
      illegalReply.pins.rspReady = true ∧ illegalReply.cmd.op ≠ 5#4 ∧ cmdInstr illegalReply.cmd = none) :=
  ⟨fun _ _ => ⟨rfl, rfl, rfl, rfl⟩, by decide, by decide, by decide, rfl, rfl, rfl, rfl, by decide, rfl⟩

/-- 60_exceptions.md R240, R251: after that response the engine is in IDLE. -/
theorem test_illegal_response_taken :
    after (step illegalReply) (fun t => (t.fsm, t.rsp, t.traffic)) = some (.idle, 0#32, [.rspOut 0x1F5#32]) := by
  decide

/-! ### Invariants and runs -/

theorem keyed_inv : Inv keyed := by
  constructor <;> simp [keyed, State.reset, phase, resting, awaited]

/-- Inputs and the host's offers are no part of the invariants. -/
theorem inv_inputs {s : State} (h : Inv s) (ps : List PortIn) : Inv { s with inputs := ps } :=
  ⟨h.cursor, h.count, h.erased, h.keyState, h.keyHeld, h.due, h.pending, h.readBack, h.flight, h.phase⟩

theorem keyed_ready (ps : List PortIn) : Ready { keyed with inputs := ps } :=
  ⟨inv_inputs keyed_inv ps, rfl, rfl, rfl⟩

theorem test_meets_StepKeepsInvariants : ∃ t, Inv (offering 0x61#32) ∧ step (offering 0x61#32) = .next t :=
  ⟨_, inv_inputs keyed_inv _, rfl⟩

/-- A step that ends in IDLE: the response of a SETBLK is taken. -/
theorem test_meets_IdleEngineHoldsNoSecretBytes :
    ∃ t, Inv (responding (.setblk true true) 0x120#32) ∧ step (responding (.setblk true true) 0x120#32) = .next t ∧
      t.fsm = .idle := by
  refine ⟨_, ?_, rfl, rfl⟩
  constructor <;> simp [responding, keyed, State.reset, phase, resting, awaited, readsBack, instrCmd, Instr.fields]

/-- A clock's request, and `INIT -, -`. -/
theorem test_meets_CounterBlockWriters :
    (∃ t, (requesting .enc (.xcrypt true true)).pins.rstN = true ∧
      step (requesting .enc (.xcrypt true true)) = .next t ∧ t.cb ≠ (requesting .enc (.xcrypt true true)).cb) ∧
    ∃ t, (offering 0x01#32).pins.rstN = true ∧ step (offering 0x01#32) = .next t ∧ t.cb ≠ (offering 0x01#32).cb :=
  ⟨⟨_, rfl, rfl, by decide⟩, _, rfl, rfl, by decide⟩

/-- One step at the ENC answer, one at a data byte, from states that keep the invariants. -/
theorem test_meets_KeystreamRegisterGating :
    (∃ t, Inv (answered false) ∧ step (answered false) = .next t ∧
      ((answered false).fsm = .cphRsp .enc ∧ (cipherRsp (answered false)).isSome)) ∧
    ∃ t, Inv (dataPath .xcByte 0#5 0#32 1#32) ∧ step (dataPath .xcByte 0#5 0#32 1#32) = .next t ∧
      (dataIn (dataPath .xcByte 0#5 0#32 1#32)).isSome := by
  refine ⟨⟨_, ?_, rfl, rfl, rfl⟩, _, ?_, rfl, rfl⟩
  · constructor <;> simp [answered, keyed, State.reset, phase, awaited, CphReq.op]
  · constructor <;> simp [dataPath, keyed, State.reset, phase, awaited]

/-- An EXPAND answer without error at an engine without a key. -/
def loading : State :=
  { replied (.expand zeroKey) (.init true true) false with keyValid := false, sched := none }

/-- `INIT -, -` at an engine whose last expansion failed. -/
def failed : State :=
  { offering 0x01#32 with kxErr := true }

/-- KEY_VALID set by an EXPAND answer, cleared by a WIPE answer, by an EXPAND error and by an INIT without a key; KX_ERR set by an EXPAND error, cleared by an INIT. -/
theorem test_meets_StatusFlagWriters :
    (∃ t, loading.pins.rstN = true ∧ step loading = .next t ∧ loading.keyValid = false ∧ t.keyValid = true) ∧
    (∃ t, (replied .wipe (.teardown true) false).pins.rstN = true ∧
      step (replied .wipe (.teardown true) false) = .next t ∧
      (replied .wipe (.teardown true) false).keyValid = true ∧ t.keyValid = false) ∧
    (∃ t, (replied (.expand zeroKey) (.init true true) true).pins.rstN = true ∧
      step (replied (.expand zeroKey) (.init true true) true) = .next t ∧
      (replied (.expand zeroKey) (.init true true) true).keyValid = true ∧ t.keyValid = false ∧
      (replied (.expand zeroKey) (.init true true) true).kxErr = false ∧ t.kxErr = true) ∧
    (∃ t, (offering 0x01#32).pins.rstN = true ∧ step (offering 0x01#32) = .next t ∧
      (offering 0x01#32).keyValid = true ∧ t.keyValid = false) ∧
    ∃ t, failed.pins.rstN = true ∧ step failed = .next t ∧ failed.kxErr = true ∧ t.kxErr = false :=
  ⟨⟨_, rfl, rfl, rfl, rfl⟩, ⟨_, rfl, rfl, rfl, rfl⟩, ⟨_, rfl, rfl, rfl, rfl, rfl, rfl⟩, ⟨_, rfl, rfl, rfl, rfl⟩, _, rfl, rfl,
    rfl, rfl⟩

/-- Two states with different keystream bytes, and two with different data lines to come. -/
theorem test_meets_SecretsReachOnlyDataOut :
    SameButSecrets (dataPath .xcByte 0#5 0#32 1#32)
      { dataPath .xcByte 0#5 0#32 1#32 with ks := block9 1#32, outb := 7#8, sched := some { bytes := [] } } ∧
    (dataPath .xcByte 0#5 0#32 1#32).ks ≠ block9 1#32 ∧
    SameButSecrets unkeyed { unkeyed with inputs := [ansEdge false 1#128] } ∧
    unkeyed.inputs ≠ [ansEdge false 1#128] :=
  ⟨⟨rfl, rfl, rfl, rfl, rfl, rfl, rfl, rfl, rfl, rfl, rfl, rfl, rfl, rfl, rfl, rfl, rfl, rfl, rfl⟩, by decide,
    ⟨rfl, rfl, rfl, rfl, rfl, rfl, rfl, rfl, rfl, rfl, rfl, rfl, rfl, rfl, rfl, rfl, rfl, rfl, rfl⟩, by decide⟩

/-- The same LEN word at an engine without a key. -/
def awaitingUnkeyed : State :=
  { awaiting (.xcrypt true true) 1 0 1#32 with keyValid := false, sched := none }

theorem test_meets_CallBegins :
    (Inv (awaiting (.xcrypt true true) 1 0 1#32) ∧ (awaiting (.xcrypt true true) 1 0 1#32).fsm = .args ∧
      (awaiting (.xcrypt true true) 1 0 1#32).cmd = instrCmd (.xcrypt true true) ∧
      cmdIn (awaiting (.xcrypt true true) 1 0 1#32) = some 1#32 ∧ 1#32 ≠ 0#32) ∧
    (Inv awaitingUnkeyed ∧ awaitingUnkeyed.fsm = .args ∧ awaitingUnkeyed.cmd = instrCmd (.xcrypt true true) ∧
      cmdIn awaitingUnkeyed = some 1#32) := by
  refine ⟨⟨?_, rfl, rfl, rfl, by decide⟩, ?_, rfl, rfl, rfl⟩
  · constructor <;> simp [awaiting, keyed, State.reset, phase, resting, awaited, nargs]
  · constructor <;> simp [awaitingUnkeyed, awaiting, keyed, State.reset, phase, resting, awaited, nargs]

/-- A call of one byte, with and without a key, its first ENC request on offer: one edge later it is taken. -/
theorem test_meets_CallClosedFormAnyEnvironment :
    (∃ t, InCall (some sched9) (block9 1#32) [] 1#32 (requesting .enc (.xcrypt true true)) ∧
      (∀ p ∈ (requesting .enc (.xcrypt true true)).inputs.take 1, p.rstN = true) ∧
      run 1 (requesting .enc (.xcrypt true true)) = .next t) ∧
    ∃ t, InCall none (block9 1#32) [] 1#32
        { requesting .enc (.xcrypt true true) with keyValid := false, sched := none } ∧
      run 1 { requesting .enc (.xcrypt true true) with keyValid := false, sched := none } = .next t := by
  refine ⟨⟨_, ⟨rfl, ⟨rfl, rfl⟩, rfl, by decide, by decide, [], rfl, ⟨rfl, rfl, rfl, rfl⟩, rfl, rfl, fun _ _ => rfl⟩,
      by decide, rfl⟩, _, ⟨rfl, ⟨rfl, rfl⟩, rfl, by decide, by decide, [], rfl, ⟨rfl, rfl, rfl, rfl⟩, rfl, rfl, nofun⟩, rfl⟩

/-- Seventeen bytes: two blocks, the second for one byte. -/
def seventeen : List Byte :=
  List.replicate 17 0xA5#8

/-- Data lines of the answers to come. -/
def someLines (m : Nat) : BitVec 128 :=
  BitVec.ofNat 128 m

/-- After reset, without a key. -/
theorem reset_ready (ps : List PortIn) : Ready { State.reset with inputs := ps } := by
  refine ⟨?_, rfl, rfl, rfl⟩
  constructor <;> simp [State.reset, phase, resting, awaited]

theorem test_meets_XcryptRunsToClosedForm :
    Ready { keyed with inputs := promptEdges (xcryptOf seventeen) seventeen false someLines ++ [PortIn.quiet] } ∧
    Ready { State.reset with inputs := promptEdges (xcryptOf seventeen) seventeen false someLines ++ [PortIn.quiet] } ∧
    keyed.sched = some sched9 ∧ State.reset.sched = none ∧ seventeen.length < 2 ^ 32 ∧
    { keyed with inputs := promptEdges (xcryptOf seventeen) seventeen false someLines ++ [PortIn.quiet] }.inputs =
      promptEdges (xcryptOf seventeen) seventeen false someLines ++ [PortIn.quiet] :=
  ⟨keyed_ready _, reset_ready _, rfl, rfl, by decide, rfl⟩

theorem test_meets_RoundTripRestoresData :
    let edges := promptEdges (xcryptOf seventeen) seventeen false someLines ++
      promptEdges (.setblk true (some keyed.cb)) [] false someLines ++
      promptEdges (xcryptOf (xorStream sched9 keyed.cb seventeen)) (xorStream sched9 keyed.cb seventeen) false someLines
    Ready { keyed with inputs := edges ++ [] } ∧ keyed.keyValid = true ∧ keyed.sched = some sched9 ∧
      seventeen.length < 2 ^ 32 ∧ { keyed with inputs := edges ++ [] }.inputs = edges ++ [] :=
  ⟨keyed_ready _, rfl, rfl, by decide, rfl⟩

theorem test_meets_SplitCallsRestartKeystream :
    let edges := promptEdges (xcryptOf seventeen) seventeen false someLines ++ promptEdges (xcryptOf [1#8]) [1#8] false someLines
    Ready { keyed with inputs := edges ++ [] } ∧ keyed.keyValid = true ∧ keyed.sched = some sched9 ∧
      seventeen.length < 2 ^ 32 ∧ [1#8].length < 2 ^ 32 ∧ { keyed with inputs := edges ++ [] }.inputs = edges ++ [] :=
  ⟨keyed_ready _, rfl, rfl, by decide, by decide, rfl⟩

/-- A first call of 16 bytes, and a first call of 17 bytes with nothing after it. -/
theorem test_meets_BoundarySplitGivesSameBytes :
    (Ready keyed ∧ keyed.keyValid = true ∧ keyed.sched = some sched9) ∧
    ((seventeen.take 16 ++ [1#8]).length < 2 ^ 32 ∧ ((seventeen.take 16).length % 16 = 0 ∨ [1#8] = [])) ∧
    ((seventeen ++ []).length < 2 ^ 32 ∧ (seventeen.length % 16 = 0 ∨ ([] : List Byte) = [])) :=
  ⟨⟨keyed_ready [], rfl, rfl⟩, ⟨by decide, by decide⟩, by decide, by decide⟩

theorem test_meets_InitRunsToKeyState :
    Ready { keyed with inputs := promptEdges (.init (some zeroKey) (some (block9 1#32))) [] true someLines ++ [] } ∧
    Ready { keyed with inputs := promptEdges (.init none none) [] false someLines ++ [] } :=
  ⟨keyed_ready _, keyed_ready _⟩

theorem test_meets_SetblkRunsToNewBlock :
    Ready { keyed with inputs := promptEdges (.setblk true (some (block9 7#32))) [] false someLines ++ [] } ∧
    Ready { keyed with inputs := promptEdges (.setblk false none) [] false someLines ++ [] } :=
  ⟨keyed_ready _, keyed_ready _⟩

theorem test_meets_TeardownRunsToUnkeyed :
    Ready { keyed with inputs := promptEdges (.teardown true) [] true someLines ++ [] } ∧
    Ready { keyed with inputs := promptEdges (.teardown false) [] false someLines ++ [] } :=
  ⟨keyed_ready _, keyed_ready _⟩

theorem test_meets_GetblkRunsToReadBack :
    Ready { keyed with inputs := promptEdges (.getblk true) [] false someLines ++ [] } ∧
    Ready { keyed with inputs := promptEdges (.getblk false) [] false someLines ++ [] } :=
  ⟨keyed_ready _, keyed_ready _⟩

end Sys2Proof.Tests
end

section
/-! PROOFS. The invariants of the engine (10_state.md R42, R45): they hold after reset, every step keeps them, and an engine
in IDLE holds no secret byte. -/

namespace Sys2Proof.Machine

/-! ## The command register and the response word -/

/-- CMD holds a command exactly when it holds that command's own fields. -/
theorem cmdInstr_eq_some {c : CmdReg} {i : Instr} : cmdInstr c = some i ↔ c = instrCmd i := by
  have latched : ∀ (op : BitVec 4) (ep dp kp : Bool),
      ∀ k ∈ cmdInstr ⟨op, ep, dp, kp⟩, ⟨op, ep, dp, kp⟩ = instrCmd k := by decide
  constructor
  · exact latched c.op c.ep c.dp c.kp i
  · rintro rfl
    exact cmdInstr_instrCmd i

/-- CMD.OP is 5 for a GETBLK alone. -/
theorem cmd_op_ne_getblk {c : CmdReg} {i : Instr} (h : cmdInstr c = some i) (hk : ∀ ep, i ≠ .getblk ep) : c.op ≠ 5#4 := by
  rw [cmdInstr_eq_some.mp h]
  cases i with
  | getblk ep => exact absurd rfl (hk ep)
  | _ => simp [instrCmd, Instr.fields]

/-- A command in CMD that is no INIT with a key has no use for KEYBUF. -/
theorem not_expandsKey {c : CmdReg} {i : Instr} (h : cmdInstr c = some i) (hk : ∀ dp, i ≠ .init true dp) :
    ¬ expandsKey c := by
  rintro (e | e) <;> rw [h] at e <;> exact hk _ (Option.some.inj e)

/-- ERR and CODE, bits [3:0] of a response word, are all 0 exactly on OK (30_encoding.md R80). -/
theorem responseWord_status (c : Code) (op : BitVec 4) (kv kx : Bool) :
    (responseWord c op kv kx).extractLsb' 0 4 = 0#4 ↔ c = .ok := by
  revert op kv kx
  cases c <;> decide

/-- An error response, and the response of a command that is no GETBLK, has no read-back (R82, R83). -/
theorem readsBack_eq_false {s : State} {c : Code} {op : BitVec 4} {kv kx : Bool} (hr : s.rsp = responseWord c op kv kx)
    (h : c ≠ .ok ∨ s.cmd.op ≠ 5#4) : readsBack s = false := by
  rw [readsBack, hr, Bool.and_eq_false_iff, beq_eq_false_iff_ne, beq_eq_false_iff_ne, Ne, Ne, responseWord_status]
  exact h.symm

/-! ## An engine with nothing under way -/

/-- No keystream, key, argument word, read-back word or request is held: what the invariants say of IDLE and of
RESP. -/
structure Quiet (s : State) : Prop where
  cursor : s.j = 16#5
  count : s.i = 0#32
  erased : s.ks = zeroBlock
  keyState : s.keyValid = s.sched.isSome
  noKey : s.keybuf = zeroKey
  noArgs : s.nargs = 0 ∧ s.argi = 0
  noReadBack : s.rdbk = 0
  noRequest : s.inflight = none

theorem quiet_reset : Quiet State.reset :=
  ⟨rfl, rfl, rfl, rfl, rfl, ⟨rfl, rfl⟩, rfl, rfl⟩

/-- With the cursor at the block end the whole keystream block is erased (43_stream_xor.md R156). -/
theorem Inv.ks_erased {s : State} (h : Inv s) (hj : s.j = 16#5) : s.ks = zeroBlock :=
  bytes_ext fun m hm => by rw [byteAt_zeroBlock, h.erased m (by simpa [hj] using hm)]

/-- KEYBUF is zero where no key is being read or handed over (10_state.md R37). -/
theorem Inv.keybuf_zero {s : State} (h : Inv s)
    (hn : ¬ ((s.fsm = .args ∨ s.fsm = .cphReq .expand) ∧ expandsKey s.cmd)) : s.keybuf = zeroKey :=
  h.keyHeld.resolve_right hn

/-- No request is in flight where no response is awaited. -/
theorem Inv.no_request {s : State} (h : Inv s) (ha : awaited s.fsm = none) : s.inflight = none := by
  simpa [ha] using h.flight

/-- The invariants in IDLE and in RESP. -/
theorem inv_iff_quiet {s : State} (hf : s.fsm = .idle ∨ s.fsm = .resp) :
    Inv s ↔ Quiet s ∧ (s.fsm ≠ .resp → s.rsp = 0#32) ∧ phase s := by
  have hp : phase s → resting s := by rcases hf with hf | hf <;> simp +contextual [phase, hf]
  constructor
  · intro h
    obtain ⟨hj, hi⟩ := hp h.phase
    refine ⟨⟨hj, hi, h.ks_erased hj, h.keyState, h.keybuf_zero ?_, h.due ?_, h.readBack ?_, h.no_request ?_⟩, h.pending,
      h.phase⟩ <;> rcases hf with hf | hf <;> simp [hf, awaited]
  · rintro ⟨q, hr, h⟩
    refine ⟨by simp [q.cursor], by simp [q.count], by simp [q.erased], q.keyState, .inl q.noKey, fun _ => q.noArgs, hr,
      fun _ => q.noReadBack, ?_, h⟩
    rcases hf with hf | hf <;> simp [hf, q.noRequest, awaited]

theorem Inv.quiet_of_idle {s : State} (h : Inv s) (hf : s.fsm = .idle) : Quiet s :=
  ((inv_iff_quiet (.inl hf)).mp h).1

theorem Inv.quiet_of_resp {s : State} (h : Inv s) (hf : s.fsm = .resp) : Quiet s :=
  ((inv_iff_quiet (.inr hf)).mp h).1

/-- Back in IDLE with RSP emptied. -/
theorem Quiet.inv_idle {s : State} (q : Quiet s) (hf : s.fsm = .idle) (hr : s.rsp = 0#32) : Inv s :=
  (inv_iff_quiet (.inl hf)).mpr ⟨q, fun _ => hr, by simp [phase, resting, hf, q.cursor, q.count]⟩

/-- A response stands in RSP, and read-back follows only a GETBLK with an engine. -/
theorem Quiet.inv_resp {s : State} (q : Quiet s) (hf : s.fsm = .resp)
    (hb : readsBack s = true → cmdInstr s.cmd = some (.getblk true)) : Inv s :=
  (inv_iff_quiet (.inr hf)).mpr
    ⟨q, fun hn => absurd hf hn, by simpa [phase, resting, hf, q.cursor, q.count] using hb⟩

/-- A response other than a GETBLK's OK stands in RSP. -/
theorem Quiet.inv_answer {s : State} (q : Quiet s) (hf : s.fsm = .resp) {c : Code} {op : BitVec 4} {kv kx : Bool}
    (hr : s.rsp = responseWord c op kv kx) (h : c ≠ .ok ∨ s.cmd.op ≠ 5#4) : Inv s :=
  q.inv_resp hf fun hb => by simp [readsBack_eq_false hr h] at hb

theorem inv_reset : Inv State.reset :=
  quiet_reset.inv_idle rfl rfl

/-! ## Leaving the other control states -/

/-- KEYBUF, the argument counters, RSP and RDBK are all 0: what the invariants say wherever no argument word, response,
read-back word or key is being moved. -/
structure ControlClear (s : State) : Prop where
  noKey : s.keybuf = zeroKey
  noArgs : s.nargs = 0 ∧ s.argi = 0
  noResponse : s.rsp = 0#32
  noReadBack : s.rdbk = 0

/-- The control states in which nothing of that is being moved. -/
def movesNoControl (f : Fsm) : Prop :=
  f ≠ .args ∧ f ≠ .resp ∧ f ≠ .rdbk ∧ f ≠ .cphReq .expand

theorem Inv.controlClear {s : State} (h : Inv s) (hf : movesNoControl s.fsm) : ControlClear s := by
  obtain ⟨ha, hr, hb, hx⟩ := hf
  exact ⟨h.keybuf_zero (by simp [ha, hx]), h.due ha, h.pending hr, h.readBack hb⟩

/-- The invariants of a state whose command registers are 0, from those of its data path. -/
theorem ControlClear.inv {s : State} (c : ControlClear s) (hj : s.j.toNat ≤ 16) (hi : s.i.toNat ≤ s.len.toNat)
    (he : ∀ m, m < s.j.toNat → byteAt s.ks m = 0#8) (hk : s.keyValid = s.sched.isSome)
    (hx : s.inflight.map CphReq.op = awaited s.fsm) (hp : phase s) : Inv s :=
  ⟨hj, hi, he, hk, .inl c.noKey, fun _ => c.noArgs, fun _ => c.noResponse, fun _ => c.noReadBack, hx, hp⟩

/-- No data byte is under way while argument words are read, while WIPE is answered, and during read-back. -/
theorem Inv.resting_of {s : State} (h : Inv s) (hf : s.fsm = .args ∨ s.fsm = .cphRsp .wipe ∨ s.fsm = .rdbk) :
    resting s := by
  have hp := h.phase
  rcases hf with hf | hf | hf <;> simp only [Machine.phase, hf] at hp <;> exact hp.1

/-- The last argument word of a command without a key leaves nothing under way. -/
theorem Inv.quiet_of_lastArg {s : State} {i : Instr} (h : Inv s) (hf : s.fsm = .args) (hi : cmdInstr s.cmd = some i)
    (hk : ∀ dp, i ≠ .init true dp) : Quiet { s with nargs := 0, argi := 0 } := by
  obtain ⟨hj, hc⟩ := h.resting_of (.inl hf)
  exact ⟨hj, hc, h.ks_erased hj, h.keyState, h.keybuf_zero (by simp [not_expandsKey hi hk]), ⟨rfl, rfl⟩,
    h.readBack (by simp [hf]), h.no_request (by simp [hf, awaited])⟩

/-- During read-back nothing but RDBK is under way (30_encoding.md R83). -/
theorem Inv.quiet_of_readBack {s : State} (h : Inv s) (hf : s.fsm = .rdbk) :
    Quiet { s with rdbk := 0 } ∧ cmdInstr s.cmd = some (.getblk true) ∧ s.rdbk ≤ 4 := by
  have hp := h.phase
  simp only [Machine.phase, hf] at hp
  obtain ⟨⟨hj, hc⟩, hi, _, hle⟩ := hp
  exact ⟨⟨hj, hc, h.ks_erased hj, h.keyState, h.keybuf_zero (by simp [hf]), h.due (by simp [hf]), rfl,
    h.no_request (by simp [hf, awaited])⟩, hi, hle⟩

/-- Read-back words of a GETBLK with an engine are still to be given. -/
theorem Quiet.inv_readBack {s : State} (q : Quiet { s with rdbk := 0 }) (hf : s.fsm = .rdbk) (hr : s.rsp = 0#32)
    (hi : cmdInstr s.cmd = some (.getblk true)) (hn : 1 ≤ s.rdbk) (hle : s.rdbk ≤ 4) : Inv s := by
  obtain ⟨hj, hc, he, hk, hz, ha, _, hx⟩ := q
  simp only at hj hc he hk hz ha hx
  refine ⟨by simp [hj], by simp [hc], by simp [he], hk, .inl hz, fun _ => ha, fun _ => hr, fun hn => absurd hf hn, ?_, ?_⟩
  · simp [hf, hx, awaited]
  · simp [phase, resting, hf, hj, hc, hi, hn, hle]

/-- What holds while XCRYPT's clock and data bytes are under way. -/
theorem Inv.during_call {s : State} (h : Inv s)
    (hf : s.fsm = .cphReq .enc ∨ s.fsm = .cphRsp .enc ∨ s.fsm = .xcByte ∨ s.fsm = .xcOut) :
    ControlClear s ∧ cmdInstr s.cmd = some (.xcrypt true true) ∧ s.i.toNat < s.len.toNat := by
  have hp := h.phase
  refine ⟨h.controlClear ?_, ?_⟩ <;> rcases hf with hf | hf | hf | hf <;> simp_all [Machine.phase, movesNoControl]

/-- One more data byte of the call is still within its length. -/
theorem dataCount_succ_lt {i len : Word} (hi : i.toNat < len.toNat) (hl : i + 1#32 ≠ len) :
    (i + 1#32).toNat < len.toNat := by
  bv_omega

/-- A step of the cursor inside the block. -/
theorem cursor_succ {j : BitVec 5} (h : j.toNat < 16) : (j + 1#5).toNat = j.toNat + 1 := by
  bv_omega

/-! ## Every edge of the engine -/

theorem Inv.after_awaitArgs {s : State} (h : Inv s) (hf : s.fsm = .idle) {i : Instr} (hn : 0 < nargs i)
    (tr : List Transfer) :
    Inv { s with cmd := instrCmd i, nargs := nargs i, argi := 0, fsm := .args, traffic := tr } :=
  have q := h.quiet_of_idle hf
  { h with
    keyHeld := .inl q.noKey
    due := fun hn => absurd rfl hn
    pending := fun _ => h.pending (by simp [hf])
    readBack := fun _ => q.noReadBack
    flight := by simp [q.noRequest, awaited]
    phase := by simp [Machine.phase, resting, q.cursor, q.count, hn] }

theorem Inv.after_storeOne {s : State} (h : Inv s) (hf : s.fsm = .args) {i : Instr} (hi : cmdInstr s.cmd = some i)
    (hn : 1 < s.nargs) (w : Word) (tr : List Transfer) :
    Inv { s with
          keybuf := (storeArg i w s).keybuf, blkbuf := (storeArg i w s).blkbuf, len := (storeArg i w s).len
          nargs := s.nargs - 1, argi := s.argi + 1, traffic := tr } := by
  obtain ⟨hj, hc⟩ := h.resting_of (.inl hf)
  have hp := h.phase
  simp only [Machine.phase, hf, hi] at hp
  obtain ⟨_, _, hs⟩ := hp
  refine { h with
    count := by simp [hc]
    keyHeld := ?_
    due := fun hn => absurd hf hn
    phase := ?_ }
  · rcases storeArg_keybuf i w s with e | ⟨dp, rfl⟩
    · exact e ▸ h.keyHeld
    · exact .inr ⟨.inl hf, by cases dp <;> simp [expandsKey, hi]⟩
  · simp only [Machine.phase, resting, hf, hi]
    exact ⟨⟨hj, hc⟩, by omega, by omega⟩

theorem Inv.after_askExpand {s : State} (h : Inv s) (hf : s.fsm = .args) {dp : Bool}
    (hi : cmdInstr s.cmd = some (.init true dp)) (key : Key) (blk : Block) (tr : List Transfer) :
    Inv { s with
          keybuf := key, blkbuf := blk
          nargs := 0, argi := 0, kxErr := false, fsm := .cphReq .expand, traffic := tr } :=
  have hx : expandsKey s.cmd := by cases dp <;> simp [expandsKey, hi]
  { h with
    keyHeld := .inr ⟨.inr rfl, hx⟩
    due := fun _ => ⟨rfl, rfl⟩
    pending := fun _ => h.pending (by simp [hf])
    readBack := fun _ => h.readBack (by simp [hf])
    flight := by simp [h.no_request, hf, awaited]
    phase := ⟨h.resting_of (.inl hf), hx⟩ }

theorem Inv.after_beginCall {s : State} (h : Inv s) (hf : s.fsm = .args) (hi : cmdInstr s.cmd = some (.xcrypt true true))
    {w : Word} (hw : w ≠ 0#32) (tr : List Transfer) :
    Inv { s with len := w, nargs := 0, argi := 0, j := 16#5, i := 0#32, fsm := .cphReq .enc, traffic := tr } := by
  have q := h.quiet_of_lastArg hf hi (by simp)
  have hz : 0 < w.toNat := by bv_omega
  exact ControlClear.inv ⟨q.noKey, ⟨rfl, rfl⟩, h.pending (by simp [hf]), q.noReadBack⟩ (by simp) (by simp)
    (fun m _ => by rw [show _ = zeroBlock from q.erased, byteAt_zeroBlock]) h.keyState
    (by simp [show s.inflight = none from q.noRequest, awaited]) ⟨hi, rfl, hz⟩

/-- A request is taken, KEYBUF zeroed with it if it held a key: the control state that awaits the answer says of CMD and the
data path what the one that offered the request said. -/
theorem Inv.after_request {s : State} (h : Inv s) {op : CipherOp} (hf : s.fsm = .cphReq op) {r : CphReq} (hr : r.op = op)
    {key : Key} (hk : key = zeroKey) (cb : Block) (tr : List Transfer) :
    Inv { s with cb := cb, keybuf := key, inflight := some r, fsm := .cphRsp op, traffic := tr } := by
  refine ControlClear.inv ⟨hk, h.due (by simp [hf]), h.pending (by simp [hf]), h.readBack (by simp [hf])⟩ h.cursor h.count
    h.erased h.keyState (by simp [hr, awaited]) ?_
  have hp := h.phase
  cases op <;> simp only [Machine.phase, hf] at hp <;> exact hp

theorem Inv.after_byteIn {s : State} (h : Inv s) (hf : s.fsm = .xcByte) (out : Byte) (tr : List Transfer) :
    Inv { s with outb := out, ks := setByte s.ks s.j.toNat 0#8, j := s.j + 1#5, fsm := .xcOut, traffic := tr } := by
  obtain ⟨c, hi, hl⟩ := h.during_call (.inr (.inr (.inl hf)))
  have hp := h.phase
  simp only [Machine.phase, hf] at hp
  have hj := cursor_succ hp.2.1
  have erased : ∀ m, m < (s.j + 1#5).toNat → byteAt (setByte s.ks s.j.toNat 0#8) m = 0#8 := by
    intro m hm
    rw [byteAt_setByte]
    split
    · rfl
    · exact h.erased m (by omega)
  exact ControlClear.inv { c with } (by simp only; omega) h.count erased h.keyState (by simp [h.no_request, hf, awaited])
    ⟨hi, by simp only; omega, hl⟩

theorem Inv.after_byteOut {s : State} (h : Inv s) (hf : s.fsm = .xcOut) (hl : s.i + 1#32 ≠ s.len) {f : Fsm}
    (hn : (s.j = 16#5 ∧ f = .cphReq .enc) ∨ (s.j ≠ 16#5 ∧ f = .xcByte)) (tr : List Transfer) :
    Inv { s with i := s.i + 1#32, fsm := f, traffic := tr } := by
  obtain ⟨c, hi, hlt⟩ := h.during_call (.inr (.inr (.inr hf)))
  have hlt := dataCount_succ_lt hlt hl
  have hx := h.no_request (by simp [hf, awaited])
  have hj := h.cursor
  rcases hn with ⟨he, rfl⟩ | ⟨hn, rfl⟩
  · exact ControlClear.inv { c with } hj hlt.le h.erased h.keyState (by simp [hx, awaited]) ⟨hi, he, hlt⟩
  · exact ControlClear.inv { c with } hj hlt.le h.erased h.keyState (by simp [hx, awaited]) ⟨hi, by bv_omega, hlt⟩

/-- What an edge of the engine keeps, move by move. -/
theorem Move.keeps_inv {s t : State} (m : Move s t) (h : Inv s) : Inv t := by
  cases m with
  | stay => exact h
  | illegal w e hf => exact Quiet.inv_answer { h.quiet_of_idle hf with } rfl rfl (.inl (by decide))
  | awaitArgs i w hf _ _ hn => exact h.after_awaitArgs hf hn _
  | initNothing w hf =>
    exact Quiet.inv_answer
      { h.quiet_of_idle hf with cursor := rfl, count := rfl, erased := rfl, keyState := rfl } rfl rfl
      (.inr (cmd_op_ne_getblk (cmdInstr_instrCmd _) (by simp)))
  | absentAtOnce i w hf => exact Quiet.inv_answer { h.quiet_of_idle hf with } rfl rfl (.inl (by decide))
  | askWipe w hf =>
    have q := h.quiet_of_idle hf
    exact ControlClear.inv { h.controlClear (by simp [movesNoControl, hf]) with } h.cursor h.count h.erased h.keyState
      (by simp [q.noRequest, awaited]) ⟨⟨q.cursor, q.count⟩, rfl⟩
  | answerGetblk w hf => exact Quiet.inv_resp { h.quiet_of_idle hf with } rfl fun _ => rfl
  | storeOne i w hf hi _ hn => exact h.after_storeOne hf hi hn w _
  | askExpand dp w hf hi => exact h.after_askExpand hf hi _ _ _
  | initBlock dp w hf hi =>
    exact Quiet.inv_answer
      { h.quiet_of_lastArg hf hi (by simp) with cursor := rfl, count := rfl, erased := rfl, keyState := rfl } rfl rfl
      (.inr (cmd_op_ne_getblk hi (by simp)))
  | setBlock w hf hi =>
    exact Quiet.inv_answer { h.quiet_of_lastArg hf hi (by simp) with } rfl rfl (.inr (cmd_op_ne_getblk hi (by simp)))
  | absentAfterArgs i w hf hi hk =>
    have hk : ∀ dp, i ≠ .init true dp := by rcases hk with ⟨_, _, rfl, _⟩ | ⟨_, _, rfl, _⟩ <;> simp
    exact Quiet.inv_answer { h.quiet_of_lastArg hf hi hk with } rfl rfl (.inl (by decide))
  | emptyCall w hf hi =>
    exact Quiet.inv_answer
      { h.quiet_of_lastArg hf hi (by simp) with cursor := rfl, count := rfl, erased := rfl } rfl rfl
      (.inr (cmd_op_ne_getblk hi (by simp)))
  | beginCall w hf hi _ _ hw => exact h.after_beginCall hf hi hw _
  | sendExpand kp dp hf => exact h.after_request hf rfl rfl _ _
  | expanded kp dp r key hf hi =>
    have c := h.controlClear (by simp [movesNoControl, hf])
    refine Quiet.inv_answer ⟨rfl, rfl, rfl, ?_, c.noKey, c.noArgs, c.noReadBack, rfl⟩ rfl rfl
      (.inr (cmd_op_ne_getblk hi (by simp)))
    cases r.err <;> rfl
  | sendBlock ep dp hf => exact h.after_request hf rfl (h.keybuf_zero (by simp [hf])) _ _
  | loadKs ep dp r x hf =>
    obtain ⟨c, hi, hl⟩ := h.during_call (.inr (.inl hf))
    exact ControlClear.inv { c with } (by simp) h.count (by simp) h.keyState rfl ⟨hi, by simp, hl⟩
  | byteIn ep dp b hf => exact h.after_byteIn hf _ _
  | byteOut ep dp f hf _ _ hl hn => exact h.after_byteOut hf hl hn _
  | lastByteOut ep dp hf hi =>
    obtain ⟨c, _⟩ := h.during_call (.inr (.inr (.inr hf)))
    exact Quiet.inv_answer
      ⟨rfl, rfl, rfl, h.keyState, c.noKey, c.noArgs, c.noReadBack, h.no_request (by simp [hf, awaited])⟩ rfl rfl
      (.inr (cmd_op_ne_getblk hi (by simp)))
  | sendWipe ep hf => exact h.after_request hf rfl (h.keybuf_zero (by simp [hf])) _ _
  | wiped ep r hf hi =>
    have c := h.controlClear (by simp [movesNoControl, hf])
    obtain ⟨hj, hc⟩ := h.resting_of (.inr (.inl hf))
    exact Quiet.inv_answer ⟨hj, hc, h.ks_erased hj, rfl, c.noKey, c.noArgs, c.noReadBack, rfl⟩ rfl rfl
      (.inr (cmd_op_ne_getblk hi (by simp)))
  | answeredReadBack hf _ hb =>
    have hp := h.phase
    simp only [phase, hf] at hp
    exact Quiet.inv_readBack { h.quiet_of_resp hf with noReadBack := rfl } rfl rfl (hp.2 hb) (by simp) (by simp)
  | answered hf => exact Quiet.inv_idle { h.quiet_of_resp hf with } rfl rfl
  | readBack w hf _ hn =>
    obtain ⟨q, hc, hle⟩ := h.quiet_of_readBack hf
    exact Quiet.inv_readBack { q with } hf (h.pending (by simp [hf])) hc (by simp only; omega) (by simp only; omega)
  | lastReadBack w hf =>
    obtain ⟨q, _⟩ := h.quiet_of_readBack hf
    exact Quiet.inv_idle { q with } rfl (h.pending (by simp [hf]))

/-! ## Every step -/

/-- The inputs, the offers owed and the traffic are no part of the invariants. -/
theorem inv_advance {s t : State} (h : Inv t) : Inv (advance s t) := { h with }

theorem inv_resetEdge (s : State) : Inv (resetEdge s) := { inv_reset with }

theorem step_keeps_inv {s t : State} (h : Inv s) (hs : step s = .next t) : Inv t := by
  rcases step_cases hs with ⟨_, rfl⟩ | ⟨_, _, u, hu, rfl⟩
  · exact inv_resetEdge s
  · exact inv_advance ((engineEdge_move hu).keeps_inv h)

/-- Settles O44: the reset values are those of an engine with nothing under way. -/
theorem invariantsHoldAfterReset : Obligations.InvariantsHoldAfterReset :=
  inv_reset

/-- Settles O45, by the moves of the engine's edge (`Move.keeps_inv`) and the reset edge. -/
theorem stepKeepsInvariants : Obligations.StepKeepsInvariants :=
  fun _ _ => step_keeps_inv

/-- Settles O46: the step keeps the invariants, which leave nothing under way in IDLE. -/
theorem idleEngineHoldsNoSecretBytes : Obligations.IdleEngineHoldsNoSecretBytes := by
  intro s t h hs
  have ht := step_keeps_inv h hs
  refine ⟨ht.cursor, ht.count, fun hf => ?_⟩
  have q := ht.quiet_of_idle hf
  exact ⟨q.cursor, fun m _ => by rw [q.erased, byteAt_zeroBlock], q.count, q.noArgs.1,
    fun m _ => by rw [q.noKey, byteAt_zeroKey]⟩

end Sys2Proof.Machine
end

section
/-! PROOFS. Reset, and which command an edge belongs to (10_state.md R35, R39, R45). -/

namespace Sys2Proof.Machine

/-- Settles O15: each state element after reset, its bytes by `byteAt_zeroBlock` and `byteAt_zeroKey`. -/
theorem resetValues : Obligations.ResetValues :=
  ⟨fun m _ => byteAt_zeroBlock m, fun m _ => byteAt_zeroBlock m, rfl, rfl, rfl, rfl, rfl, rfl, rfl, rfl, rfl, rfl, rfl, rfl,
    rfl, fun m _ => byteAt_zeroKey m, fun m _ => byteAt_zeroBlock m, rfl⟩

/-- Where no reset is due and every agent keeps its contract, the step is the engine's own edge. -/
theorem step_eq_engineEdge {s : State} (hr : s.pins.rstN = true) (hc : contractBreach s = none) :
    step s = mapNext (advance s) (engineEdge s) := by
  simp [step, hr, hc]

theorem engineEdge_of_run {s : State} {i : Instr} (h : work s = .run i) : engineEdge s = exec i s := by
  rw [engineEdge, h]

/-- What `advance` sets with `rst_n = 1`: a word is taken in IDLE and ARGS alone, a data byte in XC_BYTE alone (R84, R154). -/
theorem advance_eq {s : State} (hr : s.pins.rstN = true) (t : State) :
    advance s t =
      { t with
        inputs := s.inputs.tail
        heldCmd := if takesWord s.fsm then none else s.pins.cmd
        heldDin := if s.fsm = .xcByte then none else s.pins.din } := by
  simp [advance, State.ports, hr]

theorem takesWord_eq_true {f : Fsm} : takesWord f = true ↔ f = .idle ∨ f = .args := by
  cases f <;> simp [takesWord]

/-- In IDLE every command has a next edge. -/
theorem exec_next_of_idle (i : Instr) {s : State} (hf : s.fsm = .idle) : ∃ t, exec i s = .next t := by
  cases i <;> simp [exec, execInit, execSetblk, execXcrypt, execTeardown, execGetblk, hf]

/-- Settles O17: the word offered in IDLE is transferred and decoded, so that the edge is its command's own. -/
theorem stepRunsDecodedCommand : Obligations.StepRunsDecodedCommand := by
  intro s w i hr hc hf hw hd
  obtain ⟨t, ht⟩ := exec_next_of_idle i hf
  have hin : cmdIn s = some w := cmdIn_eq_some.mpr ⟨hr, takesWord_eq_true.mpr (.inl hf), hw⟩
  have hrun : work s = .run i := by simp [work, hf, hin, hd]
  refine ⟨t, ht, ?_⟩
  rw [step_eq_engineEdge hr hc, engineEdge_of_run hrun, ht, mapNext_next, advance_eq hr]
  simp [hf, takesWord]

/-- Settles O18: outside IDLE the edge is that of the command in CMD. -/
theorem stepContinuesLatchedCommand : Obligations.StepContinuesLatchedCommand := by
  intro s i hr hc hf hi
  have hrun : work s = .run i := by simp [work, hf, hi]
  rw [step_eq_engineEdge hr hc, engineEdge_of_run hrun]
  constructor
  · intro t ht
    rw [ht, mapNext_next, advance_eq hr]
    simp [takesWord_eq_true, hf]
  · intro r ht
    rw [ht]
    rfl

end Sys2Proof.Machine
end

section
/-! PROOFS. What one edge moves, and the edges that alone write CB, KEY_VALID and KX_ERR (10_state.md R22, R23, R32, R33). -/

namespace Sys2Proof.Machine

/-- A step that is no reset edge is one move of the engine, and the inputs move on. -/
theorem step_move {s t : State} (hr : s.pins.rstN = true) (h : step s = .next t) : ∃ u, Move s u ∧ t = advance s u := by
  rcases step_cases h with ⟨hn, _⟩ | ⟨_, _, u, hu, rfl⟩
  · simp [hr] at hn
  · exact ⟨u, engineEdge_move hu, rfl⟩

/-! ## One transfer an edge -/

/-- Every move but `stay` is the transfer of one word, byte, request or answer. -/
theorem Move.traffic_cases {s t : State} (m : Move s t) : t.traffic = s.traffic ∨ ∃ x, t.traffic = s.traffic ++ [x] := by
  cases m with
  | stay => exact .inl rfl
  | _ => exact .inr ⟨_, rfl⟩

/-- Settles O20: an edge of the engine is one move, and a reset edge moves nothing. -/
theorem oneTransferPerEdge : Obligations.OneTransferPerEdge := by
  intro s t h
  rcases step_cases h with ⟨_, rfl⟩ | ⟨_, _, u, hu, rfl⟩
  · exact .inl rfl
  · exact (engineEdge_move hu).traffic_cases

/-! ## The last word of a command -/

/-- A command without argument words is complete with its command word. -/
theorem lastWord_of_idle {s : State} {i : Instr} {w : Word} (hf : s.fsm = .idle) (hn : nargs i = 0)
    (hc : cmdIn s = some w) (hd : decode w = .ok i) : LastWord s i :=
  .inl ⟨hf, hn, w, hc, hd⟩

/-- A command with argument words is complete with the last of them. -/
theorem lastWord_of_args {s : State} {i : Instr} {w : Word} (hf : s.fsm = .args) (hn : s.nargs ≤ 1)
    (hi : cmdInstr s.cmd = some i) (hc : cmdIn s = some w) : LastWord s i :=
  .inr ⟨hf, hn, hi, by simp [hc]⟩

/-! ## The counter block -/

/-- INC writes no byte below the counter field (41_counter_increment.md R102). -/
theorem byteAt_incFrom (n : Nat) (cb : Block) {m : Nat} (hm : m < 12) : byteAt (incFrom n cb) m = byteAt cb m := by
  have other : ∀ (b : Block) (k : Nat) (v : Byte), byteAt (setByte b (12 + k) v) m = byteAt b m := by
    intro b k v
    rw [byteAt_setByte, if_neg (by omega)]
  induction n generalizing cb with
  | zero => exact other cb 0 _
  | succ n ih =>
    have kept := other cb (n + 1) (byteAt cb (13 + n) + 1#8)
    rw [show 12 + (n + 1) = 13 + n by omega] at kept
    unfold incFrom
    split
    · rw [ih, kept]
    · exact kept

/-- The moves that write CB. -/
theorem Move.cb_cases {s t : State} (m : Move s t) :
    t.cb = s.cb ∨
    (s.fsm = .cphReq .enc ∧ t.fsm = .cphRsp .enc ∧ t.cb = inc s.cb) ∨
    (t.fsm = .resp ∧ ∃ kp dp, (LastWord s (.init false dp) ∨ ∃ key r, ExpandAnswered s kp dp key r) ∧
      t.cb = if dp then t.blkbuf else zeroBlock) ∨
    (t.fsm = .resp ∧ LastWord s (.setblk true true) ∧ t.cb = t.blkbuf) := by
  cases m with
  | sendBlock ep dp hf => exact .inr (.inl ⟨hf, rfl, rfl⟩)
  | initNothing w hf hc hd => exact .inr (.inr (.inl ⟨rfl, false, false, .inl (lastWord_of_idle hf rfl hc hd), rfl⟩))
  | initBlock dp w hf hi hc hn =>
    exact .inr (.inr (.inl ⟨rfl, false, dp, .inl (lastWord_of_args hf hn hi hc), rfl⟩))
  | expanded kp dp r key hf hi hr hx => exact .inr (.inr (.inl ⟨rfl, kp, dp, .inr ⟨key, r, hf, hi, hx, hr⟩, rfl⟩))
  | setBlock w hf hi hc hn => exact .inr (.inr (.inr ⟨rfl, lastWord_of_args hf hn hi hc, rfl⟩))
  | _ => exact .inl rfl

/-- Settles O47, by the moves that write CB; INC leaves bytes 0 to 11. -/
theorem counterBlockWriters : Obligations.CounterBlockWriters := by
  intro s t hr h
  obtain ⟨u, m, rfl⟩ := step_move hr h
  rcases m.cb_cases with same | ⟨hf, hf', hcb⟩ | init | setblk
  · exact .inl same
  · exact .inr (.inl ⟨hf, hf', hcb, fun k hk => by rw [advance_cb, hcb, inc, byteAt_incFrom 3 s.cb hk]⟩)
  · exact .inr (.inr (.inl init))
  · exact .inr (.inr (.inr setblk))

/-! ## KEY_VALID and KX_ERR -/

theorem Move.keyValid_set {s t : State} (m : Move s t) (hs : s.keyValid = false) (ht : t.keyValid = true) :
    ∃ kp dp key d, ExpandAnswered s kp dp key { err := false, data := d } ∧ t.sched = some (Config.expandKey key) := by
  cases m with
  | expanded kp dp r key hf hi hr hx =>
    obtain ⟨err, d⟩ := r
    cases err with
    | false => exact ⟨kp, dp, key, d, ⟨hf, hi, hx, hr⟩, rfl⟩
    | true => cases ht
  | initNothing | initBlock | wiped => cases ht
  | _ => exact (Bool.false_ne_true (hs.symm.trans ht)).elim

theorem Move.keyValid_cleared {s t : State} (m : Move s t) (hs : s.keyValid = true) (ht : t.keyValid = false) :
    t.sched = none ∧
      ((∃ dp, LastWord s (.init false dp)) ∨
        (∃ kp dp key d, ExpandAnswered s kp dp key { err := true, data := d }) ∨
        ∃ ep r, s.fsm = .cphRsp .wipe ∧ cmdInstr s.cmd = some (.teardown ep) ∧ s.inflight = some .wipe ∧
          cipherRsp s = some r) := by
  cases m with
  | initNothing w hf hc hd => exact ⟨rfl, .inl ⟨false, lastWord_of_idle hf rfl hc hd⟩⟩
  | initBlock dp w hf hi hc hn => exact ⟨rfl, .inl ⟨dp, lastWord_of_args hf hn hi hc⟩⟩
  | expanded kp dp r key hf hi hr hx =>
    obtain ⟨err, d⟩ := r
    cases err with
    | false => cases ht
    | true => exact ⟨rfl, .inr (.inl ⟨kp, dp, key, d, hf, hi, hx, hr⟩)⟩
  | wiped ep r hf hi hr hx => exact ⟨rfl, .inr (.inr ⟨ep, r, hf, hi, hx, hr⟩)⟩
  | _ => exact (Bool.false_ne_true (ht.symm.trans hs)).elim

theorem Move.kxErr_set {s t : State} (m : Move s t) (hs : s.kxErr = false) (ht : t.kxErr = true) :
    t.keyValid = false ∧ ∃ kp dp key d, ExpandAnswered s kp dp key { err := true, data := d } := by
  cases m with
  | expanded kp dp r key hf hi hr hx =>
    obtain ⟨err, d⟩ := r
    cases err with
    | false => exact (Bool.false_ne_true (hs.symm.trans ht)).elim
    | true => exact ⟨rfl, kp, dp, key, d, hf, hi, hx, hr⟩
  | initNothing | askExpand | initBlock => cases ht
  | _ => exact (Bool.false_ne_true (hs.symm.trans ht)).elim

theorem Move.kxErr_cleared {s t : State} (m : Move s t) (hs : s.kxErr = true) (ht : t.kxErr = false) :
    ∃ kp dp, LastWord s (.init kp dp) := by
  cases m with
  | initNothing w hf hc hd => exact ⟨false, false, lastWord_of_idle hf rfl hc hd⟩
  | askExpand dp w hf hi hc hn => exact ⟨true, dp, lastWord_of_args hf hn hi hc⟩
  | initBlock dp w hf hi hc hn => exact ⟨false, dp, lastWord_of_args hf hn hi hc⟩
  | expanded kp dp r key =>
    obtain ⟨err, d⟩ := r
    cases err with
    | false => exact (Bool.false_ne_true (ht.symm.trans hs)).elim
    | true => cases ht
  | _ => exact (Bool.false_ne_true (ht.symm.trans hs)).elim

/-- Settles O49: what the moves that set or clear a flag say of the edge. -/
theorem statusFlagWriters : Obligations.StatusFlagWriters := by
  intro s t hr h
  obtain ⟨u, m, rfl⟩ := step_move hr h
  exact ⟨m.keyValid_set, m.keyValid_cleared, m.kxErr_set, m.kxErr_cleared⟩

end Sys2Proof.Machine
end

section
/-! PROOFS. Words in byte strings, most significant byte first (20_memory.md R54, R56). -/

namespace Sys2Proof

/-! ## Four bytes and their word -/

/-- Packing is concatenation, the first byte in the highest bits. -/
theorem packWord_eq_append (b0 b1 b2 b3 : Byte) : packWord b0 b1 b2 b3 = b0 ++ b1 ++ b2 ++ b3 := by
  ext i hi
  simp only [packWord, BitVec.getElem_or, BitVec.getElem_shiftLeft]
  grind

/-- A byte put below a number: the number times 256 plus the byte. -/
theorem toNat_append_byte {n : Nat} (x : BitVec n) (b : Byte) : (x ++ b).toNat = x.toNat * 2 ^ 8 + b.toNat := by
  rw [BitVec.toNat_append, ← Nat.shiftLeft_add_eq_or_of_lt b.isLt, Nat.shiftLeft_eq]

/-- The number of a packed word is `be32` of its bytes (00_scope.md R14). -/
theorem toNat_packWord (b0 b1 b2 b3 : Byte) :
    (packWord b0 b1 b2 b3).toNat = b0.toNat * 2 ^ 24 + b1.toNat * 2 ^ 16 + b2.toNat * 2 ^ 8 + b3.toNat := by
  simp only [packWord_eq_append, toNat_append_byte]
  omega

theorem toNat_wordByte (w : Word) (k : Nat) : (wordByte w k).toNat = w.toNat / 2 ^ (24 - 8 * k) % 2 ^ 8 := by
  rw [wordByte, BitVec.extractLsb'_toNat, Nat.shiftRight_eq_div_pow]

/-- A word is the packing of its own bytes. -/
theorem packWord_wordByte (w : Word) : packWord (wordByte w 0) (wordByte w 1) (wordByte w 2) (wordByte w 3) = w := by
  apply BitVec.eq_of_toNat_eq
  simp only [toNat_packWord, toNat_wordByte]
  omega

/-! ## Reading and writing one word -/

theorem wordByte_getWord {n : Nat} (b : Vector Byte n) (m : Nat) {k : Nat} (hk : k < 4) :
    wordByte (getWord b m) k = byteAt b (4 * m + k) := by
  have first : byteAt b (4 * m) = byteAt b (4 * m + 0) := rfl
  apply BitVec.eq_of_toNat_eq
  rw [toNat_wordByte, getWord, toNat_packWord, first]
  interval_cases k <;> omega

/-- A write of word m puts the word's four bytes at 4m to 4m+3. -/
theorem byteAt_putWord_within {n : Nat} (b : Vector Byte n) (m : Nat) (w : Word) {k : Nat} (hk : k < 4)
    (hn : 4 * m + k < n) : byteAt (putWord b m w) (4 * m + k) = wordByte w k := by
  simp only [putWord, byteAt_setByte]
  interval_cases k <;> simp_all

/-- A write of word m leaves every byte outside 4m to 4m+3 as it was. -/
theorem byteAt_putWord_outside {n : Nat} (b : Vector Byte n) (m : Nat) (w : Word) {x : Nat}
    (hx : x < 4 * m ∨ 4 * m + 4 ≤ x) : byteAt (putWord b m w) x = byteAt b x := by
  have other (j : Nat) (hj : j < 4) : x ≠ 4 * m + j := by omega
  have first : x ≠ 4 * m := other 0 (by decide)
  simp [putWord, byteAt_setByte, first, other]

/-- The word read after a write is the word written. -/
theorem getWord_putWord {n : Nat} (b : Vector Byte n) (m : Nat) (w : Word) (hn : 4 * m + 4 ≤ n) :
    getWord (putWord b m w) m = w := by
  have written (k : Nat) (hk : k < 4) : byteAt (putWord b m w) (4 * m + k) = wordByte w k :=
    byteAt_putWord_within b m w hk (by omega)
  have first : byteAt (putWord b m w) (4 * m) = wordByte w 0 := written 0 (by decide)
  rw [getWord, first, written 1 (by decide), written 2 (by decide), written 3 (by decide), packWord_wordByte]

/-- Settles O8: what a write leaves at each byte, and each byte of a word read; word 3 of a block is CB.ctr by definition. -/
theorem wordPacking : Obligations.WordPacking :=
  ⟨fun _ b m w hn =>
    ⟨getWord_putWord b m w hn, fun _ hk => byteAt_putWord_within b m w hk (by omega),
      fun _ hx => byteAt_putWord_outside b m w hx⟩,
    fun _ b m _ hk => wordByte_getWord b m hk,
    fun cb => ⟨rfl, toNat_packWord (byteAt cb 12) (byteAt cb 13) (byteAt cb 14) (byteAt cb 15)⟩⟩

end Sys2Proof
end

section
/-! PROOFS. The decoder and the encoder (30_encoding.md R73 to R76, R86, R90): the legal words and the rows of the opcode
table. -/

namespace Sys2Proof

/-! ## The fields of a command word -/

/-- A command word is put together again from its fields. -/
theorem fieldsWord_wordFields (w : Word) : fieldsWord (wordFields w) = w := by
  ext n hn
  simp only [fieldsWord, wordFields, bitAt, BitVec.getElem_or, BitVec.getElem_shiftLeft]
  grind

theorem decode_encode (i : Instr) : decode (encode i) = .ok i := by
  cases i with
  | init kp dp => cases kp <;> cases dp <;> rfl
  | setblk ep dp => cases ep <;> cases dp <;> rfl
  | xcrypt ep dp => cases ep <;> cases dp <;> rfl
  | teardown ep => cases ep <;> rfl
  | getblk ep => cases ep <;> rfl

/-- What the decoder checks, one condition each. -/
theorem decodeFields_eq_ok_iff {c : Cmd32} {i : Instr} :
    decodeFields c = .ok i ↔
      opInstr c = some i ∧ c.reservedZero = true ∧ c.epAllowed = true ∧ c.dpAllowed = true ∧ c.kpAllowed = true := by
  unfold decodeFields
  cases opInstr c with
  | none => simp
  | some k =>
    cases c.reservedZero with
    | false => simp
    | true =>
      cases c.epAllowed with
      | false => simp
      | true => cases c.dpAllowed <;> cases c.kpAllowed <;> simp

/-- The opcode map gives a command exactly for the OPs it lists (R75). -/
theorem exists_opInstr {c : Cmd32} : (∃ i, opInstr c = some i) ↔ c.opListed = true := by
  rw [← Option.isSome_iff_exists]
  unfold opInstr Cmd32.opListed
  have := c.op.isLt
  generalize c.op.toNat = n at this
  interval_cases n <;> rfl

/-- The decoder takes exactly the legal fields (R76). -/
theorem exists_decodeFields {c : Cmd32} : (∃ i, decodeFields c = .ok i) ↔ c.legal = true := by
  simp only [decodeFields_eq_ok_iff, exists_and_right, exists_opInstr, Cmd32.legal, Bool.and_eq_true, and_assoc]

@[simp] theorem fields_rsvd (i : Instr) : i.fields.rsvd = 0#25 := by
  cases i <;> rfl

/-- The fields the decoder takes are those of the command it gives: with bits [31:7] zero they are what CMD latches. -/
theorem fields_of_decodeFields {c : Cmd32} {i : Instr} (h : decodeFields c = .ok i) : i.fields = c := by
  obtain ⟨_, hr, _⟩ := decodeFields_eq_ok_iff.mp h
  obtain ⟨op, ep, dp, kp, rsvd⟩ := c
  obtain rfl : rsvd = 0#25 := by simpa [Cmd32.reservedZero] using hr
  have latched : Machine.cmdInstr ⟨op, ep, dp, kp⟩ = some i := by rw [Machine.cmdInstr, h]; rfl
  obtain ⟨hop, hep, hdp, hkp⟩ : op = i.fields.op ∧ ep = i.fields.ep ∧ dp = i.fields.dp ∧ kp = i.fields.kp := by
    simpa [Machine.instrCmd] using Machine.cmdInstr_eq_some.mp latched
  rw [hop, hep, hdp, hkp, ← fields_rsvd i]

theorem encode_of_decode {w : Word} {i : Instr} (h : decode w = .ok i) : encode i = w := by
  rw [encode, fields_of_decodeFields h, fieldsWord_wordFields]

/-- Settles O2: `encode_of_decode` one way, `decode_encode` the other. -/
theorem decodeInvertsEncode : Obligations.DecodeInvertsEncode := by
  intro w i
  constructor
  · exact encode_of_decode
  · rintro rfl
    exact decode_encode i

/-! ## Legal words -/

theorem epAllowed_iff (c : Cmd32) : c.epAllowed = true ↔ (c.op.toNat = 1 → c.ep = false) := by
  simp [Cmd32.epAllowed, ← BitVec.toNat_inj, imp_iff_not_or]

theorem dpAllowed_iff (c : Cmd32) :
    c.dpAllowed = true ↔ (c.op.toNat = 4 ∨ c.op.toNat = 5 → c.dp = false) := by
  simp [Cmd32.dpAllowed, ← BitVec.toNat_inj, imp_iff_not_or]

theorem kpAllowed_iff (c : Cmd32) :
    c.kpAllowed = true ↔
      (c.op.toNat = 2 ∨ c.op.toNat = 3 ∨ c.op.toNat = 4 ∨ c.op.toNat = 5 → c.kp = false) := by
  simp [Cmd32.kpAllowed, ← BitVec.toNat_inj, imp_iff_not_or, and_assoc]

/-- R76, its "must be 0" bits written as in the opcode map (R75). -/
theorem legal_iff (c : Cmd32) :
    c.legal = true ↔
      1 ≤ c.op.toNat ∧ c.op.toNat ≤ 5 ∧ c.rsvd = 0#25 ∧
        (c.op.toNat = 1 → c.ep = false) ∧
        (c.op.toNat = 4 ∨ c.op.toNat = 5 → c.dp = false) ∧
        (c.op.toNat = 2 ∨ c.op.toNat = 3 ∨ c.op.toNat = 4 ∨ c.op.toNat = 5 → c.kp = false) := by
  rw [← epAllowed_iff, ← dpAllowed_iff, ← kpAllowed_iff]
  simp only [Cmd32.legal, Cmd32.opListed, Cmd32.reservedZero, Bool.and_eq_true, decide_eq_true_eq, beq_iff_eq, and_assoc]

/-- Settles O3: the decoder takes exactly the legal fields (`exists_decodeFields`), read off the word. -/
theorem legalWordsExactly : Obligations.LegalWordsExactly :=
  fun w => exists_decodeFields.trans (legal_iff (wordFields w))

/-! ## The opcode table -/

/-- The instruction of the row of `i` whose variable bits are those of the word. -/
def rowInstr (w : Word) : Instr → Instr
  | .init _ _ => .init (w.getLsbD 6) (w.getLsbD 5)
  | .setblk _ _ => .setblk (w.getLsbD 4) (w.getLsbD 5)
  | .xcrypt _ _ => .xcrypt (w.getLsbD 4) (w.getLsbD 5)
  | .teardown _ => .teardown (w.getLsbD 4)
  | .getblk _ => .getblk (w.getLsbD 4)

@[simp] theorem rowMatch_rowInstr (w : Word) (i : Instr) : rowMatch (rowInstr w i) = rowMatch i := by
  cases i <;> rfl

/-- A word under the mask of one bit. -/
theorem and_bit (w : Word) (n : Nat) : w &&& BitVec.twoPow 32 n = bitAt (w.getLsbD n) n := by
  rw [BitVec.and_twoPow]
  cases w.getLsbD n <;> simp [bitAt, BitVec.twoPow_eq]

theorem and_two_bits (w : Word) (m n : Nat) :
    w &&& (BitVec.twoPow 32 m ||| BitVec.twoPow 32 n) = bitAt (w.getLsbD m) m ||| bitAt (w.getLsbD n) n := by
  rw [BitVec.and_or_distrib_left, and_bit, and_bit]

/-- The word of a row's instruction: the match value, and the word's own bits where the mask is 0. -/
theorem encode_rowInstr (w : Word) (i : Instr) : encode (rowInstr w i) = rowMatch i ||| (w &&& ~~~ rowMask i) := by
  cases i with
  | init kp dp =>
    simp only [rowInstr, rowMatch, rowMask]
    rw [show ~~~ 0xFFFFFF9F#32 = BitVec.twoPow 32 6 ||| BitVec.twoPow 32 5 by decide, and_two_bits]
    cases w.getLsbD 6 <;> cases w.getLsbD 5 <;> rfl
  | setblk ep dp | xcrypt ep dp =>
    simp only [rowInstr, rowMatch, rowMask]
    rw [show ~~~ 0xFFFFFFCF#32 = BitVec.twoPow 32 4 ||| BitVec.twoPow 32 5 by decide, and_two_bits]
    cases w.getLsbD 4 <;> cases w.getLsbD 5 <;> rfl
  | teardown ep | getblk ep =>
    simp only [rowInstr, rowMatch, rowMask]
    rw [show ~~~ 0xFFFFFFEF#32 = BitVec.twoPow 32 4 by decide, and_bit]
    cases w.getLsbD 4 <;> rfl

/-- The command word of an instruction fits its own row. -/
theorem encode_fits (i : Instr) : encode i &&& rowMask i = rowMatch i := by
  cases i with
  | init kp dp => exact Laws.FitsRow.init kp dp
  | setblk ep dp => exact Laws.FitsRow.setblk ep dp
  | xcrypt ep dp => exact Laws.FitsRow.xcrypt ep dp
  | teardown ep => exact Laws.FitsRow.teardown ep
  | getblk ep => exact Laws.FitsRow.getblk ep

/-- The mask of the row with this match value. -/
def maskOfMatch (m : Word) : Word :=
  if m = 1#32 then 0xFFFFFF9F#32 else if m = 2#32 ∨ m = 3#32 then 0xFFFFFFCF#32 else 0xFFFFFFEF#32

theorem rowMask_eq_maskOfMatch (i : Instr) : rowMask i = maskOfMatch (rowMatch i) := by
  cases i <;> rfl

/-- Settles O4: a word that fits a row is the word of that row's instruction with the word's own variable bits. -/
theorem opcodeTableAgrees : Obligations.OpcodeTableAgrees := by
  intro w i
  constructor
  · intro h
    have whole : encode (rowInstr w i) = w := by
      rw [encode_rowInstr, ← h, ← BitVec.and_or_distrib_left]
      rw [BitVec.or_not_self, BitVec.and_allOnes]
    have decoded : decode w = .ok (rowInstr w i) := (decodeInvertsEncode w _).mpr whole
    exact ⟨rowInstr w i, decoded, rowMatch_rowInstr w i⟩
  · rintro ⟨k, hd, hk⟩
    rw [← encode_of_decode hd, rowMask_eq_maskOfMatch i, ← hk, ← rowMask_eq_maskOfMatch, encode_fits]

/-- Settles O6: each word is evaluated. -/
theorem specWordsDecode : Obligations.SpecWordsDecode :=
  ⟨rfl, rfl, rfl, rfl, rfl, rfl, rfl, rfl, rfl, rfl, rfl, rfl⟩

end Sys2Proof
end

section
/-! PROOFS. A command on the word stream (30_encoding.md R78, R79, R87, R89): its argument words, its length, and reading it
back. -/

namespace Sys2Proof

/-! ## The words of a byte string -/

@[simp] theorem length_getWords {n : Nat} (b : Vector Byte n) (count : Nat) : (getWords b count).length = count := by
  simp [getWords]

/-- Copying word m of one byte string to another copies bytes 4m to 4m+3. -/
theorem byteAt_putWord_getWord {n : Nat} (b c : Vector Byte n) {m : Nat} (hn : 4 * m + 4 ≤ n) (x : Nat) :
    byteAt (putWord b m (getWord c m)) x = if 4 * m ≤ x ∧ x < 4 * m + 4 then byteAt c x else byteAt b x := by
  split
  case isTrue h =>
    obtain ⟨k, rfl⟩ := Nat.exists_eq_add_of_le h.1
    have hk : k < 4 := by omega
    rw [byteAt_putWord_within b m _ hk (by omega), wordByte_getWord c m hk]
  case isFalse h => exact byteAt_putWord_outside b m _ (by omega)

/-- Copying consecutive words of one byte string to another copies their bytes. -/
theorem byteAt_putWords_getWord {n : Nat} (c : Vector Byte n) (count : Nat) (b : Vector Byte n) (m : Nat)
    (hn : 4 * (m + count) ≤ n) (x : Nat) :
    byteAt (putWords b m ((List.range' m count).map (getWord c))) x =
      if 4 * m ≤ x ∧ x < 4 * (m + count) then byteAt c x else byteAt b x := by
  induction count generalizing b m with
  | zero => rw [if_neg (by omega)]; rfl
  | succ count ih =>
    rw [List.range'_succ, List.map_cons, putWords, ih _ _ (by omega), byteAt_putWord_getWord b c (by omega)]
    grind

/-- All words of a byte string, written over any other of its length, give it back (R79). -/
theorem putWords_getWords {n count : Nat} (b c : Vector Byte n) (hn : n = 4 * count) :
    putWords b 0 (getWords c count) = c := by
  apply bytes_ext
  intro x hx
  rw [getWords, List.range_eq_range', byteAt_putWords_getWord c count b 0 (by omega), if_pos (by omega)]

/-! ## The argument words of a command -/

@[simp] theorem length_keyArgs (key : Option Key) : (keyArgs key).length = 8 * key.isSome.toNat := by
  cases key <;> simp [keyArgs]

@[simp] theorem length_blockArgs (block : Option Block) : (blockArgs block).length = 4 * block.isSome.toNat := by
  cases block <;> simp [blockArgs]

/-- A command has as many argument words as NARGS says of its command word (R78). -/
theorem length_args (c : Command) : c.args.length = nargs c.instr := by
  cases c with
  | init key block => simp [Command.args, Command.instr, nargs]
  | setblk ep block => simp [Command.args, Command.instr, nargs]
  | xcrypt ep len => cases len <;> rfl
  | teardown ep => rfl
  | getblk ep => rfl

/-- The block read from its argument words. -/
theorem block_of_blockArgs (block : Option Block) :
    (if block.isSome then some (putWords zeroBlock 0 (blockArgs block)) else none) = block := by
  cases block with
  | none => rfl
  | some b => exact congrArg some (putWords_getWords zeroBlock b (count := 4) rfl)

/-- The key read from the argument words, which stand before those of the block. -/
theorem key_of_keyArgs (key : Option Key) (rest : List Word) :
    (if key.isSome then some (putWords zeroKey 0 ((keyArgs key ++ rest).take 8)) else none) = key := by
  cases key with
  | none => rfl
  | some k =>
    have eight : (keyArgs (some k)).length = 8 := length_keyArgs (some k)
    rw [List.take_left' eight]
    exact congrArg some (putWords_getWords zeroKey k (count := 8) rfl)

/-- What follows the argument words of the key. -/
theorem drop_keyArgs (key : Option Key) (rest : List Word) :
    (if key.isSome then (keyArgs key ++ rest).drop 8 else keyArgs key ++ rest) = rest := by
  cases key with
  | none => rfl
  | some k => exact List.drop_left' (length_keyArgs (some k))

/-- A command is read back from its command word and its argument words (R78, R79). -/
theorem commandOf_args (c : Command) : commandOf c.instr c.args = some c := by
  unfold commandOf
  rw [if_pos (length_args c)]
  cases c with
  | init key block =>
    simp only [Command.instr, Command.args]
    rw [key_of_keyArgs, drop_keyArgs, block_of_blockArgs]
  | setblk ep block => simp only [Command.instr, Command.args, block_of_blockArgs]
  | xcrypt ep len => cases len <;> rfl
  | teardown ep => rfl
  | getblk ep => rfl

/-- Settles O1: the command word gives the number of argument words, and these give the arguments (`commandOf_args`). -/
theorem commandStreamRoundTrip : Obligations.CommandStreamRoundTrip := by
  intro c rest
  have taken : (c.args ++ rest).take (nargs c.instr) = c.args := List.take_left' (length_args c)
  have left : (c.args ++ rest).drop (nargs c.instr) = rest := List.drop_left' (length_args c)
  simp only [assemble, List.cons_append, parseCommand, decode_encode, taken, left, commandOf_args]

/-! ## The length of a command -/

theorem commandLength_of_ok {w : Word} {i : Instr} (h : decode w = .ok i) : commandLength w = 1 + nargs i := by
  rw [commandLength, h]

theorem commandLength_of_error {w : Word} {e : Reject} (h : decode w = .error e) : commandLength w = 1 := by
  rw [commandLength, h]

/-- Settles O5: NARGS of the command decoded, and as many argument words (`length_args`). -/
theorem commandLengthFromFirstWord : Obligations.CommandLengthFromFirstWord := by
  refine ⟨fun _ _ => commandLength_of_error, ?_, ?_⟩
  · intro w i h
    rw [commandLength_of_ok h]
    cases i <;> simp [nargs, Nat.add_assoc]
  · intro c
    rw [commandLength_of_ok (decode_encode c.instr), assemble, List.length_cons, length_args, Nat.add_comm]

/-- The words of `XCRYPT e, <len>` (R89). -/
theorem assemble_xcrypt (len : Word) : assemble (.xcrypt true (some len)) = [0x00000033#32, len] := by
  have word : encode (.xcrypt true true) = 0x00000033#32 := rfl
  rw [assemble, Command.instr, Option.isSome_some, word]
  rfl

/-- Settles O7: each line is assembled as the command it stands for. -/
theorem aliasesAssembleAlike : Obligations.AliasesAssembleAlike :=
  ⟨fun len => ⟨assemble_xcrypt len, assemble_xcrypt len⟩, fun _ _ => ⟨rfl, rfl⟩, fun _ => rfl, rfl, rfl⟩

end Sys2Proof
end

section
/-! PROOFS. The words on the ports (30_encoding.md R70, R80, R91), when each port is ready or offers (R84), and the offers the
engine keeps up (R71). -/

namespace Sys2Proof.Machine

/-! ## The data lines of the collaborator port -/

/-- Byte k of a byte string on that many data lines, byte 0 highest. -/
theorem bytesNat_extract {n width : Nat} (hw : width = 8 * n) (b : Vector Byte n) {k : Nat} (hk : k < n) :
    (BitVec.ofNat width (bytesNat b)).extractLsb' (8 * (n - 1 - k)) 8 = byteAt b k := by
  have hlt : bytesNat b < 2 ^ width := by rw [hw, pow_mul]; exact bytesNat_lt b
  apply BitVec.eq_of_toNat_eq
  rw [BitVec.extractLsb'_toNat, BitVec.toNat_ofNat, Nat.mod_eq_of_lt hlt, Nat.shiftRight_eq_div_pow, pow_mul]
  exact bytesNat_byte b k hk

/-- Byte k of the key on the data lines, byte 0 in [255:248]. -/
theorem reqData_expand_byte (key : Key) {k : Nat} (hk : k < 32) :
    (reqData (.expand key)).extractLsb' (248 - 8 * k) 8 = byteAt key k := by
  rw [show 248 - 8 * k = 8 * (32 - 1 - k) by omega]
  exact bytesNat_extract rfl key hk

/-- Byte k of the block on the data lines, byte 0 in [127:120]. -/
theorem reqData_enc_byte (b : Block) {k : Nat} (hk : k < 16) :
    (reqData (.enc b)).extractLsb' (120 - 8 * k) 8 = byteAt b k := by
  rw [← blockBits_byte b k hk, reqData, BitVec.extractLsb'_setWidth_of_le (by omega)]

/-- The upper data lines of an ENC request are 0. -/
theorem reqData_enc_high (b : Block) : (reqData (.enc b)).extractLsb' 128 128 = 0#128 := by
  apply BitVec.eq_of_toNat_eq
  rw [reqData, BitVec.extractLsb'_toNat, BitVec.toNat_setWidth_of_le (by omega), Nat.shiftRight_eq_div_pow,
    Nat.div_eq_of_lt (blockBits b).isLt]
  rfl

/-- Settles O14: each byte of the requests and of the answer. -/
theorem collaboratorPortWords : Obligations.CollaboratorPortWords :=
  ⟨fun key _ hk => reqData_expand_byte key hk, fun b _ hk => reqData_enc_byte b hk, reqData_enc_high,
    fun d k hk => byteAt_bitsBlock d k hk, rfl, rfl, rfl, rfl⟩

/-! ## The response word -/

/-- Settles O12: the fields of the response word of each CODE, and the spec's examples. -/
theorem responseWordLayout : Obligations.ResponseWordLayout := by
  refine ⟨fun c op kv kx => ?_, rfl, rfl, rfl, rfl, rfl, rfl⟩
  revert op kv kx
  cases c <;> decide

/-! ## The ports -/

/-- The ports while `rst_n = 1`. -/
theorem ports_of_running {s : State} (hr : s.pins.rstN = true) :
    s.ports =
      { cmdReady := takesWord s.fsm
        rsp := rspOffer s
        dinReady := s.fsm == .xcByte
        dout := if s.fsm = .xcOut then some s.outb else none
        cphReq := reqOffer s
        cphRspReady := takesCipherRsp s.fsm } := by
  simp [State.ports, hr]

theorem rspOffer_isSome {s : State} : (rspOffer s).isSome = true ↔ s.fsm = .resp ∨ s.fsm = .rdbk := by
  cases hf : s.fsm <;> simp [rspOffer, hf]

theorem reqOffer_isSome {s : State} : (reqOffer s).isSome = true ↔ ∃ op, s.fsm = .cphReq op := by
  cases hf : s.fsm with
  | cphReq op => cases op <;> simp [reqOffer, hf]
  | _ => simp [reqOffer, hf]

theorem takesCipherRsp_eq_true {f : Fsm} : takesCipherRsp f = true ↔ ∃ op, f = .cphRsp op := by
  cases f <;> simp [takesCipherRsp]

/-- Settles O13, port by port. -/
theorem portsReadyByState : Obligations.PortsReadyByState := by
  intro s hr
  rw [ports_of_running hr]
  exact ⟨takesWord_eq_true, beq_iff_eq, by simp, rspOffer_isSome, reqOffer_isSome, takesCipherRsp_eq_true⟩

/-! ## Offers kept up -/

theorem cmdIn_eq_none {s : State} (h : takesWord s.fsm = false) : cmdIn s = none :=
  Option.eq_none_iff_forall_ne_some.mpr fun _ e => by simp [cmdIn_eq_some, h] at e

theorem rspOut_eq_none {s : State} (h : rspOffer s = none) : rspOut s = none :=
  Option.eq_none_iff_forall_ne_some.mpr fun _ e => by simp [rspOut_eq_some, h] at e

theorem dataIn_eq_none {s : State} (h : s.fsm ≠ .xcByte) : dataIn s = none :=
  Option.eq_none_iff_forall_ne_some.mpr fun _ e => by simp [dataIn_eq_some, h] at e

theorem dataOut_eq_none {s : State} (h : s.fsm ≠ .xcOut) : dataOut s = none :=
  Option.eq_none_iff_forall_ne_some.mpr fun _ e => by simp [dataOut_eq_some, h] at e

theorem cipherReq_eq_none {s : State} (h : reqOffer s = none) : cipherReq s = none :=
  Option.eq_none_iff_forall_ne_some.mpr fun _ e => by simp [cipherReq_eq_some, h] at e

theorem cipherRsp_eq_none {s : State} (h : takesCipherRsp s.fsm = false) : cipherRsp s = none :=
  Option.eq_none_iff_forall_ne_some.mpr fun _ e => by simp [cipherRsp_eq_some, h] at e

/-- Nothing is transferred at this edge. -/
structure NoTransfer (s : State) : Prop where
  noCmd : cmdIn s = none
  noRsp : rspOut s = none
  noDin : dataIn s = none
  noDout : dataOut s = none
  noReq : cipherReq s = none
  noAnswer : cipherRsp s = none

/-- Every move but `stay` is a transfer, so that without one nothing moves (60_exceptions.md R258). -/
theorem Move.eq_of_noTransfer {s t : State} (m : Move s t) (h : NoTransfer s) : t = s := by
  obtain ⟨noCmd, noRsp, noDin, noDout, noReq, noAnswer⟩ := h
  cases m with
  | stay => rfl
  | _ => simp_all

/-- Where a response or read-back word is on offer, nothing else can be transferred. -/
theorem noTransfer_of_rspOffer {s : State} {w : Word} (h : rspOffer s = some w) (hn : rspOut s = none) :
    NoTransfer s := by
  have hf : s.fsm = .resp ∨ s.fsm = .rdbk := rspOffer_isSome.mp (by simp [h])
  refine ⟨cmdIn_eq_none ?_, hn, dataIn_eq_none ?_, dataOut_eq_none ?_, cipherReq_eq_none ?_, cipherRsp_eq_none ?_⟩ <;>
    rcases hf with hf | hf <;> simp [hf, takesWord, reqOffer, takesCipherRsp]

/-- Where a data byte is on offer, nothing else can be transferred. -/
theorem noTransfer_of_xcOut {s : State} (hf : s.fsm = .xcOut) (hn : dataOut s = none) : NoTransfer s := by
  refine ⟨cmdIn_eq_none ?_, rspOut_eq_none ?_, dataIn_eq_none ?_, hn, cipherReq_eq_none ?_, cipherRsp_eq_none ?_⟩ <;>
    simp [hf, takesWord, rspOffer, reqOffer, takesCipherRsp]

/-- Where a collaborator request is on offer, nothing else can be transferred. -/
theorem noTransfer_of_reqOffer {s : State} {r : CphReq} (h : reqOffer s = some r) (hn : cipherReq s = none) :
    NoTransfer s := by
  obtain ⟨op, hf⟩ : ∃ op, s.fsm = .cphReq op := reqOffer_isSome.mp (by simp [h])
  refine ⟨cmdIn_eq_none ?_, rspOut_eq_none ?_, dataIn_eq_none ?_, dataOut_eq_none ?_, hn, cipherRsp_eq_none ?_⟩ <;>
    simp [hf, takesWord, rspOffer, takesCipherRsp]

/-- At the edge after one without a transfer the engine drives its ports as before. -/
theorem ports_advance_self {s : State} (hr : s.pins.rstN = true) (hr' : (advance s s).pins.rstN = true) :
    (advance s s).ports = s.ports := by
  rw [ports_of_running hr, ports_of_running hr']
  rfl

/-- Settles O21: an offer not taken leaves no transfer at that edge, so that the engine stays as it is. -/
theorem engineHoldsItsOffers : Obligations.EngineHoldsItsOffers := by
  intro s t hr hr' h
  obtain ⟨u, m, rfl⟩ := step_move hr h
  have kept (n : NoTransfer s) : (advance s u).ports = s.ports := by
    obtain rfl := m.eq_of_noTransfer n
    exact ports_advance_self hr hr'
  refine ⟨fun w ho hn => ?_, fun b ho hn => ?_, fun r ho hn => ?_⟩
  · rw [kept (noTransfer_of_rspOffer (by rwa [ports_of_running hr] at ho) hn), ho]
  · have hf : s.fsm = .xcOut := by
      rw [ports_of_running hr] at ho
      by_contra hf
      simp [hf] at ho
    rw [kept (noTransfer_of_xcOut hf hn), ho]
  · rw [kept (noTransfer_of_reqOffer (by rwa [ports_of_running hr] at ho) hn), ho]

end Sys2Proof.Machine
end

section
/-! PROOFS. Taking a command word and its argument words, and giving the response (30_encoding.md R77 to R79, R83). -/

namespace Sys2Proof.Machine

/-! ## The command word -/

/-- Settles O23: an illegal word is the engine's edge `illegalCommand`. -/
theorem illegalWordAnswered : Obligations.IllegalWordAnswered := by
  intro s w e hr hc hf hw hd
  have taken : cmdIn s = some w := cmdIn_eq_some.mpr ⟨hr, takesWord_eq_true.mpr (.inl hf), hw⟩
  have illegal : work s = .illegal w := by simp [work, hf, taken, hd]
  have edge : engineEdge s = .next (illegalCommand w s) := by rw [engineEdge, illegal]
  rw [step_eq_engineEdge hr hc, edge, mapNext_next, advance_eq hr, hf]
  rfl

/-- In IDLE every command takes its command word. -/
theorem exec_idle (i : Instr) {s : State} (hf : s.fsm = .idle) :
    ∃ done : State → State, exec i s = .next (takeCommand i done s) := by
  cases i with
  | init kp dp => exact ⟨startInit kp dp, by simp [exec, execInit, hf]⟩
  | setblk ep dp => exact ⟨finishSetblk ep dp, by simp [exec, execSetblk, hf]⟩
  | xcrypt ep dp => exact ⟨startCall ep dp, by simp [exec, execXcrypt, hf]⟩
  | teardown ep => exact ⟨startTeardown ep, by simp [exec, execTeardown, hf]⟩
  | getblk ep => exact ⟨finishGetblk ep, by simp [exec, execGetblk, hf]⟩

/-- A command word with argument words to come has no effect but to be latched. -/
theorem takeCommand_of_pos {i : Instr} {s : State} {w : Word} (done : State → State) (hc : cmdIn s = some w)
    (hn : 0 < nargs i) :
    takeCommand i done s =
      { s with
        cmd := instrCmd i, nargs := nargs i, argi := 0, fsm := .args, traffic := s.traffic ++ [.cmdIn w] } := by
  rw [takeCommand, hc]
  exact if_neg hn.ne'

/-- Settles O24: with argument words to come the command word is only latched (`takeCommand_of_pos`). -/
theorem commandWaitsForArguments : Obligations.CommandWaitsForArguments := by
  intro i s w hf hc hn
  obtain ⟨done, he⟩ := exec_idle i hf
  rw [he, takeCommand_of_pos done hc hn, instrCmd]

/-! ## Argument words -/

/-- An argument word before the last is stored and has no other effect. -/
theorem takeArgument_of_more (store : Word → State → State) (done : State → State) {s : State}
    {w : Word} (hc : cmdIn s = some w) (hn : 1 < s.nargs) :
    takeArgument store done s = note (.cmdIn w) { store w s with nargs := s.nargs - 1, argi := s.argi + 1 } := by
  rw [takeArgument, hc]
  exact if_neg hn.not_ge

theorem execInit_args (kp dp : Bool) {s : State} (hf : s.fsm = .args) :
    exec (.init kp dp) s = .next (takeArgument (storeInitArg kp) (startInit kp dp) s) := by
  simp [exec, execInit, hf]

theorem execSetblk_args (ep dp : Bool) {s : State} (hf : s.fsm = .args) :
    exec (.setblk ep dp) s = .next (takeArgument storeSetblkArg (finishSetblk ep dp) s) := by
  simp [exec, execSetblk, hf]

/-- Settles O25, for INIT by where `storeInitArg` puts the word. -/
theorem argumentWordStored : Obligations.ArgumentWordStored := by
  intro s w hf hc hn
  constructor
  · intro kp dp
    rw [execInit_args kp dp hf, takeArgument_of_more _ _ hc hn]
    rcases storeInitArg_cases kp w s with ⟨hk, ha, e⟩ | ⟨hb, e⟩ <;> rw [e]
    · simp [hk, ha, note]
    · cases kp with
      | true =>
        have ha : ¬ s.argi < 8 := fun ha => hb ⟨rfl, ha⟩
        simp [ha, note]
      | false => simp [note]
  · intro ep dp
    rw [execSetblk_args ep dp hf, takeArgument_of_more _ _ hc hn]
    rfl

/-! ## The response -/

/-- In RESP the edge of every command gives the response. -/
theorem exec_resp (i : Instr) {s : State} (hf : s.fsm = .resp) : exec i s = .next (takeResponse s) := by
  cases i <;> simp [exec, execInit, execSetblk, execXcrypt, execTeardown, execGetblk, hf]

/-- In RESP the engine gives the response whatever CMD holds. -/
theorem engineEdge_resp {s : State} (hf : s.fsm = .resp) : engineEdge s = .next (takeResponse s) := by
  have notIdle : s.fsm ≠ .idle := by simp [hf]
  cases hi : cmdInstr s.cmd with
  | some i => rw [engineEdge_of_run (i := i) (by simp [work, notIdle, hi]), exec_resp i hf]
  | none =>
    have reply : work s = .reply := by simp [work, notIdle, hi]
    rw [engineEdge, reply]

/-- A response with read-back words to follow: OP is GETBLK's, ERR and CODE are 0 (R82, R83). -/
theorem readsBack_iff (s : State) : readsBack s = true ↔ s.cmd.op = 5#4 ∧ s.rsp.extractLsb' 0 4 = 0#4 := by
  rw [readsBack, Bool.and_eq_true, beq_iff_eq, beq_iff_eq]

/-- The response taken: on to the read-back words, or back to IDLE (R83). -/
theorem takeResponse_resp {s : State} (hr : s.pins.rstN = true) (hf : s.fsm = .resp) (hy : s.pins.rspReady = true) :
    takeResponse s =
      if readsBack s then { s with rsp := 0#32, rdbk := 4, fsm := .rdbk, traffic := s.traffic ++ [.rspOut s.rsp] }
      else { s with rsp := 0#32, fsm := .idle, traffic := s.traffic ++ [.rspOut s.rsp] } := by
  have given : rspOut s = some s.rsp := rspOut_eq_some.mpr ⟨hr, hy, by simp [rspOffer, hf]⟩
  simp [takeResponse, given, hf, note]

/-- The step at which the host takes the response. -/
theorem step_resp {s : State} (hr : s.pins.rstN = true) (hc : contractBreach s = none) (hf : s.fsm = .resp) :
    step s = .next
      { takeResponse s with inputs := s.inputs.tail, heldCmd := s.pins.cmd, heldDin := s.pins.din } := by
  rw [step_eq_engineEdge hr hc, engineEdge_resp hf, mapNext_next, advance_eq hr, hf]
  rfl

/-- Settles O43: in RESP the edge of a command, and the step whatever CMD holds, is `takeResponse`. -/
theorem responseTakenEndsCommand : Obligations.ResponseTakenEndsCommand := by
  refine ⟨fun i s hr hf hy => ?_, fun s hr hc hf hy => ?_⟩
  · rw [exec_resp i hf, takeResponse_resp hr hf hy, ← readsBack_iff]
    exact ⟨fun hb => by rw [if_pos hb], fun hb => by rw [if_neg hb]⟩
  · rw [step_resp hr hc hf, takeResponse_resp hr hf hy, ← readsBack_iff]
    exact ⟨fun hb => by rw [if_pos hb], fun hb => by rw [if_neg hb]⟩

end Sys2Proof.Machine
end

section
/-! PROOFS. INC (41_counter_increment.md R100 to R105): the byte-wise loop is a 32-bit add on the counter field, and so
n increments are one add of n. -/

namespace Sys2Proof

/-! ## A block as its counter and its bytes 0 to 11 -/

@[simp] theorem ctrOf_withCtr (b : Block) (c : Word) : ctrOf (withCtr b c) = c :=
  getWord_putWord b 3 c (by decide)

theorem byteAt_withCtr (b : Block) (c : Word) {m : Nat} (hm : m < 12) : byteAt (withCtr b c) m = byteAt b m :=
  byteAt_putWord_outside b 3 c (.inl hm)

/-- A block is known by its counter, nonce and IV. -/
theorem block_ext {a b : Block} (hctr : ctrOf a = ctrOf b) (hlow : ∀ m, m < 12 → byteAt a m = byteAt b m) : a = b := by
  apply bytes_ext
  intro m hm
  by_cases h : m < 12
  · exact hlow m h
  · obtain ⟨k, rfl⟩ := Nat.exists_eq_add_of_le (not_lt.mp h)
    have hk : k < 4 := by omega
    calc byteAt a (12 + k)
        = wordByte (ctrOf a) k := (wordByte_getWord a 3 hk).symm
      _ = wordByte (ctrOf b) k := by rw [hctr]
      _ = byteAt b (12 + k) := wordByte_getWord b 3 hk

@[simp] theorem withCtr_withCtr (b : Block) (c d : Word) : withCtr (withCtr b c) d = withCtr b d :=
  block_ext (by simp) fun m hm => by simp only [byteAt_withCtr _ _ hm]

@[simp] theorem withCtr_ctrOf (b : Block) : withCtr b (ctrOf b) = b :=
  block_ext (by simp) fun _ hm => byteAt_withCtr b _ hm

namespace Machine

/-! ## The carry chain -/

/-- The number in bytes 12 to 12 + n, most significant byte first: the bytes the loop of R100 still has before it when it
stands at byte 12 + n. -/
def upperCtr : Nat → Block → Nat
  | 0, cb => (byteAt cb 12).toNat
  | n + 1, cb => upperCtr n cb * 256 + (byteAt cb (13 + n)).toNat

/-- All four bytes are the counter. -/
theorem upperCtr_three (cb : Block) : upperCtr 3 cb = (ctrOf cb).toNat := by
  have packed : (ctrOf cb).toNat = (byteAt cb 12).toNat * 2 ^ 24 + (byteAt cb 13).toNat * 2 ^ 16 +
      (byteAt cb 14).toNat * 2 ^ 8 + (byteAt cb 15).toNat := toNat_packWord _ _ _ _
  simp only [packed, upperCtr, Nat.reduceAdd]
  omega

theorem upperCtr_lt (n : Nat) (cb : Block) : upperCtr n cb < 256 ^ (n + 1) := by
  induction n with
  | zero => exact (byteAt cb 12).isLt
  | succ n ih =>
    have byte := (byteAt cb (13 + n)).isLt
    rw [upperCtr, pow_succ]
    omega

/-- A write of a less significant byte leaves the number. -/
theorem upperCtr_setByte (n : Nat) (cb : Block) {k : Nat} (v : Byte) (hk : 12 + n < k) :
    upperCtr n (setByte cb k v) = upperCtr n cb := by
  induction n with
  | zero => rw [upperCtr, upperCtr, byteAt_setByte, if_neg (by omega)]
  | succ n ih => rw [upperCtr, upperCtr, ih (by omega), byteAt_setByte, if_neg (by omega)]

/-- The loop writes no byte less significant than the one it starts from. -/
theorem byteAt_incFrom_of_gt (n : Nat) (cb : Block) {m : Nat} (hm : 12 + n < m) :
    byteAt (incFrom n cb) m = byteAt cb m := by
  induction n generalizing cb with
  | zero => rw [incFrom, byteAt_setByte, if_neg (by omega)]
  | succ n ih =>
    rw [incFrom]
    split
    · rw [ih _ (by omega), byteAt_setByte, if_neg (by omega)]
    · rw [byteAt_setByte, if_neg (by omega)]

/-- A byte from which the loop carries was 0xFF. -/
theorem toNat_of_add_one_eq_zero {b : Byte} (h : b + 1#8 = 0#8) : b.toNat = 255 := by
  bv_omega

/-- A byte at which the loop ends did not wrap. -/
theorem toNat_add_one_of_ne_zero {b : Byte} (h : b + 1#8 ≠ 0#8) : (b + 1#8).toNat = b.toNat + 1 := by
  bv_omega

/-- The loop from byte 12 + n adds 1 to the number in bytes 12 to 12 + n, the carry out of byte 12 discarded: where the byte
wraps, the rest of the loop adds the carry to the bytes above it, and elsewhere the loop ends. -/
theorem upperCtr_incFrom (n : Nat) (cb : Block) (hn : n ≤ 3) :
    upperCtr n (incFrom n cb) = (upperCtr n cb + 1) % 256 ^ (n + 1) := by
  induction n generalizing cb with
  | zero => simp [incFrom, upperCtr, byteAt_setByte]
  | succ n ih =>
    have byte (v : Byte) : byteAt (setByte cb (13 + n) v) (13 + n) = v := by
      rw [byteAt_setByte, if_pos ⟨rfl, by omega⟩]
    have above (v : Byte) : upperCtr n (setByte cb (13 + n) v) = upperCtr n cb := upperCtr_setByte n cb v (by omega)
    rw [incFrom]
    split
    case isTrue wraps =>
      have full := toNat_of_add_one_eq_zero wraps
      calc upperCtr (n + 1) (incFrom n (setByte cb (13 + n) (byteAt cb (13 + n) + 1#8)))
          = (upperCtr n cb + 1) % 256 ^ (n + 1) * 256 := by
            rw [upperCtr, ih _ (by omega), above, byteAt_incFrom_of_gt n _ (by omega), byte, wraps, BitVec.toNat_zero,
              add_zero]
        _ = (upperCtr n cb + 1) * 256 % 256 ^ (n + 1 + 1) := by rw [pow_succ 256 (n + 1), Nat.mul_mod_mul_right]
        _ = (upperCtr (n + 1) cb + 1) % 256 ^ (n + 1 + 1) := by rw [upperCtr, full, add_one_mul]
    case isFalse stops =>
      have next := toNat_add_one_of_ne_zero stops
      have stored : upperCtr (n + 1) (setByte cb (13 + n) (byteAt cb (13 + n) + 1#8)) = upperCtr (n + 1) cb + 1 := by
        rw [upperCtr, above, byte, next, upperCtr, add_assoc]
      rw [stored, Nat.mod_eq_of_lt]
      exact stored ▸ upperCtr_lt (n + 1) _

/-! ## One increment -/

@[simp] theorem ctrOf_inc (cb : Block) : ctrOf (inc cb) = ctrOf cb + 1#32 := by
  apply BitVec.eq_of_toNat_eq
  calc (ctrOf (inc cb)).toNat
      = upperCtr 3 (incFrom 3 cb) := (upperCtr_three _).symm
    _ = (upperCtr 3 cb + 1) % 256 ^ 4 := upperCtr_incFrom 3 cb le_rfl
    _ = ((ctrOf cb).toNat + 1) % 2 ^ 32 := by rw [upperCtr_three]; norm_num
    _ = (ctrOf cb + 1#32).toNat := by rw [BitVec.toNat_add, BitVec.toNat_one (by decide)]

theorem byteAt_inc (cb : Block) {m : Nat} (hm : m < 12) : byteAt (inc cb) m = byteAt cb m :=
  byteAt_incFrom 3 cb hm

theorem inc_eq_withCtr (cb : Block) : inc cb = withCtr cb (ctrOf cb + 1#32) :=
  block_ext (by simp) fun _ hm => by rw [byteAt_inc cb hm, byteAt_withCtr _ _ hm]

/-- Settles O9: the carry chain is an add on the counter (`upperCtr_incFrom`). -/
theorem incIsThirtyTwoBitAdd : Obligations.IncIsThirtyTwoBitAdd :=
  fun cb => ⟨inc_eq_withCtr cb, ctrOf_inc cb, fun _ hm => byteAt_inc cb hm⟩

/-- Settles O11: both examples are sums of 32-bit words. -/
theorem incSourceExamples : Obligations.IncSourceExamples := by
  intro cb
  refine ⟨fun hc => ⟨?_, fun _ hm => byteAt_inc cb hm⟩, fun hc => ?_⟩
  · rw [ctrOf_inc, hc]
    rfl
  · rw [ctrOf_inc, hc]
    rfl

/-! ## Repeated increments -/

@[simp] theorem ctrOf_blkAt (cb : Block) (n : Nat) : ctrOf (blkAt cb n) = ctrOf cb + BitVec.ofNat 32 n :=
  ctrOf_withCtr cb _

theorem byteAt_blkAt (cb : Block) (n : Nat) {m : Nat} (hm : m < 12) : byteAt (blkAt cb n) m = byteAt cb m :=
  byteAt_withCtr cb _ hm

@[simp] theorem blkAt_zero (cb : Block) : blkAt cb 0 = cb := by
  simp [blkAt]

/-- INC of a block of a call is the block after it (43_stream_xor.md R159). -/
theorem inc_blkAt (cb : Block) (n : Nat) : inc (blkAt cb n) = blkAt cb (n + 1) := by
  rw [inc_eq_withCtr, ctrOf_blkAt, blkAt, withCtr_withCtr, add_assoc, ← BitVec.ofNat_add, blkAt]

/-- n increments are one add of n. -/
theorem iterate_inc (n : Nat) (cb : Block) : inc^[n] cb = blkAt cb n := by
  induction n with
  | zero => exact (blkAt_zero cb).symm
  | succ n ih => rw [Function.iterate_succ_apply', ih, inc_blkAt]

/-- The counter blocks repeat after 2^32. -/
theorem blkAt_two_pow (cb : Block) : blkAt cb (2 ^ 32) = cb := by
  have zero : BitVec.ofNat 32 (2 ^ 32) = 0#32 := by decide
  rw [blkAt, zero, BitVec.add_zero, withCtr_ctrOf]

/-- Settles O10, by `iterate_inc`. -/
theorem incRepeated : Obligations.IncRepeated := by
  refine ⟨fun n cb => ?_, fun cb => ?_⟩
  · rw [iterate_inc, ctrOf_blkAt, BitVec.toNat_add, BitVec.toNat_ofNat, Nat.add_mod_mod]
    exact ⟨rfl, fun _ hm => byteAt_blkAt cb n hm⟩
  · rw [iterate_inc, blkAt_two_pow]

end Machine
end Sys2Proof
end

section
/-! PROOFS. The keystream clock: its request, its answer, and the next value of KS (42_keystream_clock.md R120 to R125). -/

namespace Sys2Proof.Machine

/-! ## The clock's request -/

/-- At CPH_REQ(ENC) the edge of every XCRYPT is the clock's request. -/
theorem execXcrypt_clockRequest (ep dp : Bool) {s : State} (hf : s.fsm = .cphReq .enc) :
    exec (.xcrypt ep dp) s = .next (clockRequest s) := by
  simp [exec, execXcrypt, hf]

/-- The clock's request taken: CB goes out as it stood, and is incremented in the same edge. -/
theorem clockRequest_taken {s : State} (h : cipherReq s = some (.enc s.cb)) :
    clockRequest s =
      { s with
        cb := inc s.cb, inflight := some (.enc s.cb), fsm := .cphRsp .enc
        traffic := s.traffic ++ [.cipherReq (.enc s.cb)] } := by
  rw [clockRequest, sendRequest, h]
  rfl

/-- Settles O35: the request on offer is all of CB (`clockRequest_taken`), and INC is the add (`inc_eq_withCtr`). -/
theorem clockSendsCounterBlock : Obligations.ClockSendsCounterBlock := by
  intro ep dp s hr hf hy
  have sent : cipherReq s = some (.enc s.cb) := cipherReq_eq_some.mpr ⟨hr, hy, by simp [reqOffer, hf]⟩
  rw [execXcrypt_clockRequest ep dp hf, clockRequest_taken sent, inc_eq_withCtr]

/-! ## The clock's answer -/

/-- At CPH_RSP(ENC) the edge of every XCRYPT is the clock's answer. -/
theorem execXcrypt_clockResponse (ep dp : Bool) {s : State} (hf : s.fsm = .cphRsp .enc) :
    exec (.xcrypt ep dp) s = clockResponse s := by
  simp [exec, execXcrypt, hf]

/-- The answer to the clock's request taken: the fault of R127, or the keystream loaded. -/
theorem clockResponse_answered {s : State} {r : CphRsp} {x : Block} (hr : cipherRsp s = some r)
    (hx : s.inflight = some (.enc x)) :
    clockResponse s = if r.err then .fault .cipherContract else .next (loadKeystream x r.data s) := by
  rw [clockResponse, hr, hx]

/-- Settles O36: the answer has no error bit, so that the block is loaded (`clockResponse_answered`);
`keystreamBlock_keyed` and `keystreamBlock_free` say which block that is. -/
theorem clockLoadsKeystream : Obligations.ClockLoadsKeystream := by
  intro ep dp s x d hr hf hx ha
  have taken : cipherRsp s = some { err := false, data := d } :=
    cipherRsp_eq_some.mpr ⟨hr, takesCipherRsp_eq_true.mpr ⟨.enc, hf⟩, ha⟩
  have loaded : exec (.xcrypt ep dp) s = .next (loadKeystream x d s) := by
    rw [execXcrypt_clockResponse ep dp hf, clockResponse_answered taken hx]
    rfl
  refine ⟨fun k hk hs => ?_, fun hk => ?_⟩
  · have keyed : clockSched s = some k := by simp [clockSched, hk, hs]
    rw [loaded, loadKeystream, keystreamBlock_keyed keyed, note]
  · have free : clockSched s = none := by simp [clockSched, hk]
    rw [loaded, loadKeystream, keystreamBlock_free free, note]

/-! ## The next value of KS -/

/-- In a call the engine's edge is that of XCRYPT. -/
theorem Inv.engineEdge_of_call {s : State} (h : Inv s)
    (hf : s.fsm = .cphReq .enc ∨ s.fsm = .cphRsp .enc ∨ s.fsm = .xcByte ∨ s.fsm = .xcOut) :
    engineEdge s = exec (.xcrypt true true) s := by
  obtain ⟨_, latched, _⟩ := h.during_call hf
  have notIdle : s.fsm ≠ .idle := by rcases hf with hf | hf | hf | hf <;> simp [hf]
  exact engineEdge_of_run (by simp [work, notIdle, latched])

/-- While an ENC answer is awaited, its request is in flight. -/
theorem Inv.exists_inflight_enc {s : State} (h : Inv s) (hf : s.fsm = .cphRsp .enc) :
    ∃ x, s.inflight = some (.enc x) := by
  obtain ⟨r, hx, op⟩ : ∃ r, s.inflight = some r ∧ r.op = .enc := by simpa [hf, awaited] using h.flight
  cases r with
  | enc x => exact ⟨x, hx⟩
  | expand key => cases op
  | wipe => cases op

/-- At an ENC answer the engine loads the block it records. -/
theorem Inv.ks_of_answer {s u : State} (h : Inv s) (hf : s.fsm = .cphRsp .enc) (ha : (cipherRsp s).isSome)
    (hu : engineEdge s = .next u) : ∃ r, u.traffic = s.traffic ++ [.cipherBlock r] ∧ u.ks = r := by
  obtain ⟨r, hr⟩ := Option.isSome_iff_exists.mp ha
  obtain ⟨x, hx⟩ := h.exists_inflight_enc hf
  rw [h.engineEdge_of_call (.inr (.inl hf)), execXcrypt_clockResponse _ _ hf, clockResponse_answered hr hx] at hu
  split at hu
  · cases hu
  · cases hu
    exact ⟨_, rfl, rfl⟩

/-- At a data-in byte the engine erases the keystream byte at the cursor (43_stream_xor.md R156). -/
theorem Inv.ks_of_dataIn {s u : State} (h : Inv s) (hd : (dataIn s).isSome) (hu : engineEdge s = .next u) :
    u.ks = setByte s.ks s.j.toNat 0#8 := by
  obtain ⟨b, hb⟩ := Option.isSome_iff_exists.mp hd
  obtain ⟨_, hf, _⟩ := dataIn_eq_some.mp hb
  have edge : exec (.xcrypt true true) s = .next (xorByte s) := by simp [exec, execXcrypt, hf]
  rw [h.engineEdge_of_call (.inr (.inr (.inl hf))), edge] at hu
  cases hu
  rw [xorByte, hb]
  rfl

/-- The edge ends an INIT or an XCRYPT that has all its arguments. -/
def EndsStream (s t : State) : Prop :=
  s.fsm ≠ .resp ∧ t.fsm = .resp ∧ (t.cmd.op = 1#4 ∨ t.cmd = instrCmd (.xcrypt true true))

/-- CMD.OP is 1 for an INIT. -/
theorem cmd_op_of_init {c : CmdReg} {kp dp : Bool} (h : cmdInstr c = some (.init kp dp)) : c.op = 1#4 := by
  rw [cmdInstr_eq_some.mp h, instrCmd, Instr.fields]

/-- The moves that write KS: an ENC answer, a data-in byte, the end of an XCRYPT or of an INIT. -/
theorem Move.ks_cases {s t : State} (m : Move s t) (h : Inv s) :
    t.ks = s.ks ∨ (s.fsm = .cphRsp .enc ∧ (cipherRsp s).isSome) ∨ (dataIn s).isSome ∨ EndsStream s t := by
  cases m with
  | loadKs ep dp r x hf hi hr => exact .inr (.inl ⟨hf, by simp [hr]⟩)
  | byteIn ep dp b hf hi hd => exact .inr (.inr (.inl (by simp [hd])))
  | initNothing w hf => exact .inr (.inr (.inr ⟨by simp [hf], rfl, .inl rfl⟩))
  | initBlock dp w hf hi => exact .inr (.inr (.inr ⟨by simp [hf], rfl, .inl (cmd_op_of_init hi)⟩))
  | expanded kp dp r key hf hi => exact .inr (.inr (.inr ⟨by simp [hf], rfl, .inl (cmd_op_of_init hi)⟩))
  | emptyCall w hf hi => exact .inr (.inr (.inr ⟨by simp [hf], rfl, .inr (cmdInstr_eq_some.mp hi)⟩))
  | lastByteOut ep dp hf =>
    obtain ⟨_, latched, _⟩ := h.during_call (.inr (.inr (.inr hf)))
    exact .inr (.inr (.inr ⟨by simp [hf], rfl, .inr (cmdInstr_eq_some.mp latched)⟩))
  | _ => exact .inl rfl

/-- Settles O48, branch by branch: a reset edge, the two edges of a call that load and erase keystream, RESP, in which the
invariants have KS erased, and elsewhere no move that writes KS. -/
theorem keystreamRegisterGating : Obligations.KeystreamRegisterGating := by
  intro s t h hs
  have after := step_keeps_inv h hs
  rcases step_cases hs with ⟨hr, rfl⟩ | ⟨hr, _, u, hu, rfl⟩
  · rw [if_pos hr]
    rfl
  · rw [if_neg (by simp [hr])]
    split_ifs with answered byte ends
    · obtain ⟨hf, ha⟩ := answered
      exact h.ks_of_answer (u := u) hf ha hu
    · exact h.ks_of_dataIn (u := u) byte hu
    · obtain ⟨_, hf, _⟩ := ends
      exact (after.quiet_of_resp hf).erased
    · rcases (engineEdge_move hu).ks_cases h with kept | load | erase | clear
      · exact kept
      · exact absurd load answered
      · exact absurd erase byte
      · exact absurd clear ends

end Sys2Proof.Machine
end

section
/-! PROOFS. The traffic of a call, and the XOR of data bytes with keystream blocks (43_stream_xor.md R159). -/

namespace Sys2Proof.Machine

/-! ## What the ports moved -/

@[simp] theorem dataIns_append (a b : List Transfer) : dataIns (a ++ b) = dataIns a ++ dataIns b :=
  List.filterMap_append

@[simp] theorem dataOuts_append (a b : List Transfer) : dataOuts (a ++ b) = dataOuts a ++ dataOuts b :=
  List.filterMap_append

@[simp] theorem rspOuts_append (a b : List Transfer) : rspOuts (a ++ b) = rspOuts a ++ rspOuts b :=
  List.filterMap_append

@[simp] theorem requests_append (a b : List Transfer) : requests (a ++ b) = requests a ++ requests b :=
  List.filterMap_append

@[simp] theorem blocks_append (a b : List Transfer) : blocks (a ++ b) = blocks a ++ blocks b :=
  List.filterMap_append

@[simp] theorem records_nil :
    dataIns [] = [] ∧ dataOuts [] = [] ∧ rspOuts [] = [] ∧ requests [] = [] ∧ blocks [] = [] :=
  ⟨rfl, rfl, rfl, rfl, rfl⟩

/-- A word taken shows in none of the five records; each other transfer of a call shows in one. -/
@[simp] theorem records_cmdIn (w : Word) (tr : List Transfer) :
    dataIns (.cmdIn w :: tr) = dataIns tr ∧ dataOuts (.cmdIn w :: tr) = dataOuts tr ∧
      rspOuts (.cmdIn w :: tr) = rspOuts tr ∧ requests (.cmdIn w :: tr) = requests tr ∧
      blocks (.cmdIn w :: tr) = blocks tr :=
  ⟨rfl, rfl, rfl, rfl, rfl⟩

@[simp] theorem records_rspOut (w : Word) (tr : List Transfer) :
    dataIns (.rspOut w :: tr) = dataIns tr ∧ dataOuts (.rspOut w :: tr) = dataOuts tr ∧
      rspOuts (.rspOut w :: tr) = w :: rspOuts tr ∧ requests (.rspOut w :: tr) = requests tr ∧
      blocks (.rspOut w :: tr) = blocks tr :=
  ⟨rfl, rfl, rfl, rfl, rfl⟩

@[simp] theorem records_dataIn (b : Byte) (tr : List Transfer) :
    dataIns (.dataIn b :: tr) = b :: dataIns tr ∧ dataOuts (.dataIn b :: tr) = dataOuts tr ∧
      rspOuts (.dataIn b :: tr) = rspOuts tr ∧ requests (.dataIn b :: tr) = requests tr ∧
      blocks (.dataIn b :: tr) = blocks tr :=
  ⟨rfl, rfl, rfl, rfl, rfl⟩

@[simp] theorem records_dataOut (b : Byte) (tr : List Transfer) :
    dataIns (.dataOut b :: tr) = dataIns tr ∧ dataOuts (.dataOut b :: tr) = b :: dataOuts tr ∧
      rspOuts (.dataOut b :: tr) = rspOuts tr ∧ requests (.dataOut b :: tr) = requests tr ∧
      blocks (.dataOut b :: tr) = blocks tr :=
  ⟨rfl, rfl, rfl, rfl, rfl⟩

@[simp] theorem records_cipherReq (r : CphReq) (tr : List Transfer) :
    dataIns (.cipherReq r :: tr) = dataIns tr ∧ dataOuts (.cipherReq r :: tr) = dataOuts tr ∧
      rspOuts (.cipherReq r :: tr) = rspOuts tr ∧ requests (.cipherReq r :: tr) = r :: requests tr ∧
      blocks (.cipherReq r :: tr) = blocks tr :=
  ⟨rfl, rfl, rfl, rfl, rfl⟩

@[simp] theorem records_cipherBlock (b : Block) (tr : List Transfer) :
    dataIns (.cipherBlock b :: tr) = dataIns tr ∧ dataOuts (.cipherBlock b :: tr) = dataOuts tr ∧
      rspOuts (.cipherBlock b :: tr) = rspOuts tr ∧ requests (.cipherBlock b :: tr) = requests tr ∧
      blocks (.cipherBlock b :: tr) = b :: blocks tr :=
  ⟨rfl, rfl, rfl, rfl, rfl⟩

/-- Later traffic leaves the blocks already given. -/
theorem given_append {tr : List Transfer} {m : Nat} (hm : m < (blocks tr).length) (more : List Transfer) :
    given (tr ++ more) m = given tr m := by
  rw [given, given, blocks_append, List.getD_append _ _ _ _ hm]

/-- The block just given is the last. -/
theorem given_append_block {tr : List Transfer} {m : Nat} (hm : (blocks tr).length = m) (b : Block) :
    given (tr ++ [.cipherBlock b]) m = b := by
  simp [given, ← hm]

/-- Block m, where the blocks given are those of f. -/
theorem given_of_blocks_eq {tr : List Transfer} {f : Nat → Block} {m : Nat}
    (h : blocks tr = (List.range (blocks tr).length).map f) (hm : m < (blocks tr).length) : given tr m = f m := by
  have entry : (blocks tr)[m]? = some (f m) := by rw [h]; simp [hm]
  rw [given, List.getD_eq_getElem?_getD, entry, Option.getD_some]

/-! ## The XOR with keystream blocks -/

@[simp] theorem length_xorBlocks (f : Nat → Block) (data : List Byte) : (xorBlocks f data).length = data.length :=
  List.length_mapIdx

theorem getElem?_xorBlocks (f : Nat → Block) (data : List Byte) (n : Nat) :
    (xorBlocks f data)[n]? = data[n]?.map fun b => b ^^^ byteAt (f (n / 16)) (n % 16) :=
  List.getElem?_mapIdx

/-- One more data byte, XORed with the block it falls in. -/
theorem xorBlocks_concat (f : Nat → Block) (data : List Byte) (b : Byte) :
    xorBlocks f (data ++ [b]) = xorBlocks f data ++ [b ^^^ byteAt (f (data.length / 16)) (data.length % 16)] :=
  List.mapIdx_concat

/-- Only the blocks of which some byte is used matter. -/
theorem xorBlocks_congr {f g : Nat → Block} {data : List Byte} (h : ∀ m, m < ceil16 data.length → f m = g m) :
    xorBlocks f data = xorBlocks g data := by
  apply List.ext_getElem?
  intro n
  rw [getElem?_xorBlocks, getElem?_xorBlocks]
  by_cases hn : n < data.length
  · rw [h (n / 16) (by unfold ceil16; omega)]
  · rw [List.getElem?_eq_none (not_lt.mp hn)]
    rfl

/-- The XOR undoes itself (R162). -/
theorem xorBlocks_xorBlocks (f : Nat → Block) (data : List Byte) : xorBlocks f (xorBlocks f data) = data := by
  apply List.ext_getElem?
  intro n
  rw [getElem?_xorBlocks, getElem?_xorBlocks, Option.map_map]
  cases data[n]? with
  | none => rfl
  | some b => simp

/-- Where the first part fills its blocks, the second part starts at byte 0 of the next one. -/
theorem xorBlocks_append_of_full (f : Nat → Block) {one : List Byte} (h : one.length % 16 = 0) (two : List Byte) :
    xorBlocks f (one ++ two) = xorBlocks f one ++ xorBlocks (fun m => f (ceil16 one.length + m)) two := by
  have place (n : Nat) : (n + one.length) / 16 = ceil16 one.length + n / 16 ∧ (n + one.length) % 16 = n % 16 := by
    unfold ceil16
    omega
  simp only [xorBlocks, List.mapIdx_append, place]

/-- The block m' blocks after the one m blocks after cb. -/
theorem blkAt_blkAt (cb : Block) (m m' : Nat) : blkAt (blkAt cb m) m' = blkAt cb (m + m') := by
  rw [← iterate_inc, ← iterate_inc, ← iterate_inc, ← Function.iterate_add_apply, add_comm]

end Sys2Proof.Machine
end

section
/-! PROOFS. XCRYPT edge by edge: the LEN word, the data-in byte and the data-out byte (43_stream_xor.md R150 to R163). -/

namespace Sys2Proof.Machine

/-! ## The last word of the command -/

/-- A command word without argument words has the command's effect at once. -/
theorem takeCommand_of_zero {i : Instr} {s : State} {w : Word} (done : State → State) (hc : cmdIn s = some w)
    (hn : nargs i = 0) : takeCommand i done s = done (note (.cmdIn w) { s with cmd := instrCmd i }) := by
  rw [takeCommand, hc]
  exact if_pos hn

/-- The last argument word has the command's effect at the same edge. -/
theorem takeArgument_of_last (store : Word → State → State) (done : State → State) {s : State} {w : Word}
    (hc : cmdIn s = some w) (hn : s.nargs ≤ 1) :
    takeArgument store done s = done (note (.cmdIn w) { store w s with nargs := 0, argi := 0 }) := by
  rw [takeArgument, hc]
  exact if_pos hn

theorem execXcrypt_idle (ep dp : Bool) {s : State} (hf : s.fsm = .idle) :
    exec (.xcrypt ep dp) s = .next (takeCommand (.xcrypt ep dp) (startCall ep dp) s) := by
  simp [exec, execXcrypt, hf]

theorem execXcrypt_args (ep dp : Bool) {s : State} (hf : s.fsm = .args) :
    exec (.xcrypt ep dp) s = .next (takeArgument storeLen (startCall ep dp) s) := by
  simp [exec, execXcrypt, hf]

/-- Settles O32: the LEN word is the last, and a nonzero LEN begins the call (`startCall_begin`). -/
theorem xcryptStartsAtBlockBoundary : Obligations.XcryptStartsAtBlockBoundary := by
  intro s w hf hc hn hw
  rw [execXcrypt_args true true hf, takeArgument_of_last _ _ hc hn, startCall_begin hw]
  rfl

/-- Settles O33: the LEN word is the last, and LEN = 0 ends the call at once (`startCall_empty`). -/
theorem xcryptEmptyBufferSucceeds : Obligations.XcryptEmptyBufferSucceeds := by
  intro s hf hc hn
  rw [execXcrypt_args true true hf, takeArgument_of_last _ _ hc hn, startCall_empty rfl]
  rfl

/-- Settles O34: DP = 0 has no argument word, and EP = 0 with DP = 1 has one; both end in `startCall_absent`. -/
theorem xcryptAbsentArgumentFails : Obligations.XcryptAbsentArgumentFails := by
  constructor
  · intro ep s w hf hc
    rw [execXcrypt_idle ep false hf, takeCommand_of_zero _ hc rfl, startCall_absent (Bool.and_false ep)]
    rfl
  · intro s w hf hc hn
    rw [execXcrypt_args false true hf, takeArgument_of_last _ _ hc hn, startCall_absent (Bool.false_and true)]
    rfl

/-! ## The data bytes -/

theorem execXcrypt_xcByte (ep dp : Bool) {s : State} (hf : s.fsm = .xcByte) :
    exec (.xcrypt ep dp) s = .next (xorByte s) := by
  simp [exec, execXcrypt, hf]

theorem execXcrypt_xcOut (ep dp : Bool) {s : State} (hf : s.fsm = .xcOut) :
    exec (.xcrypt ep dp) s = .next (giveByte s) := by
  simp [exec, execXcrypt, hf]

/-- A data-in byte taken: XORed with the keystream byte at the cursor, which is erased (R156). -/
theorem xorByte_taken {s : State} {b : Byte} (h : dataIn s = some b) :
    xorByte s =
      { s with
        outb := b ^^^ byteAt s.ks s.j.toNat, ks := setByte s.ks s.j.toNat 0#8, j := s.j + 1#5, fsm := .xcOut
        traffic := s.traffic ++ [.dataIn b] } := by
  rw [xorByte, h]
  rfl

/-- Settles O37: the edge is `xorByte_taken`, and of KS it writes the byte at the cursor alone. -/
theorem dataByteXored : Obligations.DataByteXored := by
  intro ep dp s b hr hf hb hj
  have taken : dataIn s = some b := dataIn_eq_some.mpr ⟨hr, hf, hb⟩
  refine ⟨_, (execXcrypt_xcByte ep dp hf).trans (congrArg _ (xorByte_taken taken)), rfl, ?_, fun m hm => ?_,
    cursor_succ hj, rfl, rfl, rfl⟩
  · rw [byteAt_setByte, if_pos ⟨rfl, hj⟩]
  · rw [byteAt_setByte, if_neg fun h => hm h.1]

/-- The last data-out byte taken: the end of the call (R160). -/
theorem giveByte_last {s : State} (h : dataOut s = some s.outb) (hl : s.i + 1#32 = s.len) :
    giveByte s =
      { s with
        ks := zeroBlock, j := 16#5, i := 0#32
        rsp := responseWord .ok s.cmd.op s.keyValid s.kxErr
        fsm := .resp
        traffic := s.traffic ++ [.dataOut s.outb] } := by
  rw [giveByte, h]
  exact if_pos hl

/-- A data-out byte before the last taken: a fresh clock at the block end, else the next byte (R157). -/
theorem giveByte_more {s : State} (h : dataOut s = some s.outb) (hl : s.i + 1#32 ≠ s.len) :
    giveByte s =
      { s with
        i := s.i + 1#32, fsm := if s.j = 16#5 then .cphReq .enc else .xcByte
        traffic := s.traffic ++ [.dataOut s.outb] } := by
  rw [giveByte, h]
  by_cases hj : s.j = 16#5 <;> simp [hl, hj, note]

/-- I counts up to LEN without wrapping. -/
theorem dataCount_succ_eq_iff {i len : Word} (hi : i.toNat < len.toNat) : i + 1#32 = len ↔ i.toNat + 1 = len.toNat := by
  constructor <;> intro h <;> bv_omega

/-- Settles O38: `giveByte_more` where bytes are still to come, `giveByte_last` where none is. -/
theorem dataByteGiven : Obligations.DataByteGiven := by
  intro ep dp s hr hf hy hi
  have given : dataOut s = some s.outb := dataOut_eq_some.mpr ⟨hr, hy, hf, rfl⟩
  have last := dataCount_succ_eq_iff hi
  rw [execXcrypt_xcOut ep dp hf]
  refine ⟨fun hl hj => ?_, fun hl hj => ?_, fun hl => ?_⟩
  · rw [giveByte_more given fun e => hl.ne (last.mp e), if_pos hj]
  · rw [giveByte_more given fun e => hl.ne (last.mp e), if_neg hj]
  · rw [giveByte_last given (last.mpr hl)]

end Sys2Proof.Machine
end

section
/-! PROOFS. A call in any environment (43_stream_xor.md R159, R160, R164): each edge keeps what is known of a call under way,
or ends the call with the closed form of its output. -/

namespace Sys2Proof.Machine

section Calls

variable {key : Option Sched} {cb : Block} {past : List Transfer} {len : Word} {s : State}

/-! ## What a call under way says of the engine -/

/-- The control states of a call. -/
theorem InCall.fsm_cases (h : InCall key cb past len s) :
    s.fsm = .cphReq .enc ∨ s.fsm = .cphRsp .enc ∨ s.fsm = .xcByte ∨ s.fsm = .xcOut := by
  obtain ⟨tr, _, phase, _⟩ := h.stream
  unfold callPhase at phase
  split at phase <;> simp_all

theorem InCall.clockSched_eq (h : InCall key cb past len s) : clockSched s = key := by
  obtain ⟨sched, valid⟩ := h.keyState
  rw [clockSched, sched, valid]
  cases key <;> rfl

/-- Up to the request of a clock, the blocks before it are clocked. -/
theorem clocks_of_request (hf : s.fsm = .cphReq .enc) : clocks s = s.i.toNat / 16 :=
  if_pos hf

/-- From that request on, the block of data byte I is clocked too. -/
theorem clocks_of_no_request (hf : s.fsm ≠ .cphReq .enc) : clocks s = s.i.toNat / 16 + 1 :=
  if_neg hf

/-- Traffic without a keystream block leaves the blocks given. -/
theorem given_append_of_no_block {more : List Transfer} (h : blocks more = []) (tr : List Transfer) :
    given (tr ++ more) = given tr := by
  funext m
  simp [given, h]

/-- After data byte I the cursor is at the block end exactly where that byte is the last of its block. -/
theorem cursor_eq_end_iff {j : BitVec 5} {n : Nat} (h : j.toNat = n % 16 + 1) : j = 16#5 ↔ n % 16 = 15 := by
  rw [← BitVec.toNat_inj, h]
  simp

/-- With the byte in OUTB, the data-out bytes are the closed form of all data-in bytes so far. -/
theorem dataOuts_with_outb {tr : List Transfer} (hf : s.fsm = .xcOut) (phase : callPhase cb tr s)
    (hout : dataOuts tr = xorBlocks (given tr) ((dataIns tr).take s.i.toNat)) :
    dataOuts tr ++ [s.outb] = xorBlocks (given tr) (dataIns tr) := by
  simp only [callPhase, hf] at phase
  obtain ⟨taken, _, _, outb, _⟩ := phase
  obtain ⟨b, hb⟩ : ∃ b, (dataIns tr)[s.i.toNat]? = some b := ⟨_, List.getElem?_eq_getElem (by omega)⟩
  have whole : dataIns tr = (dataIns tr).take s.i.toNat ++ [b] := by
    calc dataIns tr = (dataIns tr).take (s.i.toNat + 1) := (List.take_of_length_le taken.le).symm
      _ = (dataIns tr).take s.i.toNat ++ [b] := by rw [List.take_add_one, hb, Option.toList_some]
  have before : ((dataIns tr).take s.i.toNat).length = s.i.toNat := by simp [taken]
  calc dataOuts tr ++ [s.outb]
      = xorBlocks (given tr) ((dataIns tr).take s.i.toNat ++ [b]) := by
        rw [xorBlocks_concat, before, hout, outb b hb]
    _ = xorBlocks (given tr) (dataIns tr) := by rw [← whole]

/-! ## The edges of a call -/

/-- The clock's request: one more counter block is sent, and CB is the one after it (R164). -/
theorem InCall.after_sendBlock (h : InCall key cb past len s) (hf : s.fsm = .cphReq .enc) :
    InCall key cb past len
      { s with
        cb := inc s.cb, inflight := some (.enc s.cb), fsm := .cphRsp .enc
        traffic := s.traffic ++ [.cipherReq (.enc s.cb)] } := by
  obtain ⟨tr, traffic, phase, hout, hreq, hkey⟩ := h.stream
  have counter := h.counter
  rw [clocks_of_request hf] at counter hreq
  simp only [callPhase, hf] at phase
  obtain ⟨taken, full, hj, count⟩ := phase
  refine { h with
    counter := ?_
    stream := ⟨tr ++ [.cipherReq (.enc s.cb)], by simp [traffic], ?_, ?_, ?_, ?_⟩ }
  · rw [clocks_of_no_request (by simp), counter, inc_blkAt]
  · simp [callPhase, taken, full, hj, count, counter]
  · rw [given_append_of_no_block (by simp)]
    simpa using hout
  · rw [clocks_of_no_request (by simp), List.range_succ]
    simp [hreq, counter]
  · simpa using hkey

/-- The clock's answer: the block loaded is the one for the next 16 bytes, under a key `E(SCHED, blk(m))` (R159). -/
theorem InCall.after_loadKs (h : InCall key cb past len s) (hf : s.fsm = .cphRsp .enc) {x : Block}
    (hx : s.inflight = some (.enc x)) (d : BitVec 128) :
    InCall key cb past len
      { s with
        ks := keystreamBlock x d s, j := 0#5, fsm := .xcByte, inflight := none
        traffic := s.traffic ++ [.cipherBlock (keystreamBlock x d s)] } := by
  obtain ⟨tr, traffic, phase, hout, hreq, hkey⟩ := h.stream
  simp only [callPhase, hf] at phase
  obtain ⟨taken, full, _, count, sent⟩ := phase
  obtain rfl : x = blkAt cb (s.i.toNat / 16) := by simpa [hx] using sent
  have clocked : clocks s = s.i.toNat / 16 + 1 := clocks_of_no_request (by simp [hf])
  refine { h with
    counter := ?_
    stream := ⟨tr ++ [.cipherBlock (keystreamBlock (blkAt cb (s.i.toNat / 16)) d s)], by simp [traffic], ?_, ?_, ?_,
      fun k hk => ?_⟩ }
  · rw [clocks_of_no_request (by simp), h.counter, clocked]
  · simp only [callPhase, given_append_block count]
    simp [taken, full, count]
  · have used : ∀ m, m < ceil16 ((dataIns tr).take s.i.toNat).length →
        given tr m = given (tr ++ [.cipherBlock (keystreamBlock (blkAt cb (s.i.toNat / 16)) d s)]) m := by
      intro m hm
      rw [List.length_take, taken, ceil16] at hm
      rw [given_append (by omega)]
    simpa [← xorBlocks_congr used] using hout
  · rw [clocks_of_no_request (by simp), ← clocked]
    simpa using hreq
  · have keyed : clockSched s = some k := h.clockSched_eq.trans hk
    rw [blocks_append, hkey k hk, keystreamBlock_keyed keyed]
    simp [List.range_succ, keystream, count]

/-- The data-in byte: OUTB is that byte XORed with its keystream byte, which is erased (R156). -/
theorem InCall.after_byteIn (h : InCall key cb past len s) (hf : s.fsm = .xcByte) (b : Byte) :
    InCall key cb past len
      { s with
        outb := b ^^^ byteAt s.ks s.j.toNat
        ks := setByte s.ks s.j.toNat 0#8
        j := s.j + 1#5
        fsm := .xcOut
        traffic := s.traffic ++ [.dataIn b] } := by
  obtain ⟨tr, traffic, phase, hout, hreq, hkey⟩ := h.stream
  simp only [callPhase, hf] at phase
  obtain ⟨taken, cursor, count, buffered⟩ := phase
  have inBlock : s.j.toNat < 16 := by omega
  have clocked : clocks s = s.i.toNat / 16 + 1 := clocks_of_no_request (by simp [hf])
  refine { h with
    counter := ?_
    stream := ⟨tr ++ [.dataIn b], by simp [traffic], ?_, ?_, ?_, by simpa using hkey⟩ }
  · rw [clocks_of_no_request (by simp), h.counter, clocked]
  · simp only [callPhase, given_append_of_no_block (more := [.dataIn b]) (by simp)]
    refine ⟨by simp [taken], by rw [cursor_succ inBlock, cursor], by simp [count], fun b' hb' => ?_, fun m hm hm' => ?_⟩
    · obtain rfl : b = b' := by simpa [taken] using hb'
      rw [buffered _ le_rfl inBlock, cursor]
    · rw [cursor_succ inBlock] at hm
      rw [byteAt_setByte, if_neg (by omega), buffered m (by omega) hm']
  · rw [given_append_of_no_block (by simp)]
    simpa [List.take_append_of_le_length taken.ge] using hout
  · rw [clocks_of_no_request (by simp), ← clocked]
    simpa using hreq

/-- A data-out byte before the last: at the block end the next clock is due, else the next byte of the block (R157). -/
theorem InCall.after_byteOut (h : InCall key cb past len s) (hf : s.fsm = .xcOut) (hl : s.i + 1#32 ≠ s.len) {f : Fsm}
    (hn : (s.j = 16#5 ∧ f = .cphReq .enc) ∨ (s.j ≠ 16#5 ∧ f = .xcByte)) :
    InCall key cb past len { s with i := s.i + 1#32, fsm := f, traffic := s.traffic ++ [.dataOut s.outb] } := by
  obtain ⟨tr, traffic, phase, hout, hreq, hkey⟩ := h.stream
  have closed := dataOuts_with_outb hf phase hout
  simp only [callPhase, hf] at phase
  obtain ⟨taken, cursor, count, _, buffered⟩ := phase
  have more := dataCount_succ_lt h.unfinished hl
  have next : (s.i + 1#32).toNat = s.i.toNat + 1 := by
    have := h.unfinished
    bv_omega
  have blockEnd := cursor_eq_end_iff cursor
  have place : (s.i.toNat % 16 = 15 ∧ f = .cphReq .enc) ∨ (s.i.toNat % 16 ≠ 15 ∧ f = .xcByte) := by
    rwa [Ne, blockEnd] at hn
  have clocked : clocks { s with i := s.i + 1#32, fsm := f, traffic := s.traffic ++ [.dataOut s.outb] } = clocks s := by
    rw [clocks_of_no_request (s := s) (by simp [hf])]
    rcases place with ⟨hj, rfl⟩ | ⟨hj, rfl⟩
    · rw [clocks_of_request rfl, next]
      omega
    · rw [clocks_of_no_request (by simp), next]
      omega
  refine { h with
    unfinished := more
    counter := ?_
    stream := ⟨tr ++ [.dataOut s.outb], by simp [traffic], ?_, ?_, ?_, by simpa using hkey⟩ }
  · rw [clocked, h.counter]
  · rcases place with ⟨hj, rfl⟩ | ⟨hj, rfl⟩ <;>
      simp only [callPhase, given_append_of_no_block (more := [.dataOut s.outb]) (by simp), next]
    · have filled : (blocks tr).length = (s.i.toNat + 1) / 16 := by omega
      exact ⟨by simp [taken], by omega, blockEnd.mpr hj, by simp [filled]⟩
    · have same : (s.i.toNat + 1) / 16 = s.i.toNat / 16 := by omega
      rw [same]
      exact ⟨by simp [taken], by omega, by simp [count], buffered⟩
  · rw [given_append_of_no_block (by simp), next]
    simp [closed, List.take_of_length_le taken.le]
  · rw [clocked]
    simpa using hreq

/-- The last data-out byte ends the call with the closed form (R159, R160, R164). -/
theorem InCall.after_lastByteOut (h : InCall key cb past len s) (hf : s.fsm = .xcOut) (hl : s.i + 1#32 = s.len) :
    CallDone key cb past len
      { s with
        ks := zeroBlock, j := 16#5, i := 0#32
        rsp := responseWord .ok s.cmd.op s.keyValid s.kxErr
        fsm := .resp
        traffic := s.traffic ++ [.dataOut s.outb] } := by
  obtain ⟨tr, traffic, phase, hout, hreq, hkey⟩ := h.stream
  have closed := dataOuts_with_outb hf phase hout
  simp only [callPhase, hf] at phase
  obtain ⟨taken, _, count, _, _⟩ := phase
  have last : s.i.toNat + 1 = len.toNat := h.length ▸ (dataCount_succ_eq_iff h.unfinished).mp hl
  have all : clocks s = ceil16 len.toNat := by
    rw [clocks_of_no_request (by simp [hf]), ceil16]
    omega
  have allGiven : (blocks tr).length = ceil16 len.toNat := by
    rw [count, ← all, clocks_of_no_request (by simp [hf])]
  have op : s.cmd.op = 3#4 := by rw [h.command]; rfl
  refine ⟨⟨rfl, by rw [op, h.keyState.2]⟩, all ▸ h.counter, ⟨rfl, rfl, rfl⟩, h.keyState, tr ++ [.dataOut s.outb],
    by simp [traffic], by simp [taken, last], by simp [allGiven], ?_, by simp [hreq, all], fun k hk => ?_⟩
  · rw [given_append_of_no_block (by simp)]
    simpa using closed
  · have used : ∀ m, m < ceil16 (dataIns tr).length → given tr m = keystream k cb m := by
      intro m hm
      rw [taken, last, ← allGiven] at hm
      exact given_of_blocks_eq (hkey k hk) hm
    simpa [xorStream, ← xorBlocks_congr used] using closed

/-! ## Every edge, and every run -/

/-- Of the moves of the engine, those of a call keep it or end it; the others start in other control states. -/
theorem Move.of_inCall {t : State} (m : Move s t) (h : InCall key cb past len s) :
    InCall key cb past len t ∨ CallDone key cb past len t := by
  have state := h.fsm_cases
  cases m with
  | stay => exact .inl h
  | sendBlock ep dp hf => exact .inl (h.after_sendBlock hf)
  | loadKs ep dp r x hf _ _ _ hx => exact .inl (h.after_loadKs hf hx r.data)
  | byteIn ep dp b hf => exact .inl (h.after_byteIn hf b)
  | byteOut ep dp f hf _ _ hl hn => exact .inl (h.after_byteOut hf hl hn)
  | lastByteOut ep dp hf _ _ hl => exact .inr (h.after_lastByteOut hf hl)
  | _ => simp_all

/-- One edge without reset of a call under way. -/
theorem InCall.step {t : State} (h : InCall key cb past len s) (hr : s.pins.rstN = true) (hs : step s = .next t) :
    InCall key cb past len t ∨ CallDone key cb past len t := by
  obtain ⟨u, m, rfl⟩ := step_move hr hs
  exact (m.of_inCall h).imp (fun h => { h with }) fun h => { h with }

/-- A run of one edge and n more. -/
theorem run_succ_cases {n : Nat} {t : State} (h : run (n + 1) s = .next t) :
    ∃ u, step s = .next u ∧ run n u = .next t := by
  rw [run] at h
  cases hs : step s with
  | next u => exact ⟨u, rfl, by rwa [hs] at h⟩
  | fault r => rw [hs] at h; cases h
  | refused r => rw [hs] at h; cases h

theorem run_succ_of_step {u : State} (h : step s = .next u) (n : Nat) : run (n + 1) s = run n u := by
  rw [run, h]

/-- Without reset at the edges to come there is none at the next one: past the end of the inputs all is quiet. -/
theorem rstN_of_inputs {n : Nat} (h : ∀ p ∈ s.inputs.take (n + 1), p.rstN = true) : s.pins.rstN = true := by
  unfold State.pins
  cases hi : s.inputs with
  | nil => rfl
  | cons p ps => exact h p (by simp [hi])

/-- A step takes one edge off the inputs. -/
theorem inputs_of_step {u : State} (h : step s = .next u) : u.inputs = s.inputs.tail := by
  rcases step_cases h with ⟨_, rfl⟩ | ⟨_, _, _, _, rfl⟩ <;> rfl

end Calls

/-- Settles O52, by induction on the number of edges; one edge is `InCall.step`. -/
theorem callClosedFormAnyEnvironment : Obligations.CallClosedFormAnyEnvironment := by
  intro key cb past len n
  induction n with
  | zero =>
    intro s t h _ hrun
    cases hrun
    exact .inl h
  | succ n ih =>
    intro s t h hr hrun
    obtain ⟨u, hs, hrest⟩ := run_succ_cases hrun
    rcases h.step (rstN_of_inputs hr) hs with hu | hu
    · have running : ∀ p ∈ u.inputs.take n, p.rstN = true := by
        rw [inputs_of_step hs, ← List.drop_one, List.take_drop]
        exact fun p hp => hr p (List.mem_of_mem_drop (by rwa [Nat.add_comm 1 n] at hp))
      rcases ih u t hu running hrest with ht | ⟨m, v, hm, hv, done⟩
      · exact .inl ht
      · exact .inr ⟨m + 1, v, by omega, (run_succ_of_step hs m).trans hv, done⟩
    · exact .inr ⟨1, u, by omega, run_succ_of_step hs 0, hu⟩

/-! ## The beginning of a call -/

/-- An XCRYPT has one argument word, so that the word taken in ARGS is its last. -/
theorem Inv.nargs_of_xcrypt {s : State} (h : Inv s) (hf : s.fsm = .args) (hc : s.cmd = instrCmd (.xcrypt true true)) :
    s.nargs ≤ 1 := by
  have phase := h.phase
  simp only [Machine.phase, hf, hc, cmdInstr_instrCmd, nargs, Bool.toNat_true] at phase
  omega

/-- The state after the LEN word of a nonzero LEN: a call at the counter block CB holds, with nothing moved. -/
theorem inCall_begin {s : State} (valid : s.keyValid = s.sched.isSome) (hc : s.cmd = instrCmd (.xcrypt true true))
    {w : Word} (hw : w ≠ 0#32) (past : List Transfer) :
    InCall s.sched s.cb past w
      { s with len := w, nargs := 0, argi := 0, j := 16#5, i := 0#32, fsm := .cphReq .enc, traffic := past } := by
  have clocked : clocks { s with
      len := w, nargs := 0, argi := 0, j := 16#5, i := 0#32, fsm := .cphReq .enc, traffic := past } = 0 := by
    simp [clocks_of_request]
  have positive : 0 < w.toNat := by bv_omega
  exact
    { command := hc
      keyState := ⟨rfl, valid⟩
      length := rfl
      unfinished := positive
      counter := by rw [clocked, blkAt_zero]
      stream := ⟨[], by simp, by simp [callPhase], rfl, by rw [clocked]; rfl, fun _ _ => rfl⟩ }

/-- Settles O51: the LEN word is the last (`Inv.nargs_of_xcrypt`), and the call begins (`inCall_begin`). -/
theorem callBegins : Obligations.CallBegins := by
  intro s w h hf hc hw hz
  exact ⟨_, xcryptStartsAtBlockBoundary s w hf hw (h.nargs_of_xcrypt hf hc) hz, inCall_begin h.keyState hc hz _⟩

end Sys2Proof.Machine
end

section
/-! PROOFS. An environment that answers at once (95_test_vectors.md L2.10): what it offers is taken at the edge at which it is
offered. The edges of a command's words and of its response, and a whole SETBLK. -/

namespace Sys2Proof.Machine

/-! ## Runs put together -/

theorem run_add {m : Nat} {s t : State} (h : run m s = .next t) (n : Nat) : run (m + n) s = run n t := by
  induction m generalizing s with
  | zero =>
    cases h
    rw [Nat.zero_add]
  | succ m ih =>
    obtain ⟨u, hs, hrest⟩ := run_succ_cases h
    rw [Nat.add_right_comm, run_succ_of_step hs, ih hrest]

/-- A run over some edges and then over more. -/
theorem run_append {es fs : List PortIn} {s t u : State} (h : run es.length s = .next t)
    (h' : run fs.length t = .next u) : run (es ++ fs).length s = .next u := by
  rw [List.length_append, run_add h, h']

/-- A run over one edge. -/
theorem run_edge (p : PortIn) {s t : State} (h : step s = .next t) : run [p].length s = .next t :=
  run_succ_of_step h 0

theorem run_keeps_inv {n : Nat} {s t : State} (h : Inv s) (hrun : run n s = .next t) : Inv t := by
  induction n generalizing s with
  | zero =>
    cases hrun
    exact h
  | succ n ih =>
    obtain ⟨u, hs, hrest⟩ := run_succ_cases hrun
    exact ih (step_keeps_inv h hs) hrest

/-! ## One edge -/

/-- The host owes no offer, and these are the edges to come. -/
structure Faces (ps : List PortIn) (s : State) : Prop where
  inputs : s.inputs = ps
  noWord : s.heldCmd = none
  noByte : s.heldDin = none

/-- The state made to face these edges. -/
def facing (ps : List PortIn) (s : State) : State :=
  { s with inputs := ps, heldCmd := none, heldDin := none }

theorem faces_facing (ps : List PortIn) (s : State) : Faces ps (facing ps s) :=
  ⟨rfl, rfl, rfl⟩

/-- Whatever the host and the collaborator offer at this edge is taken at it. -/
structure Accepts (s : State) (p : PortIn) : Prop where
  running : p.rstN = true
  word : p.cmd = none ∨ takesWord s.fsm = true
  byte : p.din = none ∨ s.fsm = .xcByte
  answer : p.cphRsp = none ∨ s.inflight ≠ none

theorem Faces.pins_eq {p : PortIn} {ps : List PortIn} {s : State} (h : Faces (p :: ps) s) : s.pins = p := by
  rw [State.pins, h.inputs]
  rfl

/-- At such an edge the engine moves, and the host owes nothing after it. -/
theorem step_of_accepts {p : PortIn} {ps : List PortIn} {s u : State} (h : Faces (p :: ps) s) (a : Accepts s p)
    (e : engineEdge s = .next u) : step s = .next (facing ps u) := by
  have kept : contractBreach s = none := by
    rcases a.answer with hp | hx
    · simp [contractBreach, offerBroken, h.noWord, h.noByte, h.pins_eq, hp]
    · simp [contractBreach, offerBroken, h.noWord, h.noByte, hx]
  have running : s.pins.rstN = true := by rw [h.pins_eq, a.running]
  have owed : (if takesWord s.fsm then none else p.cmd) = none ∧ (if s.fsm = .xcByte then none else p.din) = none :=
    ⟨by rcases a.word with hw | hw <;> simp [hw], by rcases a.byte with hb | hb <;> simp [hb]⟩
  rw [step_eq_engineEdge running kept, e, mapNext_next, advance_eq running, h.pins_eq, owed.1, owed.2, h.inputs]
  rfl

theorem Ready.faces {s : State} (h : Ready s) : Faces s.inputs s :=
  ⟨rfl, h.noWord, h.noByte⟩

/-- Outside IDLE the edge is that of the command in CMD. -/
theorem engineEdge_of_cmd {s : State} {i : Instr} (hf : s.fsm ≠ .idle) (hc : s.cmd = instrCmd i) :
    engineEdge s = exec i s :=
  engineEdge_of_run (by simp [work, hf, hc])

/-! ## Words and the response -/

theorem accepts_word {s : State} (hf : takesWord s.fsm = true) (w : Word) : Accepts s (offerWord w) :=
  ⟨rfl, .inr hf, .inl rfl, .inl rfl⟩

theorem Faces.cmdIn_eq {w : Word} {ps : List PortIn} {s : State} (h : Faces (offerWord w :: ps) s)
    (hf : takesWord s.fsm = true) : cmdIn s = some w :=
  cmdIn_eq_some.mpr ⟨by rw [h.pins_eq]; rfl, hf, by rw [h.pins_eq]; rfl⟩

/-- The state in which the command word of i is latched and its argument words are due (30_encoding.md R78). -/
def latched (i : Instr) (s : State) : State :=
  { s with
    cmd := instrCmd i, nargs := nargs i, argi := 0, fsm := .args, traffic := s.traffic ++ [.cmdIn (encode i)] }

/-- The command word of a command with argument words. -/
theorem step_commandWord {i : Instr} {ps : List PortIn} {s : State} (h : Faces (offerWord (encode i) :: ps) s)
    (hf : s.fsm = .idle) (hn : 0 < nargs i) :
    step s = .next (facing ps (latched i s)) := by
  have takes : takesWord s.fsm = true := takesWord_eq_true.mpr (.inl hf)
  have taken := h.cmdIn_eq takes
  obtain ⟨done, edge⟩ := exec_idle i hf
  rw [takeCommand_of_pos done taken hn] at edge
  have run : work s = .run i := by simp [work, hf, taken, decode_encode]
  exact step_of_accepts h (accepts_word takes _) ((engineEdge_of_run run).trans edge)

/-- The response of a command without read-back. -/
theorem step_answered {ps : List PortIn} {s : State} (h : Faces (rspEdge :: ps) s) (hf : s.fsm = .resp)
    (hb : readsBack s = false) :
    step s = .next (facing ps { s with rsp := 0#32, fsm := .idle, traffic := s.traffic ++ [.rspOut s.rsp] }) := by
  have edge : engineEdge s =
      .next { s with rsp := 0#32, fsm := .idle, traffic := s.traffic ++ [.rspOut s.rsp] } := by
    rw [engineEdge_resp hf, takeResponse_resp (by rw [h.pins_eq]; rfl) hf (by rw [h.pins_eq]; rfl), hb]
    rfl
  exact step_of_accepts h ⟨rfl, .inl rfl, .inl rfl, .inl rfl⟩ edge

/-! ## SETBLK -/

/-- The argument words of a SETBLK with an engine: from word ARGI on they are in BLKBUF, and the last moves it to CB. -/
theorem run_setblkWords {ps : List PortIn} {ws : List Word} (hw : ws ≠ []) {s : State}
    (h : Faces (ws.map offerWord ++ ps) s) (hf : s.fsm = .args) (hc : s.cmd = instrCmd (.setblk true true))
    (hn : s.nargs = ws.length) :
    ∃ t, run (ws.map offerWord).length s = .next t ∧ Faces ps t ∧ t.fsm = .resp ∧ t.cmd = s.cmd ∧
      t.cb = putWords s.blkbuf s.argi ws ∧ t.keyValid = s.keyValid ∧ t.sched = s.sched ∧
      t.traffic = s.traffic ++ ws.map .cmdIn := by
  induction ws generalizing s with
  | nil => exact absurd rfl hw
  | cons w ws ih =>
    have takes : takesWord s.fsm = true := takesWord_eq_true.mpr (.inr hf)
    have taken := h.cmdIn_eq takes
    have edge : engineEdge s = .next (takeArgument storeSetblkArg (finishSetblk true true) s) := by
      rw [engineEdge_of_cmd (by simp [hf]) hc, execSetblk_args true true hf]
    have first := step_of_accepts h (accepts_word takes w) edge
    cases ws with
    | nil =>
      rw [takeArgument_of_last _ _ taken hn.le, finishSetblk_present] at first
      refine ⟨_, run_edge (offerWord w) first, faces_facing _ _, ?_⟩
      simp [facing, storeSetblkArg, putWords]
    | cons w' ws =>
      rw [takeArgument_of_more _ _ taken (by simp [hn])] at first
      obtain ⟨t, hrun, faces, resp, cmd, cb, valid, sched, traffic⟩ :=
        ih (by simp) (faces_facing ((w' :: ws).map offerWord ++ ps)
          (note (.cmdIn w) { storeSetblkArg w s with nargs := s.nargs - 1, argi := s.argi + 1 }))
          (by simpa [facing, storeSetblkArg] using hf) (by simpa [facing, storeSetblkArg] using hc) (by simp [facing, hn])
      refine ⟨t, (run_succ_of_step first _).trans hrun, faces, resp, ?_⟩
      simp [cmd, cb, valid, sched, traffic, facing, storeSetblkArg, putWords]

@[simp] theorem dataOuts_words (ws : List Word) : dataOuts (ws.map .cmdIn) = [] := by
  simp [dataOuts]

/-- A whole SETBLK with engine and block: CB is the block, the key state is kept, and no data byte moves (R205, R206). -/
theorem run_setblk {s : State} (h : Ready s) (b : Block) (err : Bool) (draws : Nat → BitVec 128) {rest : List PortIn}
    (hi : s.inputs = promptEdges (.setblk true (some b)) [] err draws ++ rest) :
    ∃ t tr, run (promptEdges (.setblk true (some b)) [] err draws).length s = .next t ∧ Ready t ∧ t.inputs = rest ∧
      t.cb = b ∧ t.keyValid = s.keyValid ∧ t.sched = s.sched ∧ t.traffic = s.traffic ++ tr ∧ dataOuts tr = [] := by
  have edges : promptEdges (.setblk true (some b)) [] err draws =
      [offerWord (encode (.setblk true true))] ++ ((getWords b 4).map offerWord ++ [rspEdge]) := rfl
  have ahead : s.inputs =
      offerWord (encode (.setblk true true)) :: ((getWords b 4).map offerWord ++ rspEdge :: rest) := by
    rw [hi, edges]
    simp
  have command := step_commandWord ⟨ahead, h.noWord, h.noByte⟩ h.idle (by decide)
  obtain ⟨t, words, faces, resp, cmd, cb, valid, sched, traffic⟩ :=
    run_setblkWords (by simp [getWords])
      (faces_facing ((getWords b 4).map offerWord ++ rspEdge :: rest) (latched (.setblk true true) s)) rfl rfl rfl
  have noReadBack : readsBack t = false := by
    rw [readsBack, cmd]
    rfl
  have whole := run_append (run_edge (offerWord (encode (.setblk true true))) command)
    (run_append words (run_edge rspEdge (step_answered faces resp noReadBack)))
  rw [edges]
  refine ⟨_, [.cmdIn (encode (.setblk true true))] ++ (getWords b 4).map .cmdIn ++ [.rspOut t.rsp], whole, ?_⟩
  exact ⟨⟨run_keeps_inv h.inv whole, rfl, rfl, rfl⟩, rfl, cb.trans (putWords_getWords _ b rfl), valid, sched, 
    by simp [facing, latched, traffic], by simp⟩

end Sys2Proof.Machine
end

section
/-! PROOFS. A whole XCRYPT in an environment that answers at once (43_stream_xor.md R159, R164): its LEN word, its clocks, its
data bytes and its response. -/

namespace Sys2Proof.Machine

/-! ## A call answered at once -/

/-- What is fixed during such a call: the key, the first counter block, the traffic before the call, its length, the data
lines of the answers, and KX_ERR. -/
structure PromptCall where
  key : Option Sched
  cb : Block
  past : List Transfer
  len : Word
  draws : Nat → BitVec 128
  kxErr : Bool

/-- Block m of the keystream: under a key `E(SCHED, blk(m))`, else the block on the data lines of answer m (R125). -/
def PromptCall.block (c : PromptCall) (m : Nat) : Block :=
  match c.key with
  | some k => keystream k c.cb m
  | none => bitsBlock (c.draws m)

/-- The call has taken these data bytes, and these edges are to come. -/
structure PromptCall.At (c : PromptCall) (data : List Byte) (ps : List PortIn) (s : State) : Prop where
  faces : Faces ps s
  command : s.cmd = instrCmd (.xcrypt true true)
  kxErr : s.kxErr = c.kxErr
  stream : ∃ tr, s.traffic = c.past ++ tr ∧ dataIns tr = data ∧ rspOuts tr = [] ∧
    blocks tr = (List.range (blocks tr).length).map c.block

/-- The call is under way. -/
def PromptCall.Running (c : PromptCall) (s : State) : Prop :=
  InCall c.key c.cb c.past c.len s

/-- The call has ended and its response is on offer. -/
def PromptCall.Ended (c : PromptCall) (s : State) : Prop :=
  CallDone c.key c.cb c.past c.len s

/-- n data bytes are through: the call has ended, or byte n is due, a clock before it where it starts a block. -/
def PromptCall.Through (c : PromptCall) (n : Nat) (s : State) : Prop :=
  (n = c.len.toNat ∧ c.Ended s) ∨
    (n < c.len.toNat ∧ c.Running s ∧ s.i.toNat = n ∧ s.fsm = if n % 16 = 0 then .cphReq .enc else .xcByte)

section Calls

variable {c : PromptCall} {data : List Byte} {ps : List PortIn} {s : State}

/-- The block loaded for counter block m is block m of the keystream. -/
theorem PromptCall.Running.keystreamBlock_eq (h : c.Running s) (m : Nat) :
    keystreamBlock (blkAt c.cb m) (c.draws m) s = c.block m := by
  have sched := h.clockSched_eq
  unfold PromptCall.block
  split
  case h_1 k hk => exact keystreamBlock_keyed (sched.trans hk)
  case h_2 hk => exact keystreamBlock_free (sched.trans hk)

/-- In a call the edge is that of XCRYPT. -/
theorem PromptCall.Running.engineEdge_eq (h : c.Running s) : engineEdge s = exec (.xcrypt true true) s :=
  engineEdge_of_cmd (by rcases h.fsm_cases with hf | hf | hf | hf <;> simp [hf]) (h.command)

/-- The edges to come and the offers owed are no part of a call. -/
theorem facing_keeps_running (h : c.Running s) (ps : List PortIn) : c.Running (facing ps s) := { h with }

theorem facing_keeps_ended (h : c.Ended s) (ps : List PortIn) : c.Ended (facing ps s) := { h with }

/-- An edge of the call that moves no keystream block and no response. -/
theorem PromptCall.At.step {p : PortIn} {u : State} {x : Transfer} (a : c.At data (p :: ps) s) (accepts : Accepts s p)
    (edge : engineEdge s = .next u) (hc : u.cmd = s.cmd) (hk : u.kxErr = s.kxErr) (ht : u.traffic = s.traffic ++ [x])
    (hr : rspOuts [x] = []) (hb : blocks [x] = []) :
    step s = .next (facing ps u) ∧ c.At (data ++ dataIns [x]) ps (facing ps u) := by
  obtain ⟨tr, traffic, taken, silent, given⟩ := a.stream
  refine ⟨step_of_accepts a.faces accepts edge, faces_facing ps u, hc.trans a.command, hk.trans a.kxErr,
    tr ++ [x], ?_, ?_, ?_, ?_⟩
  · show u.traffic = _
    rw [ht, traffic, List.append_assoc]
  · rw [dataIns_append, taken]
  · rw [rspOuts_append, silent, hr, List.append_nil]
  · rwa [blocks_append, hb, List.append_nil]

/-! ## The four edges of a data byte -/

/-- The collaborator takes the clock's request. -/
theorem PromptCall.Running.step_request (h : c.Running s) (hf : s.fsm = .cphReq .enc) (a : c.At data (reqEdge :: ps) s) :
    ∃ t, step s = .next t ∧ c.Running t ∧ c.At data ps t ∧ t.fsm = .cphRsp .enc ∧ t.i = s.i := by
  have sent : cipherReq s = some (.enc s.cb) :=
    cipherReq_eq_some.mpr ⟨by rw [a.faces.pins_eq]; rfl, by rw [a.faces.pins_eq]; rfl, by simp [reqOffer, hf]⟩
  have edge : engineEdge s = _ :=
    h.engineEdge_eq.trans ((execXcrypt_clockRequest true true hf).trans (congrArg _ (clockRequest_taken sent)))
  obtain ⟨stepped, at'⟩ := a.step ⟨rfl, .inl rfl, .inl rfl, .inl rfl⟩ edge rfl rfl rfl rfl rfl
  exact ⟨_, stepped, facing_keeps_running (h.after_sendBlock hf) ps, by simpa using at', rfl, rfl⟩

/-- The collaborator answers with block m. -/
theorem PromptCall.Running.step_answer {m : Nat} (h : c.Running s) (hf : s.fsm = .cphRsp .enc) (hm : s.i.toNat / 16 = m)
    (a : c.At data (ansEdge false (c.draws m) :: ps) s) :
    ∃ t, step s = .next t ∧ c.Running t ∧ c.At data ps t ∧ t.fsm = .xcByte ∧ t.i = s.i := by
  obtain ⟨tr, traffic, taken, silent, given⟩ := a.stream
  obtain ⟨tr', traffic', phase, _⟩ := h.stream
  obtain rfl : tr = tr' := List.append_cancel_left (traffic.symm.trans traffic')
  simp only [callPhase, hf, hm] at phase
  obtain ⟨_, _, _, count, sent⟩ := phase
  have answer : cipherRsp s = some { err := false, data := c.draws m } :=
    cipherRsp_eq_some.mpr
      ⟨by rw [a.faces.pins_eq]; rfl, takesCipherRsp_eq_true.mpr ⟨.enc, hf⟩, by rw [a.faces.pins_eq]; rfl⟩
  have edge : engineEdge s = .next
      { s with
        ks := c.block m, j := 0#5, fsm := .xcByte, inflight := none
        traffic := s.traffic ++ [.cipherBlock (c.block m)] } := by
    rw [h.engineEdge_eq, execXcrypt_clockResponse true true hf, clockResponse_answered answer sent, loadKeystream,
      h.keystreamBlock_eq]
    rfl
  have running := h.after_loadKs hf sent (c.draws m)
  rw [h.keystreamBlock_eq] at running
  refine ⟨_, step_of_accepts a.faces ⟨rfl, .inl rfl, .inl rfl, .inr (by simp [sent])⟩ edge,
    facing_keeps_running running ps, ?_, rfl, rfl⟩
  refine ⟨faces_facing _ _, a.command, a.kxErr, tr ++ [.cipherBlock (c.block m)], ?_, by simp [taken],
    by simp [silent], ?_⟩
  · simp [facing, traffic]
  · rw [blocks_append, given]
    simp [List.range_succ, count]

/-- The host offers a data-in byte. -/
theorem PromptCall.Running.step_dataIn {b : Byte} (h : c.Running s) (hf : s.fsm = .xcByte)
    (a : c.At data (dinEdge b :: ps) s) :
    ∃ t, step s = .next t ∧ c.Running t ∧ c.At (data ++ [b]) ps t ∧ t.fsm = .xcOut ∧ t.i = s.i := by
  have taken : dataIn s = some b :=
    dataIn_eq_some.mpr ⟨by rw [a.faces.pins_eq]; rfl, hf, by rw [a.faces.pins_eq]; rfl⟩
  have edge : engineEdge s = _ :=
    h.engineEdge_eq.trans ((execXcrypt_xcByte true true hf).trans (congrArg _ (xorByte_taken taken)))
  obtain ⟨stepped, at'⟩ := a.step ⟨rfl, .inl rfl, .inr hf, .inl rfl⟩ edge rfl rfl rfl rfl rfl
  exact ⟨_, stepped, facing_keeps_running (h.after_byteIn hf b) ps, at', rfl, rfl⟩

/-- The host takes the data-out byte: the call ends, or the next byte is due. -/
theorem PromptCall.Running.step_dataOut (h : c.Running s) (hf : s.fsm = .xcOut) (a : c.At data (doutEdge :: ps) s) :
    ∃ t, step s = .next t ∧ c.Through (s.i.toNat + 1) t ∧ c.At data ps t := by
  have given : dataOut s = some s.outb :=
    dataOut_eq_some.mpr ⟨by rw [a.faces.pins_eq]; rfl, by rw [a.faces.pins_eq]; rfl, hf, rfl⟩
  have accepts : Accepts s doutEdge := ⟨rfl, .inl rfl, .inl rfl, .inl rfl⟩
  have edge : engineEdge s = .next (giveByte s) := h.engineEdge_eq.trans (execXcrypt_xcOut true true hf)
  have unfinished := h.unfinished
  have length := h.length
  by_cases hl : s.i + 1#32 = s.len
  · have last := (dataCount_succ_eq_iff unfinished).mp hl
    rw [giveByte_last given hl] at edge
    obtain ⟨stepped, at'⟩ := a.step accepts edge rfl rfl rfl rfl rfl
    exact ⟨_, stepped, .inl ⟨by rw [last, length], facing_keeps_ended (h.after_lastByteOut hf hl) ps⟩, by
      simpa using at'⟩
  · have more := dataCount_succ_lt unfinished hl
    have next : (s.i + 1#32).toNat = s.i.toNat + 1 := by bv_omega
    obtain ⟨tr, _, phase, _⟩ := h.stream
    simp only [callPhase, hf] at phase
    obtain ⟨_, cursor, _⟩ := phase
    have blockEnd := cursor_eq_end_iff cursor
    have state : (if s.j = 16#5 then Fsm.cphReq .enc else .xcByte) =
        if (s.i.toNat + 1) % 16 = 0 then .cphReq .enc else .xcByte := by
      simp only [blockEnd, show s.i.toNat % 16 = 15 ↔ (s.i.toNat + 1) % 16 = 0 by omega]
    rw [giveByte_more given hl] at edge
    obtain ⟨stepped, at'⟩ := a.step accepts edge rfl rfl rfl rfl rfl
    refine ⟨_, stepped, .inr ⟨by rw [← length, ← next]; exact more, ?_, next, state⟩, by simpa using at'⟩
    refine facing_keeps_running (h.after_byteOut hf hl ?_) ps
    by_cases hj : s.j = 16#5
    · exact .inl ⟨hj, if_pos hj⟩
    · exact .inr ⟨hj, if_neg hj⟩

/-! ## The data bytes -/

/-- Before a byte that starts a block, its clock. -/
theorem PromptCall.Running.run_clock {n : Nat} (h : c.Running s) (hn : s.i.toNat = n)
    (hf : s.fsm = if n % 16 = 0 then .cphReq .enc else .xcByte)
    (a : c.At data ((if n % 16 = 0 then [reqEdge, ansEdge false (c.draws (n / 16))] else []) ++ ps) s) :
    ∃ t, run (if n % 16 = 0 then [reqEdge, ansEdge false (c.draws (n / 16))] else []).length s = .next t ∧
      c.Running t ∧ c.At data ps t ∧ t.fsm = .xcByte ∧ t.i = s.i := by
  split at a
  case isTrue first =>
    rw [if_pos first] at hf ⊢
    obtain ⟨u, hs, hu, au, hfu, hiu⟩ := h.step_request hf a
    obtain ⟨t, hs', ht, at', hft, hit⟩ := hu.step_answer hfu (by rw [hiu, hn]) au
    exact ⟨t, (run_succ_of_step hs 1).trans (run_succ_of_step hs' 0), ht, at', hft, hit.trans hiu⟩
  case isFalse inner =>
    rw [if_neg inner] at hf ⊢
    exact ⟨s, rfl, h, a, hf, rfl⟩

/-- One data byte, from before its clock to after its data-out byte. -/
theorem PromptCall.Running.run_byte {n : Nat} {b : Byte} (h : c.Running s) (hn : s.i.toNat = n)
    (hf : s.fsm = if n % 16 = 0 then .cphReq .enc else .xcByte)
    (a : c.At data (byteEdges c.draws n [b] ++ ps) s) :
    ∃ t, run (byteEdges c.draws n [b]).length s = .next t ∧ c.Through (n + 1) t ∧ c.At (data ++ [b]) ps t := by
  rw [byteEdges, List.append_assoc] at a
  obtain ⟨u, hu, ru, au, hfu, hiu⟩ := h.run_clock hn hf a
  obtain ⟨v, hv, rv, av, hfv, hiv⟩ := ru.step_dataIn hfu au
  obtain ⟨t, ht, through, at'⟩ := rv.step_dataOut hfv av
  rw [hiv, hiu, hn] at through
  have bytes : run [dinEdge b, doutEdge].length u = .next t := (run_succ_of_step hv 1).trans (run_succ_of_step ht 0)
  exact ⟨t, run_append hu bytes, through, at'⟩

theorem byteEdges_cons (draws : Nat → BitVec 128) (n : Nat) (b : Byte) (bs : List Byte) :
    byteEdges draws n (b :: bs) = byteEdges draws n [b] ++ byteEdges draws (n + 1) bs := by
  simp [byteEdges]

/-- The data bytes from byte n on: the call ends with the last of them. -/
theorem PromptCall.Through.run_bytes {bs : List Byte} {n : Nat} (h : c.Through n s) (hl : n + bs.length = c.len.toNat)
    (a : c.At data (byteEdges c.draws n bs ++ ps) s) :
    ∃ t, run (byteEdges c.draws n bs).length s = .next t ∧ c.Ended t ∧ c.At (data ++ bs) ps t := by
  induction bs generalizing n data s with
  | nil =>
    rcases h with ⟨_, ended⟩ | ⟨less, _⟩
    · exact ⟨s, rfl, ended, by simpa [byteEdges] using a⟩
    · simp only [List.length_nil] at hl
      omega
  | cons b bs ih =>
    rw [List.length_cons] at hl
    rw [byteEdges_cons] at a ⊢
    rw [List.append_assoc] at a
    rcases h with ⟨all, _⟩ | ⟨_, running, hn, hf⟩
    · omega
    · obtain ⟨u, hu, through, au⟩ := running.run_byte hn hf a
      obtain ⟨t, ht, ended, at'⟩ := ih through (by omega) au
      exact ⟨t, run_append hu ht, ended, by simpa using at'⟩

/-- The edges of the data bytes from byte n on: two for each, and two for each block begun. -/
theorem length_byteEdges (draws : Nat → BitVec 128) (n : Nat) (bs : List Byte) :
    (byteEdges draws n bs).length + 2 * ceil16 n = 2 * ceil16 (n + bs.length) + 2 * bs.length := by
  induction bs generalizing n with
  | nil => simp [byteEdges]
  | cons b bs ih =>
    have rest := ih (n + 1)
    rw [byteEdges, List.length_append]
    unfold ceil16 at rest ⊢
    split <;> simp only [List.length_cons, List.length_nil] <;> omega

/-! ## The LEN word and the end of the call -/

/-- A call of length `len` with the key state and the counter block of s, after this traffic. -/
def callFrom (s : State) (past : List Transfer) (len : Word) (draws : Nat → BitVec 128) : PromptCall :=
  { key := s.sched, cb := s.cb, past := past, len := len, draws := draws, kxErr := s.kxErr }

/-- The state after LEN = 0: a call that has ended with nothing moved (R163). -/
theorem callDone_empty (valid : s.keyValid = s.sched.isSome) (hc : s.cmd = instrCmd (.xcrypt true true))
    (past : List Transfer) :
    CallDone s.sched s.cb past 0#32
      { s with
        len := 0#32, nargs := 0, argi := 0, ks := zeroBlock, j := 16#5, i := 0#32
        rsp := responseWord .ok s.cmd.op s.keyValid s.kxErr
        fsm := .resp
        traffic := past } := by
  have op : s.cmd.op = 3#4 := by rw [hc]; rfl
  have noBlock : ceil16 (0#32).toNat = 0 := by simp [ceil16]
  refine ⟨⟨rfl, by rw [op, valid]⟩, by rw [noBlock, blkAt_zero], ⟨rfl, rfl, rfl⟩, ⟨rfl, valid⟩, [], by simp, rfl, ?_⟩
  rw [noBlock]
  exact ⟨rfl, rfl, rfl, fun _ _ => rfl⟩

/-- The LEN word of an XCRYPT: with LEN = 0 the call has ended at once (R163), else its first clock is due (R152). -/
theorem step_lenWord {len : Word} (faces : Faces (offerWord len :: ps) s) (hf : s.fsm = .args)
    (hc : s.cmd = instrCmd (.xcrypt true true)) (hn : s.nargs ≤ 1) (valid : s.keyValid = s.sched.isSome)
    (draws : Nat → BitVec 128) :
    ∃ t, step s = .next t ∧ (callFrom s (s.traffic ++ [.cmdIn len]) len draws).Through 0 t ∧
      (callFrom s (s.traffic ++ [.cmdIn len]) len draws).At [] ps t := by
  have takes : takesWord s.fsm = true := takesWord_eq_true.mpr (.inr hf)
  have taken := faces.cmdIn_eq takes
  have accepts := accepts_word takes len
  have edge := engineEdge_of_cmd (by simp [hf]) hc
  have begun (u : State) (cmd : u.cmd = s.cmd) (kxErr : u.kxErr = s.kxErr)
      (traffic : u.traffic = s.traffic ++ [.cmdIn len]) :
      (callFrom s (s.traffic ++ [.cmdIn len]) len draws).At [] ps (facing ps u) :=
    ⟨faces_facing _ _, cmd.trans hc, kxErr, [], traffic.trans (List.append_nil _).symm, rfl, rfl, rfl⟩
  by_cases hz : len = 0#32
  · subst hz
    have stepped := step_of_accepts faces accepts (edge.trans (xcryptEmptyBufferSucceeds s hf taken hn))
    have ended := callDone_empty valid hc (s.traffic ++ [.cmdIn 0#32])
    exact ⟨_, stepped, .inl ⟨rfl, facing_keeps_ended (c := callFrom s _ 0#32 draws) ended ps⟩, begun _ rfl rfl rfl⟩
  · have stepped := step_of_accepts faces accepts (edge.trans (xcryptStartsAtBlockBoundary s len hf taken hn hz))
    have running := inCall_begin valid hc hz (s.traffic ++ [.cmdIn len])
    have positive : 0 < len.toNat := by bv_omega
    exact ⟨_, stepped, .inr ⟨positive, facing_keeps_running (c := callFrom s _ len draws) running ps, rfl, rfl⟩,
      begun _ rfl rfl rfl⟩

/-- The two words of an XCRYPT with engine and buffer. -/
theorem run_xcryptWords {len : Word} (h : Ready s)
    (hi : s.inputs = offerWord (encode (.xcrypt true true)) :: offerWord len :: ps) (draws : Nat → BitVec 128) :
    ∃ t past, run [offerWord (encode (.xcrypt true true)), offerWord len].length s = .next t ∧
      past = s.traffic ++ [.cmdIn (encode (.xcrypt true true)), .cmdIn len] ∧
      (callFrom s past len draws).Through 0 t ∧ (callFrom s past len draws).At [] ps t := by
  have command := step_commandWord ⟨hi, h.noWord, h.noByte⟩ h.idle (by decide)
  obtain ⟨t, last, through, begun⟩ := step_lenWord
    (faces_facing (offerWord len :: ps) (latched (.xcrypt true true) s)) rfl rfl le_rfl h.inv.keyState draws
  exact ⟨t, _, (run_succ_of_step command 1).trans (run_succ_of_step last 0), List.append_assoc _ _ _, through, begun⟩

/-- What an ended call has moved. -/
theorem PromptCall.Ended.moved (h : c.Ended s) (a : c.At data ps s) :
    ∃ tr, s.traffic = c.past ++ tr ∧ dataIns tr = data ∧ rspOuts tr = [] ∧ dataOuts tr = xorBlocks c.block data ∧
      (blocks tr).length = ceil16 c.len.toNat ∧
      requests tr = (List.range (ceil16 c.len.toNat)).map fun m => .enc (blkAt c.cb m) := by
  obtain ⟨tr, traffic, taken, silent, given⟩ := a.stream
  obtain ⟨tr', traffic', length, count, closed, sent, _⟩ := h.stream
  obtain rfl : tr = tr' := List.append_cancel_left (traffic.symm.trans traffic')
  have used : ∀ m, m < ceil16 (dataIns tr).length → Machine.given tr m = c.block m := fun m hm =>
    given_of_blocks_eq given (by rwa [count, ← length])
  exact ⟨tr, traffic, taken, silent, by rw [closed, xorBlocks_congr used, taken], count, sent⟩

end Calls

/-! ## The whole command -/

/-- Settles O53: the command word, the LEN word (`step_lenWord`), the data bytes (`PromptCall.Through.run_bytes`) and the
response (`step_answered`). -/
theorem xcryptRunsToClosedForm : Obligations.XcryptRunsToClosedForm := by
  intro s data draws rest h hl hi
  have word : (BitVec.ofNat 32 data.length).toNat = data.length := by
    rw [BitVec.toNat_ofNat, Nat.mod_eq_of_lt hl]
  have edges : promptEdges (xcryptOf data) data false draws =
      [offerWord (encode (.xcrypt true true)), offerWord (BitVec.ofNat 32 data.length)] ++
        (byteEdges draws 0 data ++ [rspEdge]) := rfl
  have ahead : s.inputs = offerWord (encode (.xcrypt true true)) :: offerWord (BitVec.ofNat 32 data.length) ::
      (byteEdges draws 0 data ++ rspEdge :: rest) := by
    rw [hi, edges]
    simp
  obtain ⟨u, past, words, hpast, through, begun⟩ := run_xcryptWords h ahead draws
  obtain ⟨v, bytes, ended, done⟩ := through.run_bytes (by rw [Nat.zero_add]; exact word.symm) begun
  obtain ⟨tr, traffic, taken, silent, closed, count, sent⟩ := ended.moved done
  have noReadBack : readsBack v = false := by
    rw [readsBack, done.command]
    rfl
  have answer : v.rsp = responseWord .ok 3#4 s.keyValid s.kxErr := by
    rw [ended.answered.2, done.kxErr, h.inv.keyState]
    rfl
  have whole := run_append words
    (run_append bytes (run_edge rspEdge (step_answered done.faces ended.answered.1 noReadBack)))
  refine ⟨?_, _, [.cmdIn (encode (.xcrypt true true)), .cmdIn (BitVec.ofNat 32 data.length)] ++ tr ++ [.rspOut v.rsp],
    whole, ⟨run_keeps_inv h.inv whole, rfl, rfl, rfl⟩, rfl, ?_⟩
  · have length := length_byteEdges draws 0 data
    rw [edges]
    simp only [List.length_append, List.length_cons, List.length_nil, ceil16] at length ⊢
    omega
  · obtain ⟨sched, valid⟩ := ended.keyState
    have counter := ended.counter
    simp only [callFrom, word] at counter count sent
    refine ⟨counter, valid.trans h.inv.keyState.symm, sched, done.kxErr, ?_, by simp [taken], fun k hk => ?_,
      fun hk => ?_, ?_, ?_, ?_⟩
    · simp [facing, traffic, callFrom, hpast]
    · have keyed : (callFrom s past (BitVec.ofNat 32 data.length) draws).block = keystream k s.cb := by
        funext m
        simp [PromptCall.block, callFrom, hk]
      simp [closed, keyed, xorStream]
    · have free : (callFrom s past (BitVec.ofNat 32 data.length) draws).block = fun m => bitsBlock (draws m) := by
        funext m
        simp [PromptCall.block, callFrom, hk]
      simp [closed, free]
    · simp [count]
    · simp [silent, answer]
    · simp [sent]

end Sys2Proof.Machine
end

section
/-! PROOFS. Two calls in a row (43_stream_xor.md R162, R166). -/

namespace Sys2Proof.Machine

/-! ## One call after another -/

/-- A whole XCRYPT under a key, as far as a second command needs it. -/
theorem run_xcrypt_keyed {s : State} {k : Sched} {data : List Byte} {rest : List PortIn} (h : Ready s)
    (valid : s.keyValid = true) (sched : s.sched = some k) (hl : data.length < 2 ^ 32) (draws : Nat → BitVec 128)
    (hi : s.inputs = promptEdges (xcryptOf data) data false draws ++ rest) :
    ∃ t tr, run (promptEdges (xcryptOf data) data false draws).length s = .next t ∧ Ready t ∧ t.inputs = rest ∧
      t.cb = blkAt s.cb (ceil16 data.length) ∧ t.keyValid = true ∧ t.sched = some k ∧ t.traffic = s.traffic ++ tr ∧
      dataOuts tr = xorStream k s.cb data := by
  obtain ⟨_, t, tr, hrun, ready, inputs, counter, valid', sched', _, traffic, _, closed, _⟩ :=
    xcryptRunsToClosedForm s data draws rest h hl hi
  exact ⟨t, tr, hrun, ready, inputs, counter, valid'.trans valid, sched'.trans sched, traffic, closed k sched⟩

@[simp] theorem length_xorStream (k : Sched) (cb : Block) (data : List Byte) :
    (xorStream k cb data).length = data.length :=
  length_xorBlocks _ data

/-- Settles O54: the second call starts at the first one's counter block, and the XOR undoes itself
(`xorBlocks_xorBlocks`). -/
theorem roundTripRestoresData : Obligations.RoundTripRestoresData := by
  intro s k plain draws rest h valid sched hl cipher edges hi
  simp only [edges, List.append_assoc] at hi
  obtain ⟨t₁, tr₁, run₁, ready₁, inputs₁, _, valid₁, sched₁, traffic₁, out₁⟩ :=
    run_xcrypt_keyed h valid sched hl draws hi
  obtain ⟨t₂, tr₂, run₂, ready₂, inputs₂, counter₂, valid₂, sched₂, traffic₂, out₂⟩ :=
    run_setblk ready₁ s.cb false draws inputs₁
  obtain ⟨t₃, tr₃, run₃, ready₃, inputs₃, _, _, _, traffic₃, out₃⟩ :=
    run_xcrypt_keyed ready₂ (valid₂.trans valid₁) (sched₂.trans sched₁) ((length_xorStream k s.cb plain).trans_lt hl)
      draws inputs₂
  refine ⟨t₃, tr₁ ++ tr₂ ++ tr₃, run_append (run_append run₁ run₂) run₃, ready₃, inputs₃, ?_, ?_⟩
  · rw [traffic₃, traffic₂, traffic₁]
    simp only [List.append_assoc]
  · have restored : xorStream k s.cb cipher = plain := xorBlocks_xorBlocks _ plain
    rw [dataOuts_append, dataOuts_append, out₁, out₂, out₃, counter₂, restored, List.append_nil]

/-- Settles O55: the second call starts at the counter block at which the first one ended. -/
theorem splitCallsRestartKeystream : Obligations.SplitCallsRestartKeystream := by
  intro s k one two draws rest h valid sched hl₁ hl₂ edges hi
  simp only [edges, List.append_assoc] at hi
  obtain ⟨t₁, tr₁, run₁, ready₁, inputs₁, counter₁, valid₁, sched₁, traffic₁, out₁⟩ :=
    run_xcrypt_keyed h valid sched hl₁ draws hi
  obtain ⟨t₂, tr₂, run₂, ready₂, inputs₂, counter₂, _, _, traffic₂, out₂⟩ :=
    run_xcrypt_keyed ready₁ valid₁ sched₁ hl₂ draws inputs₁
  exact ⟨t₂, tr₁ ++ tr₂, run_append run₁ run₂, ready₂, inputs₂, by rw [traffic₂, traffic₁, List.append_assoc], by
    rw [dataOuts_append, out₁, out₂, counter₁], by rw [counter₂, counter₁, blkAt_blkAt]⟩

/-! ## A split at a block boundary -/

/-- The inputs are no part of the invariants. -/
theorem Ready.with_inputs {s : State} (h : Ready s) (ps : List PortIn) : Ready { s with inputs := ps } :=
  ⟨{ h.inv with }, h.idle, h.noWord, h.noByte⟩

/-- A split at a block boundary, or before nothing, uses as many blocks as the whole. -/
theorem ceil16_append {one two : List Byte} (h : one.length % 16 = 0 ∨ two = []) :
    ceil16 (one ++ two).length = ceil16 one.length + ceil16 two.length := by
  rw [List.length_append]
  rcases h with full | rfl
  · unfold ceil16
    omega
  · rfl

/-- At such a split the second part starts at byte 0 of the block after those of the first. -/
theorem xorStream_append (k : Sched) (cb : Block) {one two : List Byte} (h : one.length % 16 = 0 ∨ two = []) :
    xorStream k cb (one ++ two) = xorStream k cb one ++ xorStream k (blkAt cb (ceil16 one.length)) two := by
  rcases h with full | rfl
  · have later : (fun m => keystream k cb (ceil16 one.length + m)) = keystream k (blkAt cb (ceil16 one.length)) := by
      funext m
      rw [keystream, keystream, blkAt_blkAt]
    rw [xorStream, xorBlocks_append_of_full _ full, later]
    rfl
  · simp [xorStream, xorBlocks]

/-- Settles O56: one call (`run_xcrypt_keyed`) and two (`splitCallsRestartKeystream`) give the same bytes and counter block
by `xorStream_append` and `ceil16_append`. -/
theorem boundarySplitGivesSameBytes : Obligations.BoundarySplitGivesSameBytes := by
  intro s k one two draws h valid sched hl boundary whole split
  rw [List.length_append] at hl
  have lengthOne : one.length < 2 ^ 32 := by omega
  have lengthTwo : two.length < 2 ^ 32 := by omega
  obtain ⟨t, trt, runt, _, _, countert, _, _, traffict, outt⟩ :=
    run_xcrypt_keyed (h.with_inputs whole) valid sched (by rwa [List.length_append]) draws (List.append_nil whole).symm
  obtain ⟨u, tru, runu, _, _, trafficu, outu, counteru⟩ :=
    splitCallsRestartKeystream { s with inputs := split } k one two draws [] (h.with_inputs split) valid sched
      lengthOne lengthTwo (List.append_nil split).symm
  exact ⟨t, u, trt, tru, runt, runu, traffict, trafficu, by rw [outt, outu, xorStream_append k s.cb boundary], by
    rw [countert, counteru, ceil16_append boundary]⟩

end Sys2Proof.Machine
end

section
/-! PROOFS. The words of INIT, SETBLK, TEARDOWN and GETBLK (44_lifecycle.md): the last one has the command's effect at its own
edge. -/

namespace Sys2Proof.Machine

/-! ## Commands without data bytes -/

/-- Command i takes its words, key words first if `kp`, and then has the effect `done`, which depends neither on the control
state in which the last word was taken nor on the edges to come. -/
structure TakesWords (i : Instr) (kp : Bool) (done : State → State) : Prop where
  idle : ∀ s : State, s.fsm = .idle → exec i s = .next (takeCommand i done s)
  args : ∀ s : State, 0 < nargs i → s.fsm = .args → exec i s = .next (takeArgument (storeInitArg kp) done s)
  blind : ∀ (ps qs : List PortIn) (f : Fsm) (s : State),
    facing ps (done (facing qs { s with fsm := f })) = facing ps (done s)

theorem init_takesWords (kp dp : Bool) : TakesWords (.init kp dp) kp (startInit kp dp) where
  idle s hf := by simp [exec, execInit, hf]
  args s _ hf := execInit_args kp dp hf
  blind ps qs f s := by cases kp <;> rfl

/-- Without a key every argument word goes to BLKBUF. -/
theorem storeInitArg_noKey (w : Word) (s : State) :
    storeInitArg false w s = { s with blkbuf := putWord s.blkbuf s.argi w } := by
  simp [storeInitArg, storeBlock]

/-- The argument words of a SETBLK go where those of an INIT without a key go. -/
theorem storeSetblkArg_eq : storeSetblkArg = storeInitArg false :=
  funext₂ fun w s => (storeInitArg_noKey w s).symm

theorem setblk_takesWords (ep dp : Bool) : TakesWords (.setblk ep dp) false (finishSetblk ep dp) where
  idle s hf := by simp [exec, execSetblk, hf]
  args s _ hf := by rw [execSetblk_args ep dp hf, storeSetblkArg_eq]
  blind ps qs f s := by cases ep <;> cases dp <;> rfl

theorem teardown_takesWords (ep : Bool) : TakesWords (.teardown ep) false (startTeardown ep) where
  idle s hf := by simp [exec, execTeardown, hf]
  args s hn _ := absurd hn (Nat.lt_irrefl 0)
  blind ps qs f s := by cases ep <;> rfl

theorem getblk_takesWords (ep : Bool) : TakesWords (.getblk ep) false (finishGetblk ep) where
  idle s hf := by simp [exec, execGetblk, hf]
  args s hn _ := absurd hn (Nat.lt_irrefl 0)
  blind ps qs f s := by cases ep <;> rfl

section LastWord

variable {i : Instr} {kp : Bool} {done : State → State} {s : State} {w : Word}

/-- A command word without argument words to come has the command's effect. -/
theorem TakesWords.exec_onlyWord (c : TakesWords i kp done) (hf : s.fsm = .idle) (hc : cmdIn s = some w)
    (hn : nargs i = 0) :
    exec i s = .next (done { s with cmd := instrCmd i, traffic := s.traffic ++ [.cmdIn w] }) := by
  rw [c.idle s hf, takeCommand_of_zero _ hc hn]
  rfl

/-- So does the last argument word. -/
theorem TakesWords.exec_lastArg (c : TakesWords i kp done) (hp : 0 < nargs i) (hf : s.fsm = .args)
    (hc : cmdIn s = some w) (hn : s.nargs ≤ 1) :
    exec i s = .next (done (note (.cmdIn w) { storeInitArg kp w s with nargs := 0, argi := 0 })) := by
  rw [c.args s hp hf, takeArgument_of_last _ _ hc hn]

end LastWord

/-! ## The last word of each command -/

/-- The response to an INIT without a key. -/
theorem responseWord_initNoKey : responseWord .ok 1#4 false false = 0x00000010#32 := rfl

/-- Settles O26: the last word, in IDLE or in ARGS, has the effect `startInit_noKey`. -/
theorem initWithoutKeyCompletes : Obligations.InitWithoutKeyCompletes := by
  constructor
  · intro s w hf hc
    rw [(init_takesWords false false).exec_onlyWord hf hc rfl, startInit_noKey, ← responseWord_initNoKey]
    rfl
  · intro s w hf hc hn hop
    rw [(init_takesWords false true).exec_lastArg (by decide) hf hc hn, storeInitArg_noKey, startInit_noKey,
      ← responseWord_initNoKey, ← hop]
    rfl

/-- Settles O27: the last word goes to KEYBUF or BLKBUF (`storeInitArg_cases`) and has the effect `startInit_key`, which
does not look at DP. -/
theorem initAsksForExpansion : Obligations.InitAsksForExpansion := by
  intro s w hf hc hn
  have edge (dp : Bool) : exec (.init true dp) s = .next (startInit true dp _) :=
    (init_takesWords true dp).exec_lastArg (by cases dp <;> decide) hf hc hn
  constructor
  · rw [edge, startInit_key]
    rcases storeInitArg_cases true w s with ⟨_, ha, stored⟩ | ⟨hb, stored⟩ <;> rw [stored]
    · simp [ha, note]
    · have ha : ¬ s.argi < 8 := fun ha => hb ⟨rfl, ha⟩
      simp [ha, note]
  · rw [edge, edge, startInit_key, startInit_key]

/-- Settles O30: the last block word completes BLKBUF, and `finishSetblk_present` moves it to CB. -/
theorem setblkReplacesBlock : Obligations.SetblkReplacesBlock := by
  intro s w hf hc hn
  rw [(setblk_takesWords true true).exec_lastArg (by decide) hf hc hn, storeInitArg_noKey,
      finishSetblk_present]
  rfl

/-- Settles O31: DP = 0 has no argument word, and EP = 0 with DP = 1 has four; both end in `finishSetblk_absent`. -/
theorem setblkAbsentArgumentFails : Obligations.SetblkAbsentArgumentFails := by
  constructor
  · intro ep s w hf hc
    rw [(setblk_takesWords ep false).exec_onlyWord hf hc rfl, finishSetblk_absent (Bool.and_false ep)]
    rfl
  · intro s w hf hc hn
    rw [(setblk_takesWords false true).exec_lastArg (by decide) hf hc hn, storeInitArg_noKey,
      finishSetblk_absent (Bool.false_and true)]
    rfl

/-- Settles O41: the command word is the last, and both effects are INVALID_ARG (`startTeardown_absent`,
`finishGetblk_absent`). -/
theorem absentEngineRejected : Obligations.AbsentEngineRejected := by
  intro s w hf hc
  rw [(teardown_takesWords false).exec_onlyWord hf hc rfl, startTeardown_absent,
    (getblk_takesWords false).exec_onlyWord hf hc rfl, finishGetblk_absent]
  exact ⟨rfl, rfl⟩

end Sys2Proof.Machine
end

section
/-! PROOFS. What follows the last word: the collaborator requests of INIT and TEARDOWN with their answers, and the read-back
words of GETBLK (44_lifecycle.md R192, R193, R213 to R215, R225). -/

namespace Sys2Proof.Machine

/-! ## Requests -/

theorem sendRequest_taken (taken : State → State) {s : State} {r : CphReq} (h : cipherReq s = some r) :
    sendRequest taken s = note (.cipherReq r) (taken { s with inflight := some r, fsm := .cphRsp r.op }) := by
  rw [sendRequest, h]

/-- Settles O28: the request on offer is KEYBUF, which is zeroed as it goes out. -/
theorem initHandsKeyOver : Obligations.InitHandsKeyOver := by
  intro kp dp s hr hf hy
  have sent : cipherReq s = some (.expand s.keybuf) := cipherReq_eq_some.mpr ⟨hr, hy, by simp [reqOffer, hf]⟩
  have edge : exec (.init kp dp) s = .next (sendRequest (fun t => { t with keybuf := zeroKey }) s) := by
    simp [exec, execInit, hf]
  rw [edge, sendRequest_taken _ sent]
  rfl

/-- Settles O39: the command word is the last (`startTeardown_present`), and the request on offer goes out as it is. -/
theorem teardownSendsWipe : Obligations.TeardownSendsWipe := by
  constructor
  · intro s w hf hc
    rw [(teardown_takesWords true).exec_onlyWord hf hc rfl, startTeardown_present]
    rfl
  · intro ep s hr hf hy
    have sent : cipherReq s = some .wipe := cipherReq_eq_some.mpr ⟨hr, hy, by simp [reqOffer, hf]⟩
    have edge : exec (.teardown ep) s = .next (sendRequest id s) := by simp [exec, execTeardown, hf]
    rw [edge, sendRequest_taken _ sent]
    rfl

/-! ## Answers -/

/-- The answer to the EXPAND request, with either error bit. -/
theorem execInit_answered (kp dp : Bool) {s : State} {key : Key} {r : CphRsp} (hr : s.pins.rstN = true)
    (hf : s.fsm = .cphRsp .expand) (hx : s.inflight = some (.expand key)) (ha : s.pins.cphRsp = some r) :
    exec (.init kp dp) s =
      .next (note (.cipherErr .expand r.err) (finishInit dp (keyExpanded r.err key { s with inflight := none }))) := by
  have taken : cipherRsp s = some r := cipherRsp_eq_some.mpr ⟨hr, takesCipherRsp_eq_true.mpr ⟨.expand, hf⟩, ha⟩
  have edge : exec (.init kp dp) s = .next (finishExpand dp s) := by simp [exec, execInit, hf]
  rw [edge, finishExpand, taken, hx]

/-- Settles O29: both error bits are the edge `execInit_answered`, its state written out by `finishInit_expanded`. -/
theorem initExpansionDecides : Obligations.InitExpansionDecides := by
  intro kp dp s key d hr hf hx
  constructor <;> intro ha <;> rw [execInit_answered kp dp hr hf hx ha, finishInit_expanded] <;> rfl

/-- Settles O40: the key is dropped, and the response names the error bit (`keyDropped_respond`). -/
theorem teardownReportsWipe : Obligations.TeardownReportsWipe := by
  intro ep err s d hr hf hx ha
  have taken : cipherRsp s = some ⟨err, d⟩ := cipherRsp_eq_some.mpr ⟨hr, takesCipherRsp_eq_true.mpr ⟨.wipe, hf⟩, ha⟩
  have edge : exec (.teardown ep) s = .next (finishWipe s) := by simp [exec, execTeardown, hf]
  rw [edge, finishWipe, taken, hx]
  cases err <;> rfl

/-! ## Read-back -/

/-- A read-back word taken: word 4 - RDBK of CB, and the last one ends in IDLE (30_encoding.md R82, R83). -/
theorem execGetblk_readBack (ep : Bool) {s : State} (hr : s.pins.rstN = true) (hf : s.fsm = .rdbk)
    (hy : s.pins.rspReady = true) :
    exec (.getblk ep) s = .next
      { s with
        rdbk := s.rdbk - 1, fsm := if s.rdbk ≤ 1 then .idle else .rdbk
        traffic := s.traffic ++ [.rspOut (getWord s.cb (4 - s.rdbk))] } := by
  have given : rspOut s = some (getWord s.cb (4 - s.rdbk)) := rspOut_eq_some.mpr ⟨hr, hy, by simp [rspOffer, hf]⟩
  have edge : exec (.getblk ep) s = .next (takeResponse s) := by simp [exec, execGetblk, hf]
  rw [edge, takeResponse, given]
  by_cases last : s.rdbk ≤ 1
  · have none_left : s.rdbk - 1 = 0 := by omega
    simp [hf, last, none_left, note]
  · simp [hf, last, note]

/-- Settles O42: the command word is the last (`finishGetblk_present`), and each read-back word is `execGetblk_readBack`. -/
theorem getblkReadsCounterBlock : Obligations.GetblkReadsCounterBlock := by
  refine ⟨fun s w hf hc => ?_, fun s hr hf hy hn => ?_, fun s hr hf hy hn => ?_⟩
  · rw [(getblk_takesWords true).exec_onlyWord hf hc rfl, finishGetblk_present]
    rfl
  · rw [execGetblk_readBack true hr hf hy, if_neg hn.not_ge, ← hf]
    rfl
  · rw [execGetblk_readBack true hr hf hy, hn]
    rfl

end Sys2Proof.Machine
end

section
/-! PROOFS. Whole INIT, SETBLK, TEARDOWN and GETBLK commands in an environment that answers at once (44_lifecycle.md R190 to
R226): their words, what follows them, and the response. -/

namespace Sys2Proof.Machine

/-! ## The words of a whole command -/

/-- Argument words taken from word ARGI on: key words to KEYBUF while there are any, then block words to BLKBUF
(30_encoding.md R78, R79). -/
def afterWords (kp : Bool) (ws : List Word) (s : State) : State :=
  { s with
    keybuf := putWords s.keybuf s.argi (ws.take (8 * kp.toNat - s.argi))
    blkbuf := putWords s.blkbuf (s.argi - 8 * kp.toNat) (ws.drop (8 * kp.toNat - s.argi))
    nargs := 0, argi := 0, traffic := s.traffic ++ ws.map .cmdIn }

theorem afterWords_nil (kp : Bool) (s : State) : afterWords kp [] s = { s with nargs := 0, argi := 0 } := by
  simp [afterWords, putWords]

/-- The state after one argument word with more to come. -/
def storeWord (kp : Bool) (w : Word) (s : State) : State :=
  note (.cmdIn w) { storeInitArg kp w s with nargs := s.nargs - 1, argi := s.argi + 1 }

theorem storeWord_keeps (kp : Bool) (w : Word) (s : State) :
    (storeWord kp w s).fsm = s.fsm ∧ (storeWord kp w s).cmd = s.cmd := by
  rcases storeInitArg_cases kp w s with ⟨_, _, stored⟩ | ⟨_, stored⟩ <;> rw [storeWord, stored] <;> exact ⟨rfl, rfl⟩

/-- The first argument word stored, then the others: a key word while ARGI is below the number of key words, else a block
word. -/
theorem afterWords_cons (kp : Bool) (w : Word) (ws : List Word) (s : State) :
    afterWords kp (w :: ws) s = afterWords kp ws (storeWord kp w s) := by
  rcases storeInitArg_cases kp w s with ⟨rfl, ha, stored⟩ | ⟨hb, stored⟩ <;> rw [storeWord, stored]
  · obtain ⟨d, keyWords⟩ : ∃ d, 8 - s.argi = d + 1 := ⟨7 - s.argi, by omega⟩
    have fewer : 8 - (s.argi + 1) = d := by omega
    have noBlockWord : s.argi - 8 = 0 ∧ s.argi + 1 - 8 = 0 := by omega
    simp [afterWords, note, putWords, keyWords, fewer, noBlockWord]
  · have past : 8 * kp.toNat ≤ s.argi := by
      cases kp with
      | true => exact not_lt.mp fun ha => hb ⟨rfl, ha⟩
      | false => exact Nat.zero_le _
    have noKeyWord : 8 * kp.toNat - s.argi = 0 ∧ 8 * kp.toNat - (s.argi + 1) = 0 := by omega
    have next : s.argi + 1 - 8 * kp.toNat = s.argi - 8 * kp.toNat + 1 := by omega
    simp [afterWords, note, putWords, noKeyWord, next]

/-- The last argument word. -/
theorem afterWords_single (kp : Bool) (w : Word) (s : State) :
    afterWords kp [w] s = note (.cmdIn w) { storeInitArg kp w s with nargs := 0, argi := 0 } := by
  rw [afterWords_cons, afterWords_nil]
  rfl

theorem putWords_keyArgs (b : Key) (key : Option Key) : putWords b 0 (keyArgs key) = key.getD b := by
  cases key with
  | none => rfl
  | some k => exact putWords_getWords b k (count := 8) rfl

theorem putWords_blockArgs (b : Block) (block : Option Block) : putWords b 0 (blockArgs block) = block.getD b := by
  cases block with
  | none => rfl
  | some c => exact putWords_getWords b c (count := 4) rfl

/-- The state in which all words of command i are stored, its key and its block among them where they are present. -/
def withArgs (i : Instr) (key : Option Key) (block : Option Block) (s : State) : State :=
  { s with
    cmd := instrCmd i, keybuf := key.getD s.keybuf, blkbuf := block.getD s.blkbuf, nargs := 0, argi := 0, fsm := .args
    traffic := s.traffic ++ (encode i :: (keyArgs key ++ blockArgs block)).map .cmdIn }

theorem afterWords_latched (i : Instr) (key : Option Key) (block : Option Block) (s : State) :
    afterWords key.isSome (keyArgs key ++ blockArgs block) (latched i s) = withArgs i key block s := by
  have keyWords : (keyArgs key ++ blockArgs block).take (8 * key.isSome.toNat - 0) = keyArgs key :=
    List.take_left' (length_keyArgs key)
  have blockWords : (keyArgs key ++ blockArgs block).drop (8 * key.isSome.toNat - 0) = blockArgs block :=
    List.drop_left' (length_keyArgs key)
  simp only [afterWords, latched, Nat.zero_sub, keyWords, blockWords, putWords_keyArgs, putWords_blockArgs]
  simp [withArgs]

section Words

variable {i : Instr} {kp : Bool} {done : State → State} {ws : List Word} {ps : List PortIn} {s : State}

/-- The argument words, one at each edge. -/
theorem TakesWords.run_args (c : TakesWords i kp done) (hp : 0 < nargs i) (hw : ws ≠ [])
    (h : Faces (ws.map offerWord ++ ps) s) (hf : s.fsm = .args) (hc : s.cmd = instrCmd i) (hn : s.nargs = ws.length) :
    run (ws.map offerWord).length s = .next (facing ps (done (afterWords kp ws s))) := by
  induction ws generalizing s with
  | nil => exact absurd rfl hw
  | cons w ws ih =>
    have takes : takesWord s.fsm = true := takesWord_eq_true.mpr (.inr hf)
    have taken := h.cmdIn_eq takes
    have first := step_of_accepts h (accepts_word takes w)
      ((engineEdge_of_cmd (by simp [hf]) hc).trans (c.args s hp hf))
    cases ws with
    | nil =>
      rw [takeArgument_of_last _ _ taken hn.le, ← afterWords_single] at first
      exact run_edge (offerWord w) first
    | cons w' ws =>
      rw [takeArgument_of_more _ _ taken (by simp [hn]), ← storeWord] at first
      obtain ⟨fsm, cmd⟩ := storeWord_keeps kp w s
      have others := ih (by simp) (faces_facing ((w' :: ws).map offerWord ++ ps) (storeWord kp w s))
        (fsm.trans hf) (cmd.trans hc) (by simp [facing, storeWord, hn])
      have unseen := c.blind ps ((w' :: ws).map offerWord ++ ps) (storeWord kp w s).fsm
        (afterWords kp (w' :: ws) (storeWord kp w s))
      rw [afterWords_cons kp w, ← unseen]
      exact (run_succ_of_step first _).trans others

/-- A command word without argument words. -/
theorem TakesWords.step_onlyWord (c : TakesWords i kp done) (hn : nargs i = 0)
    (h : Faces (offerWord (encode i) :: ps) s) (hf : s.fsm = .idle) :
    step s = .next (facing ps (done { s with cmd := instrCmd i, traffic := s.traffic ++ [.cmdIn (encode i)] })) := by
  have takes : takesWord s.fsm = true := takesWord_eq_true.mpr (.inl hf)
  have taken := h.cmdIn_eq takes
  have run_i : work s = .run i := by simp [work, hf, taken, decode_encode]
  exact step_of_accepts h (accepts_word takes _) ((engineEdge_of_run run_i).trans (c.exec_onlyWord hf taken hn))

/-- All words of a command: its effect happens on the state in which they are stored. -/
theorem TakesWords.run_words (c : TakesWords i kp done) (h : Ready s) (hn : nargs i = ws.length)
    (hi : s.inputs = (encode i :: ws).map offerWord ++ ps) :
    run ((encode i :: ws).map offerWord).length s =
      .next (facing ps (done (afterWords kp ws (latched i s)))) := by
  cases ws with
  | nil =>
    have command := c.step_onlyWord hn ⟨hi, h.noWord, h.noByte⟩ h.idle
    have due := h.inv.due (by simp [h.idle])
    have same : { s with cmd := instrCmd i, traffic := s.traffic ++ [.cmdIn (encode i)] } =
        facing s.inputs { afterWords kp [] (latched i s) with fsm := .idle } := by
      rw [afterWords_nil]
      simp [facing, latched, h.idle, h.noWord, h.noByte, due]
    rw [same, c.blind] at command
    exact run_edge _ command
  | cons w ws =>
    have positive : 0 < nargs i := by simp [hn]
    have command := step_commandWord ⟨hi, h.noWord, h.noByte⟩ h.idle positive
    have others := c.run_args positive (by simp) (faces_facing ((w :: ws).map offerWord ++ ps) (latched i s)) rfl rfl hn
    have unseen := c.blind ps ((w :: ws).map offerWord ++ ps) .args (afterWords kp (w :: ws) (latched i s))
    rw [← unseen]
    exact (run_succ_of_step command _).trans others

/-- All words of a command that may have a key and a block. -/
theorem TakesWords.run_command {key : Option Key} (c : TakesWords i key.isSome done) (block : Option Block)
    (h : Ready s) (hn : nargs i = (keyArgs key ++ blockArgs block).length)
    (hi : s.inputs = (encode i :: (keyArgs key ++ blockArgs block)).map offerWord ++ ps) :
    run ((encode i :: (keyArgs key ++ blockArgs block)).map offerWord).length s =
      .next (facing ps (done (withArgs i key block s))) := by
  rw [c.run_words h hn hi, afterWords_latched]

end Words

/-! ## The response of a whole command -/

/-- The state after the host has taken a response without read-back (30_encoding.md R83). -/
def responseTaken (s : State) : State :=
  { s with rsp := 0#32, fsm := .idle, traffic := s.traffic ++ [.rspOut s.rsp] }

/-- A command from a ready engine up to its response, and the response: the engine is ready again. -/
theorem Ready.run_response {es rest : List PortIn} {s t : State} {code : Code} {op : BitVec 4} {kv kx : Bool}
    {tr : List Transfer} (h : Ready s) (hrun : run es.length s = .next (facing (rspEdge :: rest) t)) (hf : t.fsm = .resp)
    (hr : t.rsp = responseWord code op kv kx) (hb : code ≠ .ok ∨ t.cmd.op ≠ 5#4) (ht : t.traffic = s.traffic ++ tr) :
    run (es ++ [rspEdge]).length s = .next (facing rest (responseTaken t)) ∧
      Ready (facing rest (responseTaken t)) ∧
      (facing rest (responseTaken t)).traffic = s.traffic ++ (tr ++ [.rspOut (responseWord code op kv kx)]) := by
  have noReadBack : readsBack (facing (rspEdge :: rest) t) = false := readsBack_eq_false hr hb
  have whole := run_append hrun (run_edge rspEdge (step_answered (faces_facing _ t) hf noReadBack))
  refine ⟨whole, ⟨run_keeps_inv h.inv whole, rfl, rfl, rfl⟩, ?_⟩
  rw [← hr, ← List.append_assoc, ← ht]
  rfl

/-! ## What the ports moved -/

@[simp] theorem records_words (ws : List Word) : requests (ws.map .cmdIn) = [] ∧ rspOuts (ws.map .cmdIn) = [] := by
  simp [requests, rspOuts]

theorem rspOuts_given (ws : List Word) : rspOuts (ws.map .rspOut) = ws := by
  simp [rspOuts]

@[simp] theorem records_cipherErr (op : CipherOp) (err : Bool) (tr : List Transfer) :
    dataIns (.cipherErr op err :: tr) = dataIns tr ∧ dataOuts (.cipherErr op err :: tr) = dataOuts tr ∧
      rspOuts (.cipherErr op err :: tr) = rspOuts tr ∧ requests (.cipherErr op err :: tr) = requests tr ∧
      blocks (.cipherErr op err :: tr) = blocks tr :=
  ⟨rfl, rfl, rfl, rfl, rfl⟩

/-! ## SETBLK -/

theorem finishSetblk_eq (ep dp : Bool) (s : State) :
    finishSetblk ep dp s =
      { s with
        cb := if ep && dp then s.blkbuf else s.cb
        rsp := responseWord (if ep && dp then .ok else .invalidArg) s.cmd.op s.keyValid s.kxErr
        fsm := .resp } := by
  cases hp : ep && dp with
  | true =>
    obtain ⟨rfl, rfl⟩ := Bool.and_eq_true_iff.mp hp
    exact finishSetblk_present s
  | false => exact finishSetblk_absent hp s

/-- Settles O58: the words (`TakesWords.run_command`), the effect `finishSetblk`, and the response. -/
theorem setblkRunsToNewBlock : Obligations.SetblkRunsToNewBlock := by
  intro s ep block draws rest h hi
  have edges : promptEdges (.setblk ep block) [] false draws =
      (encode (.setblk ep block.isSome) :: (keyArgs none ++ blockArgs block)).map offerWord ++ [rspEdge] := rfl
  rw [edges, List.append_assoc] at hi
  have words := (setblk_takesWords ep block.isSome).run_command (key := none) block h
    (length_args (.setblk ep block)).symm hi
  rw [finishSetblk_eq] at words
  obtain ⟨whole, ready, traffic⟩ := h.run_response words rfl rfl (.inr (show 2#4 ≠ 5#4 by decide)) rfl
  rw [edges]
  refine ⟨_, _, whole, ready, rfl, ?_, rfl, rfl, rfl, traffic, ?_, ?_⟩
  · cases ep <;> cases block <;> rfl
  · simp
  · simp [withArgs, instrCmd, Instr.fields]

/-! ## A collaborator request and its answer -/

/-- The collaborator takes the request of command i, which leads to t, and answers it, which leads to u. -/
theorem run_exchange {i : Instr} {op : CipherOp} {s t u : State} {err : Bool} {d : BitVec 128} {ps : List PortIn}
    (hf : s.fsm = .cphReq op) (hc : s.cmd = instrCmd i)
    (request : exec i (facing (reqEdge :: ansEdge err d :: ps) s) = .next t)
    (hft : t.fsm = .cphRsp op) (hct : t.cmd = s.cmd) (hx : t.inflight ≠ none)
    (answer : exec i (facing (ansEdge err d :: ps) t) = .next u) :
    run [reqEdge, ansEdge err d].length (facing (reqEdge :: ansEdge err d :: ps) s) = .next (facing ps u) := by
  have asking : engineEdge (facing (reqEdge :: ansEdge err d :: ps) s) = .next t :=
    (engineEdge_of_cmd (s := facing _ s) (by simp [facing, hf]) hc).trans request
  have waiting : engineEdge (facing (ansEdge err d :: ps) t) = .next u :=
    (engineEdge_of_cmd (s := facing _ t) (by simp [facing, hft]) (hct.trans hc)).trans answer
  have sent := step_of_accepts (faces_facing _ s) ⟨rfl, .inl rfl, .inl rfl, .inl rfl⟩ asking
  have answered := step_of_accepts (faces_facing _ t) ⟨rfl, .inl rfl, .inl rfl, .inr hx⟩ waiting
  exact (run_succ_of_step sent 1).trans (run_succ_of_step answered 0)

/-! ## INIT -/

/-- The state after an INIT's EXPAND request and its answer (R192, R193). -/
def afterExpansion (dp err : Bool) (s : State) : State :=
  { s with
    keyValid := !err
    kxErr := if err then true else s.kxErr
    sched := if err then none else some (Config.expandKey s.keybuf)
    cb := if dp then s.blkbuf else zeroBlock
    ks := zeroBlock, j := 16#5, i := 0#32
    keybuf := zeroKey
    inflight := none
    rsp := responseWord .ok s.cmd.op (!err) (if err then true else s.kxErr)
    fsm := .resp
    traffic := s.traffic ++ [.cipherReq (.expand s.keybuf), .cipherErr .expand err] }

theorem run_expansion {s : State} {kp dp : Bool} (hf : s.fsm = .cphReq .expand) (hc : s.cmd = instrCmd (.init kp dp))
    (err : Bool) (d : BitVec 128) (ps : List PortIn) :
    run [reqEdge, ansEdge err d].length (facing (reqEdge :: ansEdge err d :: ps) s) =
      .next (facing ps (afterExpansion dp err s)) := by
  have request := initHandsKeyOver kp dp (facing (reqEdge :: ansEdge err d :: ps) s) rfl hf rfl
  have exchanged := run_exchange hf hc request rfl rfl (Option.some_ne_none _) (execInit_answered kp dp rfl rfl rfl rfl)
  rw [exchanged, finishInit_expanded]
  simp [afterExpansion, facing, note]

/-- Settles O57: the words (`TakesWords.run_command`); without a key they end the command (`startInit_noKey`), with one the
expansion does (`run_expansion`); then the response. -/
theorem initRunsToKeyState : Obligations.InitRunsToKeyState := by
  intro s key block err draws rest h hi
  have length := (length_args (.init key block)).symm
  cases key with
  | none =>
    have edges : promptEdges (.init none block) [] err draws =
        (encode (.init false block.isSome) :: (keyArgs none ++ blockArgs block)).map offerWord ++ [rspEdge] := rfl
    rw [edges, List.append_assoc] at hi
    have words := (init_takesWords false block.isSome).run_command (key := none) block h length hi
    rw [startInit_noKey] at words
    obtain ⟨whole, ready, traffic⟩ := h.run_response words rfl rfl (.inr (show 1#4 ≠ 5#4 by decide)) rfl
    rw [edges]
    refine ⟨_, _, whole, ready, rfl, ?_, rfl, rfl, ?_, traffic, ?_, ?_⟩
    · cases block <;> rfl
    · cases err <;> rfl
    · simp
    · simp [withArgs, instrCmd, Instr.fields]
  | some k =>
    have edges : promptEdges (.init (some k) block) [] err draws =
        (encode (.init true block.isSome) :: (keyArgs (some k) ++ blockArgs block)).map offerWord ++
          [reqEdge, ansEdge err (draws 0)] ++ [rspEdge] := by
      simp [promptEdges, assemble, Command.instr, Command.args]
    rw [edges, List.append_assoc, List.append_assoc] at hi
    have words := (init_takesWords true block.isSome).run_command (key := some k) block h length hi
    rw [startInit_key] at words
    have expanded := run_append words
      (run_expansion (kp := true) (dp := block.isSome) rfl rfl err (draws 0) (rspEdge :: rest))
    obtain ⟨whole, ready, traffic⟩ := h.run_response expanded rfl rfl (.inr (show 1#4 ≠ 5#4 by decide))
      (List.append_assoc _ _ _)
    rw [edges]
    refine ⟨_, _, whole, ready, rfl, ?_, rfl, ?_, ?_, traffic, ?_, ?_⟩
    · cases block <;> rfl
    · cases err <;> rfl
    · cases err <;> rfl
    · simp [withArgs]
    · simp [withArgs, instrCmd, Instr.fields]

/-! ## TEARDOWN -/

/-- The state after a TEARDOWN's WIPE request and its answer (R213 to R215). -/
def afterWipe (err : Bool) (s : State) : State :=
  { s with
    keyValid := false, sched := none, inflight := none
    rsp := responseWord (if err then .wipeFailed else .ok) s.cmd.op false s.kxErr
    fsm := .resp
    traffic := s.traffic ++ [.cipherReq .wipe, .cipherErr .wipe err] }

theorem run_wipe {s : State} (hf : s.fsm = .cphReq .wipe) (hc : s.cmd = instrCmd (.teardown true)) (err : Bool)
    (d : BitVec 128) (ps : List PortIn) :
    run [reqEdge, ansEdge err d].length (facing (reqEdge :: ansEdge err d :: ps) s) =
      .next (facing ps (afterWipe err s)) := by
  obtain ⟨_, sends⟩ := teardownSendsWipe
  have request := sends true (facing (reqEdge :: ansEdge err d :: ps) s) rfl hf rfl
  have exchanged := run_exchange hf hc request rfl rfl (Option.some_ne_none _)
    (teardownReportsWipe true err _ d rfl rfl rfl rfl)
  rw [exchanged]
  simp [afterWipe, facing]

/-- Settles O59: without an engine the command word ends the command (`startTeardown_absent`), with one the wipe does
(`run_wipe`); then the response. -/
theorem teardownRunsToUnkeyed : Obligations.TeardownRunsToUnkeyed := by
  intro s ep err draws rest h hi
  cases ep with
  | false =>
    have edges : promptEdges (.teardown false) [] err draws =
        (encode (.teardown false) :: (keyArgs none ++ blockArgs none)).map offerWord ++ [rspEdge] := rfl
    rw [edges, List.append_assoc] at hi
    have words := (teardown_takesWords false).run_command (key := none) none h rfl hi
    rw [startTeardown_absent] at words
    obtain ⟨whole, ready, traffic⟩ := h.run_response words rfl rfl (.inr (show 4#4 ≠ 5#4 by decide)) rfl
    rw [edges]
    refine ⟨_, _, whole, ready, rfl, rfl, rfl, (Bool.and_true _).symm, rfl, traffic, by simp, ?_⟩
    simp [withArgs, instrCmd, Instr.fields]
  | true =>
    have edges : promptEdges (.teardown true) [] err draws =
        (encode (.teardown true) :: (keyArgs none ++ blockArgs none)).map offerWord ++
          [reqEdge, ansEdge err (draws 0)] ++ [rspEdge] := rfl
    rw [edges, List.append_assoc, List.append_assoc] at hi
    have words := (teardown_takesWords true).run_command (key := none) none h rfl hi
    rw [startTeardown_present] at words
    have wiped := run_append words (run_wipe rfl rfl err (draws 0) (rspEdge :: rest))
    obtain ⟨whole, ready, traffic⟩ := h.run_response wiped rfl rfl (.inr (show 4#4 ≠ 5#4 by decide))
      (List.append_assoc _ _ _)
    rw [edges]
    refine ⟨_, _, whole, ready, rfl, rfl, rfl, (Bool.and_false _).symm, rfl, traffic, by simp, ?_⟩
    simp [withArgs, instrCmd, Instr.fields]

/-! ## GETBLK -/

/-- The response of a command with read-back (30_encoding.md R83). -/
theorem step_readBackBegins {ps : List PortIn} {s : State} (h : Faces (rspEdge :: ps) s) (hf : s.fsm = .resp)
    (hb : readsBack s = true) :
    step s =
      .next (facing ps { s with rsp := 0#32, rdbk := 4, fsm := .rdbk, traffic := s.traffic ++ [.rspOut s.rsp] }) := by
  have edge : engineEdge s =
      .next { s with rsp := 0#32, rdbk := 4, fsm := .rdbk, traffic := s.traffic ++ [.rspOut s.rsp] } := by
    rw [engineEdge_resp hf, takeResponse_resp (by rw [h.pins_eq]; rfl) hf (by rw [h.pins_eq]; rfl), if_pos hb]
  exact step_of_accepts h ⟨rfl, .inl rfl, .inl rfl, .inl rfl⟩ edge

/-- A read-back word taken by the host. -/
theorem step_readBackWord {ps : List PortIn} {s : State} (h : Faces (rspEdge :: ps) s) (hf : s.fsm = .rdbk)
    (hc : s.cmd = instrCmd (.getblk true)) :
    step s = .next (facing ps
      { s with
        rdbk := s.rdbk - 1, fsm := if s.rdbk ≤ 1 then .idle else .rdbk
        traffic := s.traffic ++ [.rspOut (getWord s.cb (4 - s.rdbk))] }) := by
  have edge := execGetblk_readBack true (by rw [h.pins_eq]; rfl) hf (by rw [h.pins_eq]; rfl)
  exact step_of_accepts h ⟨rfl, .inl rfl, .inl rfl, .inl rfl⟩ ((engineEdge_of_cmd (by simp [hf]) hc).trans edge)

/-- The last n + 1 read-back words, down to RDBK = 0. -/
theorem run_readBack {n : Nat} {s : State} (hf : s.fsm = .rdbk) (hc : s.cmd = instrCmd (.getblk true))
    (hn : s.rdbk = n + 1) (ps : List PortIn) :
    run (List.replicate (n + 1) rspEdge).length (facing (List.replicate (n + 1) rspEdge ++ ps) s) =
      .next (facing ps
        { s with
          rdbk := 0, fsm := .idle
          traffic := s.traffic ++ (List.range (n + 1)).reverse.map fun m => .rspOut (getWord s.cb (4 - (m + 1))) }) := by
  induction n generalizing s with
  | zero =>
    have last := step_readBackWord (faces_facing (rspEdge :: ps) s) hf hc
    have one : (facing (rspEdge :: ps) s).rdbk = 1 := hn
    rw [one] at last
    exact run_edge rspEdge last
  | succ n ih =>
    have first := step_readBackWord (faces_facing (rspEdge :: (List.replicate (n + 1) rspEdge ++ ps)) s) hf hc
    have many : (facing (rspEdge :: (List.replicate (n + 1) rspEdge ++ ps)) s).rdbk = n + 1 + 1 := hn
    rw [many, if_neg (by omega)] at first
    have others := ih (s := { s with
      rdbk := n + 1, fsm := .rdbk, traffic := s.traffic ++ [.rspOut (getWord s.cb (4 - (n + 1 + 1)))] }) rfl hc rfl
    rw [List.range_succ, List.reverse_append]
    simp only [List.append_assoc] at others
    exact (run_succ_of_step first _).trans others

/-- The state after a GETBLK's OK response and its read-back words (30_encoding.md R82, R83). -/
def readBackTaken (s : State) : State :=
  { s with
    rsp := 0#32, rdbk := 0, fsm := .idle
    traffic := s.traffic ++ .rspOut s.rsp :: (getWords s.cb 4).map .rspOut }

theorem run_readBackResponse {s : State} {op : BitVec 4} {kv kx : Bool} (hf : s.fsm = .resp)
    (hc : s.cmd = instrCmd (.getblk true)) (hr : s.rsp = responseWord .ok op kv kx) (ps : List PortIn) :
    run (rspEdge :: List.replicate 4 rspEdge).length (facing (rspEdge :: (List.replicate 4 rspEdge ++ ps)) s) =
      .next (facing ps (readBackTaken s)) := by
  have ok : s.rsp.extractLsb' 0 4 = 0#4 := by rw [hr, responseWord_status]
  have more : readsBack (facing (rspEdge :: (List.replicate 4 rspEdge ++ ps)) s) = true :=
    (readsBack_iff _).mpr ⟨congrArg CmdReg.op hc, ok⟩
  have response := step_readBackBegins (faces_facing _ s) hf more
  have words := run_readBack (n := 3)
    (s := { s with rsp := 0#32, rdbk := 4, fsm := .rdbk, traffic := s.traffic ++ [.rspOut s.rsp] }) rfl hc rfl ps
  simp only [List.append_assoc] at words
  exact (run_succ_of_step response 4).trans words

/-- Settles O60: without an engine the command word ends the command (`finishGetblk_absent`), with one read-back follows
(`run_readBackResponse`); in both cases what was 0 in IDLE is 0 again. -/
theorem getblkRunsToReadBack : Obligations.GetblkRunsToReadBack := by
  intro s ep draws rest h hi
  have noArgs := h.inv.due (by simp [h.idle])
  have noResponse := h.inv.pending (by simp [h.idle])
  have noReadBack := h.inv.readBack (by simp [h.idle])
  cases ep with
  | false =>
    have edges : promptEdges (.getblk false) [] false draws =
        (encode (.getblk false) :: (keyArgs none ++ blockArgs none)).map offerWord ++ [rspEdge] := rfl
    rw [edges, List.append_assoc] at hi
    have words := (getblk_takesWords false).run_command (key := none) none h rfl hi
    rw [finishGetblk_absent] at words
    obtain ⟨whole, ready, traffic⟩ := h.run_response words rfl rfl (.inl (by decide)) rfl
    rw [edges]
    refine ⟨_, whole, ready, ?_, _, traffic, ?_⟩
    · simp [responseTaken, facing, withArgs, instrCmd, Instr.fields, h.idle, h.noWord, h.noByte, noArgs, noResponse]
    · simp [withArgs, instrCmd, Instr.fields]
  | true =>
    have edges : promptEdges (.getblk true) [] false draws =
        (encode (.getblk true) :: (keyArgs none ++ blockArgs none)).map offerWord ++
          rspEdge :: List.replicate 4 rspEdge := rfl
    rw [edges, List.append_assoc] at hi
    have words := (getblk_takesWords true).run_command (key := none) none h rfl hi
    rw [finishGetblk_present] at words
    have whole := run_append words (run_readBackResponse rfl rfl rfl rest)
    rw [edges]
    refine ⟨_, whole, ⟨run_keeps_inv h.inv whole, rfl, rfl, rfl⟩, ?_, _, List.append_assoc _ _ _, ?_⟩
    · simp [readBackTaken, facing, withArgs, instrCmd, Instr.fields, h.idle, h.noWord, h.noByte, noArgs, noResponse,
        noReadBack]
    · have given : rspOuts ((getWords s.cb 4).map .rspOut) =
          [getWord s.cb 0, getWord s.cb 1, getWord s.cb 2, getWord s.cb 3] := rspOuts_given _
      simp [withArgs, instrCmd, Instr.fields, given]

end Sys2Proof.Machine
end

section
/-! PROOFS. No secret decides anything (60_exceptions.md R253): operation by operation, two states that differ only in secrets
go on to states that differ only in secrets. -/

namespace Sys2Proof.Machine

/-- The operation takes states that differ only in secrets to states that differ only in secrets. -/
def HidesSecrets (f : State → State) : Prop :=
  ∀ ⦃s t : State⦄, SameButSecrets s t → SameButSecrets (f s) (f t)

/-- Two optional values with one public part: both absent, or both there. -/
theorem map_eq_map_cases {α β : Type} {f : α → β} {a b : Option α} (h : a.map f = b.map f) :
    (a = none ∧ b = none) ∨ ∃ x y, a = some x ∧ b = some y ∧ f x = f y := by
  cases a <;> cases b <;> simp_all

/-! ## What the ports move -/

section Ports

variable {s t : State}

/-- The input ports without keystream are the head of the inputs without keystream. -/
theorem publicPins_pins (s : State) : publicPins s.pins = (s.inputs.map publicPins).headD PortIn.quiet := by
  unfold State.pins
  cases s.inputs <;> rfl

theorem SameButSecrets.pins_public (h : SameButSecrets s t) : publicPins s.pins = publicPins t.pins := by
  rw [publicPins_pins, publicPins_pins, h.inputs]

theorem SameButSecrets.rstN_eq (h : SameButSecrets s t) : s.pins.rstN = t.pins.rstN :=
  (congrArg PortIn.rstN h.pins_public :)

theorem SameButSecrets.cmd_offered_eq (h : SameButSecrets s t) : s.pins.cmd = t.pins.cmd :=
  (congrArg PortIn.cmd h.pins_public :)

theorem SameButSecrets.rspReady_eq (h : SameButSecrets s t) : s.pins.rspReady = t.pins.rspReady :=
  (congrArg PortIn.rspReady h.pins_public :)

theorem SameButSecrets.din_offered_eq (h : SameButSecrets s t) : s.pins.din = t.pins.din :=
  (congrArg PortIn.din h.pins_public :)

theorem SameButSecrets.doutReady_eq (h : SameButSecrets s t) : s.pins.doutReady = t.pins.doutReady :=
  (congrArg PortIn.doutReady h.pins_public :)

theorem SameButSecrets.cphReqReady_eq (h : SameButSecrets s t) : s.pins.cphReqReady = t.pins.cphReqReady :=
  (congrArg PortIn.cphReqReady h.pins_public :)

/-- Of an answer on offer only the data lines are secret. -/
theorem SameButSecrets.answer_offered_public (h : SameButSecrets s t) :
    s.pins.cphRsp.map CphRsp.err = t.pins.cphRsp.map CphRsp.err := by
  have offered := congrArg (fun p => p.cphRsp.map CphRsp.err) h.pins_public
  simpa only [publicPins, Option.map_map, Function.comp_def] using offered

/-- The word offered is RSP or a word of CB, and neither is secret. -/
theorem SameButSecrets.rspOffer_eq (h : SameButSecrets s t) : rspOffer s = rspOffer t := by
  unfold rspOffer
  rw [h.fsm, h.rsp, h.cb, h.rdbk]

/-- Of the request offered only the key is secret. -/
theorem SameButSecrets.reqOffer_public (h : SameButSecrets s t) :
    (reqOffer s).map publicReq = (reqOffer t).map publicReq := by
  unfold reqOffer
  rw [h.fsm, h.cb]
  split <;> rfl

/-- The output ports without key or data-out byte, as `publicPins` for the input ports. -/
def publicPorts (p : PortOut) : PortOut :=
  { p with dout := p.dout.map fun _ => 0#8, cphReq := p.cphReq.map publicReq }

/-- The engine drives its ports alike but for the data-out byte and a key on its way to the collaborator. -/
theorem SameButSecrets.ports_public (h : SameButSecrets s t) : publicPorts s.ports = publicPorts t.ports := by
  unfold State.ports
  rw [h.rstN_eq, h.fsm, h.rspOffer_eq]
  split
  · simp only [publicPorts, h.reqOffer_public]
    split <;> rfl
  · rfl

theorem SameButSecrets.cmdIn_eq (h : SameButSecrets s t) : cmdIn s = cmdIn t := by
  have ready : s.ports.cmdReady = t.ports.cmdReady := (congrArg PortOut.cmdReady h.ports_public :)
  rw [cmdIn, cmdIn, ready, h.cmd_offered_eq]

theorem SameButSecrets.rspOut_eq (h : SameButSecrets s t) : rspOut s = rspOut t := by
  have offer : s.ports.rsp = t.ports.rsp := (congrArg PortOut.rsp h.ports_public :)
  rw [rspOut, rspOut, h.rspReady_eq, offer]

theorem SameButSecrets.dataIn_eq (h : SameButSecrets s t) : dataIn s = dataIn t := by
  have ready : s.ports.dinReady = t.ports.dinReady := (congrArg PortOut.dinReady h.ports_public :)
  rw [dataIn, dataIn, ready, h.din_offered_eq]

/-- A data byte is given in both states or in neither. -/
theorem SameButSecrets.dataOut_public (h : SameButSecrets s t) :
    (dataOut s).map (fun _ => 0#8) = (dataOut t).map fun _ => 0#8 := by
  have offer := congrArg PortOut.dout h.ports_public
  rw [dataOut, dataOut, h.doutReady_eq]
  split_ifs
  · exact offer
  · rfl

theorem SameButSecrets.cipherReq_public (h : SameButSecrets s t) :
    (cipherReq s).map publicReq = (cipherReq t).map publicReq := by
  have offer := congrArg PortOut.cphReq h.ports_public
  rw [cipherReq, cipherReq, h.cphReqReady_eq]
  split_ifs
  · exact offer
  · rfl

theorem SameButSecrets.cipherRsp_public (h : SameButSecrets s t) :
    (cipherRsp s).map CphRsp.err = (cipherRsp t).map CphRsp.err := by
  have ready : s.ports.cphRspReady = t.ports.cphRspReady := (congrArg PortOut.cphRspReady h.ports_public :)
  rw [cipherRsp, cipherRsp, ready]
  split_ifs
  · exact h.answer_offered_public
  · rfl

end Ports

/-! ## The shared operations -/

theorem SameButSecrets.after_note {s t : State} {x y : Transfer} (h : SameButSecrets s t)
    (hx : publicTransfer x = publicTransfer y) : SameButSecrets (note x s) (note y t) :=
  { h with traffic := by simp [h.traffic, hx] }

theorem hidesSecrets_note (x : Transfer) : HidesSecrets (note x) :=
  fun _ _ h => h.after_note rfl

/-- The response word is made of CMD.OP and the two flags. -/
theorem hidesSecrets_respond (c : Code) : HidesSecrets (respond c) := fun s t h =>
  { h with
    fsm := rfl
    rsp := show response c s = response c t by rw [response, response, h.cmd, h.keyValid, h.kxErr] }

theorem hidesSecrets_raise (c : Code) : HidesSecrets (raise c) :=
  hidesSecrets_respond c

theorem hidesSecrets_clearPath : HidesSecrets clearPath :=
  fun _ _ h => { h with j := rfl, i := rfl }

theorem hidesSecrets_keyDropped : HidesSecrets keyDropped :=
  fun _ _ h => { h with keyValid := rfl, known := rfl }

/-- Whichever keys were expanded, the flags follow the error bit. -/
theorem SameButSecrets.after_keyExpanded {s t : State} (h : SameButSecrets s t) (err : Bool) (k k' : Key) :
    SameButSecrets (keyExpanded err k s) (keyExpanded err k' t) := by
  cases err with
  | true => exact { h with keyValid := rfl, kxErr := rfl, known := rfl }
  | false => exact { h with keyValid := rfl, known := rfl }

theorem SameButSecrets.readsBack_eq {s t : State} (h : SameButSecrets s t) : readsBack s = readsBack t := by
  rw [readsBack, readsBack, h.cmd, h.rsp]

theorem hidesSecrets_takeResponse : HidesSecrets takeResponse := by
  intro s t h
  unfold takeResponse
  rw [h.rspOut_eq, h.fsm, h.rdbk, h.readsBack_eq]
  cases rspOut t with
  | none => exact h
  | some w =>
    dsimp only
    split_ifs <;> apply hidesSecrets_note
    · exact { h with rdbk := rfl, fsm := rfl }
    · exact { h with rdbk := rfl, fsm := rfl }
    · exact { h with rsp := rfl, rdbk := rfl, fsm := rfl }
    · exact { h with rsp := rfl, rdbk := rfl, fsm := rfl }

theorem hidesSecrets_illegalCommand (w : Word) : HidesSecrets (illegalCommand w) :=
  fun _ _ h => hidesSecrets_note _ (hidesSecrets_raise _ { h with cmd := rfl })

theorem op_publicReq (r : CphReq) : (publicReq r).op = r.op := by
  cases r <;> rfl

theorem hidesSecrets_sendRequest {taken : State → State} (ht : HidesSecrets taken) : HidesSecrets (sendRequest taken) := by
  intro s t h
  unfold sendRequest
  rcases map_eq_map_cases h.cipherReq_public with ⟨es, et⟩ | ⟨r, r', es, et, hr⟩ <;> rw [es, et]
  · exact h
  · have op : r.op = r'.op := by rw [← op_publicReq r, hr, op_publicReq]
    exact SameButSecrets.after_note (ht { h with inflight := congrArg some hr, fsm := congrArg Fsm.cphRsp op })
      (congrArg Transfer.cipherReq hr)

theorem hidesSecrets_takeCommand {done : State → State} (i : Instr) (hd : HidesSecrets done) :
    HidesSecrets (takeCommand i done) := by
  intro s t h
  unfold takeCommand
  rw [h.cmdIn_eq]
  cases cmdIn t with
  | none => exact h
  | some w =>
    dsimp only
    split_ifs
    · exact hd (hidesSecrets_note _ { h with cmd := rfl })
    · exact hidesSecrets_note _ { h with cmd := rfl, nargs := rfl, argi := rfl, fsm := rfl }

theorem hidesSecrets_takeArgument {store : Word → State → State} {done : State → State}
    (hs : ∀ w, HidesSecrets (store w)) (hd : HidesSecrets done) : HidesSecrets (takeArgument store done) := by
  intro s t h
  unfold takeArgument
  rw [h.cmdIn_eq, h.nargs, h.argi]
  cases cmdIn t with
  | none => exact h
  | some w =>
    dsimp only
    split_ifs
    · exact hd (hidesSecrets_note _ { hs w h with nargs := rfl, argi := rfl })
    · exact hidesSecrets_note _ { hs w h with nargs := rfl, argi := rfl }

theorem SameButSecrets.with_blkbuf {s t : State} (h : SameButSecrets s t) (b : Block) :
    SameButSecrets { s with blkbuf := b } { t with blkbuf := b } :=
  { h with blkbuf := rfl }

theorem SameButSecrets.with_keybuf {s t : State} (h : SameButSecrets s t) (k k' : Key) :
    SameButSecrets { s with keybuf := k } { t with keybuf := k' } :=
  { h with }

theorem hidesSecrets_storeBlock (m : Nat) (w : Word) : HidesSecrets (storeBlock m w) := by
  intro s t h
  unfold storeBlock
  rw [h.blkbuf]
  exact h.with_blkbuf _

theorem hidesSecrets_storeKey (m : Nat) (w : Word) : HidesSecrets (storeKey m w) :=
  fun _ _ h => h.with_keybuf _ _

theorem hidesSecrets_storeInitArg (kp : Bool) (w : Word) : HidesSecrets (storeInitArg kp w) := by
  intro s t h
  unfold storeInitArg
  rw [h.argi]
  split_ifs
  · exact hidesSecrets_storeKey _ w h
  · exact hidesSecrets_storeBlock _ w h

theorem hidesSecrets_storeSetblkArg (w : Word) : HidesSecrets (storeSetblkArg w) := by
  intro s t h
  unfold storeSetblkArg
  rw [h.argi]
  exact hidesSecrets_storeBlock _ w h

theorem hidesSecrets_storeLen (w : Word) : HidesSecrets (storeLen w) :=
  fun _ _ h => { h with len := rfl }

/-! ## What each command does -/

/-- The requests in flight are the same, or two EXPANDs. -/
theorem SameButSecrets.inflight_cases {s t : State} (h : SameButSecrets s t) :
    (s.inflight = none ∧ t.inflight = none) ∨
    (∃ k k', s.inflight = some (.expand k) ∧ t.inflight = some (.expand k')) ∨
    (∃ x, s.inflight = some (.enc x) ∧ t.inflight = some (.enc x)) ∨
    (s.inflight = some .wipe ∧ t.inflight = some .wipe) := by
  rcases map_eq_map_cases h.inflight with none | ⟨q, q', es, et, hq⟩
  · exact .inl none
  · rw [es, et]
    cases q <;> cases q' <;> simp_all [publicReq]

theorem SameButSecrets.with_noFlight {s t : State} (h : SameButSecrets s t) :
    SameButSecrets { s with inflight := none } { t with inflight := none } :=
  { h with inflight := rfl }

theorem hidesSecrets_finishInit (dp : Bool) : HidesSecrets (finishInit dp) := fun _ _ h =>
  hidesSecrets_respond _ (hidesSecrets_clearPath
    { h with cb := congrArg (fun b => if dp then b else zeroBlock) h.blkbuf })

theorem hidesSecrets_startInit (kp dp : Bool) : HidesSecrets (startInit kp dp) := by
  intro s t h
  cases kp with
  | true => exact { h with kxErr := rfl, fsm := rfl }
  | false => exact hidesSecrets_finishInit dp (hidesSecrets_keyDropped { h with kxErr := rfl })

theorem hidesSecrets_finishExpand (dp : Bool) : HidesSecrets (finishExpand dp) := by
  intro s t h
  unfold finishExpand
  rcases map_eq_map_cases h.cipherRsp_public with ⟨es, et⟩ | ⟨r, r', es, et, he⟩ <;> rw [es, et]
  · exact h
  rcases h.inflight_cases with ⟨fs, ft⟩ | ⟨k, k', fs, ft⟩ | ⟨x, fs, ft⟩ | ⟨fs, ft⟩ <;> rw [fs, ft]
  · exact h
  · dsimp only
    rw [he]
    exact hidesSecrets_note _ (hidesSecrets_finishInit dp (h.with_noFlight.after_keyExpanded r'.err k k'))
  · exact h
  · exact h

theorem hidesSecrets_finishWipe : HidesSecrets finishWipe := by
  intro s t h
  unfold finishWipe
  rcases map_eq_map_cases h.cipherRsp_public with ⟨es, et⟩ | ⟨r, r', es, et, he⟩ <;> rw [es, et]
  · exact h
  rcases h.inflight_cases with ⟨fs, ft⟩ | ⟨k, k', fs, ft⟩ | ⟨x, fs, ft⟩ | ⟨fs, ft⟩ <;> rw [fs, ft]
  · exact h
  · exact h
  · exact h
  · dsimp only
    rw [he]
    apply hidesSecrets_note
    split_ifs
    · exact hidesSecrets_raise _ (hidesSecrets_keyDropped h.with_noFlight)
    · exact hidesSecrets_respond _ (hidesSecrets_keyDropped h.with_noFlight)

theorem hidesSecrets_finishSetblk (ep dp : Bool) : HidesSecrets (finishSetblk ep dp) := by
  intro s t h
  unfold finishSetblk
  split_ifs
  · exact hidesSecrets_respond _ { h with cb := h.blkbuf }
  · exact hidesSecrets_raise _ h

theorem hidesSecrets_startTeardown (ep : Bool) : HidesSecrets (startTeardown ep) := by
  intro s t h
  unfold startTeardown
  split_ifs
  · exact { h with fsm := rfl }
  · exact hidesSecrets_raise _ h

theorem hidesSecrets_finishGetblk (ep : Bool) : HidesSecrets (finishGetblk ep) := by
  intro s t h
  unfold finishGetblk
  split_ifs
  · exact hidesSecrets_respond _ h
  · exact hidesSecrets_raise _ h

theorem hidesSecrets_endCall : HidesSecrets endCall :=
  fun _ _ h => hidesSecrets_respond _ (hidesSecrets_clearPath h)

theorem hidesSecrets_startCall (ep dp : Bool) : HidesSecrets (startCall ep dp) := by
  intro s t h
  unfold startCall
  rw [h.len]
  split_ifs
  · exact hidesSecrets_endCall h
  · exact { h with j := rfl, i := rfl, fsm := rfl, len := rfl }
  · exact hidesSecrets_raise _ h

theorem hidesSecrets_clockRequest : HidesSecrets clockRequest :=
  hidesSecrets_sendRequest fun _ _ h => { h with cb := congrArg inc h.cb }

theorem hidesSecrets_xorByte : HidesSecrets xorByte := by
  intro s t h
  unfold xorByte
  rw [h.dataIn_eq]
  cases dataIn t with
  | none => exact h
  | some b => exact hidesSecrets_note _ { h with j := congrArg (· + 1#5) h.j, fsm := rfl }

theorem hidesSecrets_giveByte : HidesSecrets giveByte := by
  intro s t h
  unfold giveByte
  rcases map_eq_map_cases h.dataOut_public with ⟨es, et⟩ | ⟨b, b', es, et, _⟩ <;> rw [es, et]
  · exact h
  rw [h.i, h.len, h.j]
  dsimp only
  split_ifs
  · exact (hidesSecrets_endCall h).after_note rfl
  · exact SameButSecrets.after_note { h with i := rfl, len := rfl, j := rfl, fsm := rfl } rfl
  · exact SameButSecrets.after_note { h with i := rfl, len := rfl, j := rfl, fsm := rfl } rfl

theorem publicTransfer_cipherBlock (b : Block) : publicTransfer (.cipherBlock b) = .cipherBlock zeroBlock := rfl

theorem SameButSecrets.with_keystream {s t : State} (h : SameButSecrets s t) (b b' : Block) :
    SameButSecrets { s with ks := b, j := 0#5, fsm := .xcByte, inflight := none }
      { t with ks := b', j := 0#5, fsm := .xcByte, inflight := none } :=
  { h with j := rfl, fsm := rfl, inflight := rfl }

/-- Whichever keystream block is loaded, it goes to KS alone. -/
theorem SameButSecrets.after_loadKeystream {s t : State} (h : SameButSecrets s t) (x : Block) (d d' : BitVec 128) :
    SameButSecrets (loadKeystream x d s) (loadKeystream x d' t) :=
  (h.with_keystream _ _).after_note (by rw [publicTransfer_cipherBlock, publicTransfer_cipherBlock])

theorem SameButSecrets.clockResponse_same {s t : State} (h : SameButSecrets s t) :
    SameOutcome (clockResponse s) (clockResponse t) := by
  unfold clockResponse
  rcases map_eq_map_cases h.cipherRsp_public with ⟨es, et⟩ | ⟨r, r', es, et, he⟩ <;> rw [es, et]
  · exact h
  rcases h.inflight_cases with ⟨fs, ft⟩ | ⟨k, k', fs, ft⟩ | ⟨x, fs, ft⟩ | ⟨fs, ft⟩ <;> rw [fs, ft]
  · exact h
  · exact h
  · dsimp only
    rw [he]
    split_ifs
    · rfl
    · exact h.after_loadKeystream x r.data r'.data
  · exact h

/-! ## Every edge -/

section Edges

variable {s t : State}

theorem SameButSecrets.execInit_same (h : SameButSecrets s t) (kp dp : Bool) :
    SameOutcome (execInit kp dp s) (execInit kp dp t) := by
  unfold execInit
  rw [h.fsm]
  cases t.fsm with
  | idle => exact hidesSecrets_takeCommand _ (hidesSecrets_startInit kp dp) h
  | args => exact hidesSecrets_takeArgument (hidesSecrets_storeInitArg kp) (hidesSecrets_startInit kp dp) h
  | cphReq op =>
    cases op with
    | expand => exact hidesSecrets_sendRequest (fun _ _ h => h.with_keybuf _ _) h
    | _ => exact h
  | cphRsp op =>
    cases op with
    | expand => exact hidesSecrets_finishExpand dp h
    | _ => exact h
  | resp => exact hidesSecrets_takeResponse h
  | _ => exact h

theorem SameButSecrets.execSetblk_same (h : SameButSecrets s t) (ep dp : Bool) :
    SameOutcome (execSetblk ep dp s) (execSetblk ep dp t) := by
  unfold execSetblk
  rw [h.fsm]
  cases t.fsm with
  | idle => exact hidesSecrets_takeCommand _ (hidesSecrets_finishSetblk ep dp) h
  | args => exact hidesSecrets_takeArgument hidesSecrets_storeSetblkArg (hidesSecrets_finishSetblk ep dp) h
  | resp => exact hidesSecrets_takeResponse h
  | _ => exact h

theorem SameButSecrets.execXcrypt_same (h : SameButSecrets s t) (ep dp : Bool) :
    SameOutcome (execXcrypt ep dp s) (execXcrypt ep dp t) := by
  unfold execXcrypt
  rw [h.fsm]
  cases t.fsm with
  | idle => exact hidesSecrets_takeCommand _ (hidesSecrets_startCall ep dp) h
  | args => exact hidesSecrets_takeArgument hidesSecrets_storeLen (hidesSecrets_startCall ep dp) h
  | cphReq op =>
    cases op with
    | enc => exact hidesSecrets_clockRequest h
    | _ => exact h
  | cphRsp op =>
    cases op with
    | enc => exact h.clockResponse_same
    | _ => exact h
  | xcByte => exact hidesSecrets_xorByte h
  | xcOut => exact hidesSecrets_giveByte h
  | resp => exact hidesSecrets_takeResponse h
  | rdbk => exact h

theorem SameButSecrets.execTeardown_same (h : SameButSecrets s t) (ep : Bool) :
    SameOutcome (execTeardown ep s) (execTeardown ep t) := by
  unfold execTeardown
  rw [h.fsm]
  cases t.fsm with
  | idle => exact hidesSecrets_takeCommand _ (hidesSecrets_startTeardown ep) h
  | cphReq op =>
    cases op with
    | wipe => exact hidesSecrets_sendRequest (fun _ _ h => h) h
    | _ => exact h
  | cphRsp op =>
    cases op with
    | wipe => exact hidesSecrets_finishWipe h
    | _ => exact h
  | resp => exact hidesSecrets_takeResponse h
  | _ => exact h

theorem SameButSecrets.execGetblk_same (h : SameButSecrets s t) (ep : Bool) :
    SameOutcome (execGetblk ep s) (execGetblk ep t) := by
  unfold execGetblk
  rw [h.fsm]
  cases t.fsm with
  | idle => exact hidesSecrets_takeCommand _ (hidesSecrets_finishGetblk ep) h
  | resp => exact hidesSecrets_takeResponse h
  | rdbk => exact hidesSecrets_takeResponse h
  | _ => exact h

theorem SameButSecrets.exec_same (h : SameButSecrets s t) (i : Instr) : SameOutcome (exec i s) (exec i t) := by
  cases i with
  | init kp dp => exact h.execInit_same kp dp
  | setblk ep dp => exact h.execSetblk_same ep dp
  | xcrypt ep dp => exact h.execXcrypt_same ep dp
  | teardown ep => exact h.execTeardown_same ep
  | getblk ep => exact h.execGetblk_same ep

/-- Which command the edge belongs to is decided by FSM, CMD and the word offered. -/
theorem SameButSecrets.work_eq (h : SameButSecrets s t) : work s = work t := by
  unfold work
  rw [h.fsm, h.cmdIn_eq, h.cmd]

theorem SameButSecrets.engineEdge_same (h : SameButSecrets s t) : SameOutcome (engineEdge s) (engineEdge t) := by
  unfold engineEdge
  rw [h.work_eq]
  cases work t with
  | run i => exact h.exec_same i
  | illegal w => exact hidesSecrets_illegalCommand w h
  | reply => exact hidesSecrets_takeResponse h
  | wait => exact h

theorem SameButSecrets.contractBreach_eq (h : SameButSecrets s t) : contractBreach s = contractBreach t := by
  have answer : s.pins.cphRsp.isSome = t.pins.cphRsp.isSome := by
    simpa using congrArg Option.isSome h.answer_offered_public
  have request : s.inflight.isNone = t.inflight.isNone := by
    simpa using congrArg Option.isNone h.inflight
  rw [contractBreach, contractBreach, h.heldCmd, h.heldDin, h.cmd_offered_eq, h.din_offered_eq, answer, request]

theorem SameButSecrets.inputs_tail (h : SameButSecrets s t) :
    s.inputs.tail.map publicPins = t.inputs.tail.map publicPins := by
  rw [List.map_tail, List.map_tail, h.inputs]

theorem SameButSecrets.after_advance {u v : State} (h : SameButSecrets s t) (hu : SameButSecrets u v) :
    SameButSecrets (advance s u) (advance t v) := by
  have cmdReady : s.ports.cmdReady = t.ports.cmdReady := (congrArg PortOut.cmdReady h.ports_public :)
  have dinReady : s.ports.dinReady = t.ports.dinReady := (congrArg PortOut.dinReady h.ports_public :)
  unfold advance
  rw [cmdReady, dinReady, h.cmd_offered_eq, h.din_offered_eq]
  exact { hu with inputs := h.inputs_tail, heldCmd := rfl, heldDin := rfl }

theorem SameOutcome.after_mapNext {f g : State → State} {a b : Host.Outcome State Fault Refusal}
    (h : SameOutcome a b) (hfg : ∀ u v, SameButSecrets u v → SameButSecrets (f u) (g v)) :
    SameOutcome (mapNext f a) (mapNext g b) := by
  cases a with
  | next u =>
    cases b with
    | next v => exact hfg u v h
    | _ => exact h.elim
  | fault r => cases b <;> exact h
  | refused r => cases b <;> exact h

theorem SameButSecrets.refl (s : State) : SameButSecrets s s := by
  constructor <;> rfl

/-- A reset edge leaves nothing of the state but its inputs and its traffic. -/
theorem hidesSecrets_resetEdge : HidesSecrets resetEdge :=
  fun _ _ h => { SameButSecrets.refl State.reset with inputs := h.inputs_tail, traffic := h.traffic }

end Edges

/-- Settles O50: reset, the contracts and the choice of command see no secret, and every operation of the engine keeps
the two states alike but for secrets. -/
theorem secretsReachOnlyDataOut : Obligations.SecretsReachOnlyDataOut := by
  intro s t h
  unfold step
  rw [h.rstN_eq, h.contractBreach_eq]
  split_ifs
  · cases contractBreach t with
    | some r => exact rfl
    | none => exact h.engineEdge_same.after_mapNext fun _ _ => h.after_advance
  · exact hidesSecrets_resetEdge h

end Sys2Proof.Machine
end

section
/-! PROOFS. What stops a run, and what holds an engine still (60_exceptions.md R248, R258). -/

namespace Sys2Proof.Machine

/-! ## Waiting -/

/-- Where no word was taken, a word the host offers at this edge stays owed. -/
theorem heldCmd_of_noCmd {s : State} (hr : s.pins.rstN = true) (h : cmdIn s = none) :
    (if takesWord s.fsm then none else s.pins.cmd) = s.pins.cmd := by
  rw [cmdIn, ports_of_running hr] at h
  split
  case isTrue ready => simpa [ready] using h.symm
  case isFalse => rfl

/-- Where no data byte was taken, a byte the host offers at this edge stays owed. -/
theorem heldDin_of_noDin {s : State} (hr : s.pins.rstN = true) (h : dataIn s = none) :
    (if s.fsm = .xcByte then none else s.pins.din) = s.pins.din := by
  rw [dataIn, ports_of_running hr] at h
  split
  case isTrue ready => simpa [ready] using h.symm
  case isFalse => rfl

/-- Settles O19: the one move without a transfer is `stay` (`Move.eq_of_noTransfer`), and what the host offers stays owed. -/
theorem nothingMovesWithoutTransfer : Obligations.NothingMovesWithoutTransfer := by
  intro s t hr h noCmd noRsp noDin noDout noReq noAnswer
  obtain ⟨u, m, rfl⟩ := step_move hr h
  rw [m.eq_of_noTransfer ⟨noCmd, noRsp, noDin, noDout, noReq, noAnswer⟩, advance_eq hr, heldCmd_of_noCmd hr noCmd,
    heldDin_of_noDin hr noDin]

/-! ## Breaches of contract -/

/-- An owed offer is broken when it is not up any more, or not with the same data (30_encoding.md R71). -/
theorem offerBroken_eq_true {α : Type} [DecidableEq α] {held now : Option α} :
    offerBroken held now = true ↔ ∃ x, held = some x ∧ now ≠ some x := by
  cases held <;> simp [offerBroken]

theorem offerBroken_eq_false {α : Type} [DecidableEq α] {held now : Option α} :
    offerBroken held now = false ↔ ∀ x, held = some x → now = some x := by
  cases held <;> simp [offerBroken]

theorem step_of_breach {s : State} {r : Refusal} (hr : s.pins.rstN = true) (hb : contractBreach s = some r) :
    step s = .refused r := by
  simp [step, hr, hb]

/-- A broken offer is named whatever the collaborator does at that edge (log 5). -/
theorem contractBreach_of_brokenOffer {s : State}
    (h : offerBroken s.heldCmd s.pins.cmd = true ∨ offerBroken s.heldDin s.pins.din = true) :
    contractBreach s = some .portProtocol := by
  simp [contractBreach, h]

theorem contractBreach_of_strayAnswer {s : State} (hc : offerBroken s.heldCmd s.pins.cmd = false)
    (hd : offerBroken s.heldDin s.pins.din = false) (ha : s.pins.cphRsp.isSome) (hx : s.inflight = none) :
    contractBreach s = some .unsolicitedResponse := by
  simp [contractBreach, hc, hd, ha, hx]

/-- Settles O22: the fault is that of the clock's answer (`clockResponse_answered`), the two refusals are the contract
breaches. -/
theorem contractBreachesStop : Obligations.ContractBreachesStop := by
  refine ⟨fun s x d hr hb hf hi hx ha => ?_, fun s hr _ broken => ?_, fun s hr keptCmd keptDin answer noRequest => ?_⟩
  · have taken : cipherRsp s = some { err := true, data := d } :=
      cipherRsp_eq_some.mpr ⟨hr, takesCipherRsp_eq_true.mpr ⟨.enc, hf⟩, ha⟩
    have latched : work s = .run (.xcrypt true true) := by simp [work, hf, hi]
    rw [step_eq_engineEdge hr hb, engineEdge_of_run latched, execXcrypt_clockResponse true true hf,
      clockResponse_answered taken hx]
    rfl
  · rw [← offerBroken_eq_true, ← offerBroken_eq_true] at broken
    exact step_of_breach hr (contractBreach_of_brokenOffer broken)
  · exact step_of_breach hr (contractBreach_of_strayAnswer (offerBroken_eq_false.mpr keptCmd)
      (offerBroken_eq_false.mpr keptDin) (Option.isSome_iff_ne_none.mpr answer) noRequest)

end Sys2Proof.Machine
end

section
/-! PROOFS. An edge with `rst_n = 0` (70_reset_and_hazards.md R270). -/

namespace Sys2Proof.Machine

/-- The ports while `rst_n = 0`, whatever the control state. -/
theorem ports_of_held {s : State} (hr : s.pins.rstN = false) :
    s.ports =
      { cmdReady := false, rsp := none, dinReady := false, dout := none, cphReq := none, cphRspReady := false } := by
  simp [State.ports, hr]

/-- With `rst_n = 0` no contract is checked and no command goes on (log 5). -/
theorem step_eq_resetEdge {s : State} (hr : s.pins.rstN = false) : step s = .next (resetEdge s) := by
  simp [step, hr]

/-- Settles O16: the step is `resetEdge` whatever FSM was, and it leaves the engine in IDLE, where `cmd_ready` is 1. -/
theorem resetEdgeTakesResetValues : Obligations.ResetEdgeTakesResetValues := by
  intro s hr
  have idle : (resetEdge s).fsm = .idle := rfl
  refine ⟨by simp [ports_of_held hr], resetEdge s, step_eq_resetEdge hr, rfl, rfl, fun running => ?_⟩
  rw [ports_of_running running]
  exact takesWord_eq_true.mpr (.inl idle)

end Sys2Proof.Machine
end
